-- ==== Sys2Proof/Word.lean ====
section
/-!
DEFINITION. The word types of the SBS and the one arithmetic function R14 names.
The register port moves 32-bit words (R49), a frame is made of bytes (R71), a port transaction is written as one
48-bit record (R61).
-/
namespace Sys2Proof

/-- One byte of a frame, a packet or a command's ARG. -/
abbrev Byte := BitVec 8

/-- One register word, the 32 bits the register port moves (R49, R52). -/
abbrev Word := BitVec 32

/-- One transaction record (R61): KIND[47:44], ADDR[43:36], RSV[35:32], DATA[31:0]. -/
abbrev Record := BitVec 48

/-- One amplitude sample: the signed integer a `SAMPLE_W`-bit two's-complement value stands for (R8, R69).
The synchronizer adds and compares samples as integers (R14, R103, R104). -/
abbrev Sample := Int

/-- `fdiv(a, b)` of R14: division rounding toward minus infinity, defined there for `b > 0` only. -/
def floorDiv (a b : Int) : Int := Int.fdiv a b

end Sys2Proof
end

