-- ==== Sys2Proof/Config.lean ====
section
/-!
DEFINITION. What an implementation of the SBS fixes: the four parameters of R8 to R11 ("a named parameter the model
takes as an argument"). They are held in `State.params`, which no transaction and no step changes, so that a statement
about every state is a statement about every implementation.
-/
namespace Sys2Proof

/-- The implementation parameters of R8 to R11. -/
structure Params where
  /-- `SAMPLE_W`, the width in bits of one sample (R8). -/
  sampleW : Nat
  /-- `MAX_STRIDE`, the largest stride START accepts (R9). -/
  maxStride : Nat
  /-- `BUF_CAP`, the sample window's capacity in samples (R10). -/
  bufCap : Nat
  /-- `OUT_FIFO_CAP`, the output FIFO's capacity in beats (R11). -/
  outFifoCap : Nat
deriving DecidableEq, Repr

/-- The legal values of R8, R9 and R11. R10 gives `BUF_CAP` a recommended value and no bound. -/
def Params.legal (p : Params) : Bool :=
  decide (2 ≤ p.sampleW) && decide (p.sampleW ≤ 32) && decide (1 ≤ p.maxStride)
    && decide (p.maxStride ≤ 65535) && decide (256 ≤ p.outFifoCap)

/-- DESIGN CHOICE (log entry 4): the example values of R8 to R11, which `State.reset` holds. -/
def Params.exampleValues : Params :=
  { sampleW := 16, maxStride := 16, bufCap := 36736, outFifoCap := 1024 }

end Sys2Proof
end

