-- ==== Sys2Proof/Syntax.lean ====
section
/-!
DEFINITION. The instructions of the SBS: one constructor for each of the 29 rows of spec/opcode_table.json, and the
names of the 23 registers (R19).
-/
namespace Sys2Proof

/-- What the model executes: the port transactions (R62), the CTRL commands (R65), the refused record kinds (R63) and
the block's internal steps (R107 to R113). Bits that the spec says are ignored (R64) are no operand. -/
inductive Instr where
  /-- RESET, KIND 0x0 (R152). -/
  | reset
  /-- REG_WRITE to an offset other than CTRL's, KIND 0x1 (R119). -/
  | wr (addr : BitVec 8) (wdata : Word)
  /-- REG_READ, KIND 0x2 (R120). -/
  | rd (addr : BitVec 8)
  /-- SAMPLE, KIND 0x3, with the record's DATA, `sext_32(x)` (R62, R127). -/
  | smp (sdata : Word)
  /-- EOS, KIND 0x4 (R128). -/
  | eos
  /-- SRC_ERR, KIND 0x5 (R129). -/
  | srcerr
  /-- POP, KIND 0x6 (R130). -/
  | pop
  /-- Command 0x0 (R122). -/
  | nop
  /-- Command 0x1 (R98). -/
  | start
  /-- Command 0x2 (R123). -/
  | abort
  /-- Command 0x3 (R124). -/
  | clrerr
  /-- Command 0x4 (R125). -/
  | clrcnt
  /-- Reserved command 0x5 (R126). -/
  | reserved5
  /-- Reserved command 0x6 (R126). -/
  | reserved6
  /-- Reserved command 0x7 (R126). -/
  | reserved7
  /-- Command 0x8 (R85). -/
  | crcInit
  /-- Command 0x9 with its ARG (R86). -/
  | crcByte (arg : Byte)
  /-- Command 0xA (R88). -/
  | whtInit
  /-- Command 0xB (R89). -/
  | whtStep
  /-- Command 0xC with its ARG (R90). -/
  | whtXor (arg : Byte)
  /-- Command 0xD (R87). -/
  | crcTest
  /-- Reserved command 0xE (R126). -/
  | reservedE
  /-- Reserved command 0xF (R126). -/
  | reservedF
  /-- A record of KIND 0x7 to 0xF, whatever its other 44 bits: not well formed (R63). -/
  | reservedKind (kind : BitVec 4) (rest : BitVec 44)
  /-- Internal step SCAN (R107). -/
  | scan
  /-- Internal step FINISH (R108). -/
  | finish
  /-- Internal step PHASE (R109). -/
  | phase
  /-- Internal step EXTRACT (R111). -/
  | extract
  /-- Internal step PARSE (R113). -/
  | parse
deriving DecidableEq, Repr

/-- The internal steps of the block: no record stands for them (opcode table, "an internal step of the SBS agent"). -/
def Instr.isInternal : Instr → Bool
  | .scan | .finish | .phase | .extract | .parse => true
  | .reset | .wr _ _ | .rd _ | .smp _ | .eos | .srcerr | .pop | .nop | .start | .abort | .clrerr | .clrcnt
  | .reserved5 | .reserved6 | .reserved7 | .crcInit | .crcByte _ | .whtInit | .whtStep | .whtXor _ | .crcTest
  | .reservedE | .reservedF | .reservedKind _ _ => false

/-- The 23 registers of R19, in the order of their offsets. -/
inductive Reg where
  | ctrl | status | cfg0 | cfg1 | cfg2 | desc0 | desc1 | pos | thsum | thresh | phase | samplesIn | outLevel
  | pktCount | dropLen | dropCrc | lastDrop | crcReg | whtReg | codecOut | param0 | param1 | param2
deriving DecidableEq, Repr

/-- Why a record of KIND 0x0 to 0x6 is not well formed, whatever the parameters (R63). -/
inductive DecodeError where
  /-- RSV is not 0. -/
  | rsvNonzero
  /-- ADDR is not 0 on a record that is no register transaction. -/
  | addrNonzero
  /-- DATA is not 0 on a RESET, REG_READ, EOS, SRC_ERR or POP. -/
  | dataNonzero
deriving DecidableEq, Repr

end Sys2Proof
end

