-- ==== Sys2Proof/WellFormed.lean ====
section
/-!
DEFINITION. When an instruction is well formed for an implementation's parameters (R63).
-/
namespace Sys2Proof

/-- The checks of R63 that an `Instr` can still fail: a SAMPLE's DATA is the sign extension of its low `SAMPLE_W` bits;
a record of a reserved KIND is never well formed. And a `wr` to offset 0x00 is no `wr`: such a record is a command
(R62, opcode table row `wr`). -/
def Instr.wellFormed (p : Params) : Instr → Bool
  | .wr addr _ => addr != 0
  | .smp sdata => (sdata.setWidth p.sampleW).signExtend 32 == sdata
  | .reservedKind _ _ => false
  | .reset | .rd _ | .eos | .srcerr | .pop | .nop | .start | .abort | .clrerr | .clrcnt
  | .reserved5 | .reserved6 | .reserved7 | .crcInit | .crcByte _ | .whtInit | .whtStep | .whtXor _ | .crcTest
  | .reservedE | .reservedF | .scan | .finish | .phase | .extract | .parse => true

end Sys2Proof
end

