-- ==== Sys2Proof/Decode.lean ====
section
/-!
DEFINITION. The transaction record and the command word (R61 to R65): decoding, total on the 48 bits, and encoding.
-/
namespace Sys2Proof

/-- KIND, bits 47 to 44 of a record (R61). -/
def recordKind (r : Record) : BitVec 4 := r.extractLsb' 44 4

/-- ADDR, bits 43 to 36 of a record (R61). -/
def recordAddr (r : Record) : BitVec 8 := r.extractLsb' 36 8

/-- RSV, bits 35 to 32 of a record (R61). -/
def recordRsv (r : Record) : BitVec 4 := r.extractLsb' 32 4

/-- DATA, bits 31 to 0 of a record (R61). -/
def recordData (r : Record) : Word := r.extractLsb' 0 32

/-- CMD, bits 3 to 0 of a command word (R64). -/
def commandCode (wdata : Word) : BitVec 4 := wdata.extractLsb' 0 4

/-- ARG, bits 15 to 8 of a command word (R64). -/
def commandArg (wdata : Word) : Byte := wdata.extractLsb' 8 8

/-- The command a write of `wdata` to CTRL stands for (R65). DATA[7:4], DATA[31:16] and, but for CRC_BYTE and WHT_XOR,
ARG are ignored (R64). -/
def decodeCommand (wdata : Word) : Instr :=
  match (commandCode wdata).toNat with
  | 0x0 => .nop
  | 0x1 => .start
  | 0x2 => .abort
  | 0x3 => .clrerr
  | 0x4 => .clrcnt
  | 0x5 => .reserved5
  | 0x6 => .reserved6
  | 0x7 => .reserved7
  | 0x8 => .crcInit
  | 0x9 => .crcByte (commandArg wdata)
  | 0xA => .whtInit
  | 0xB => .whtStep
  | 0xC => .whtXor (commandArg wdata)
  | 0xD => .crcTest
  | 0xE => .reservedE
  | _ => .reservedF

/-- `i`, if the record's ADDR and DATA are 0, as R63 asks of RESET, EOS, SRC_ERR and POP. -/
def bareRecord (r : Record) (i : Instr) : Except DecodeError Instr :=
  if recordAddr r ≠ 0 then .error .addrNonzero
  else if recordData r ≠ 0 then .error .dataNonzero
  else .ok i

/-- The instruction of a record of KIND 0x0 to 0x6 with RSV 0 (R62, R63). -/
def decodeKind (r : Record) : Except DecodeError Instr :=
  match (recordKind r).toNat with
  | 0x0 => bareRecord r .reset
  | 0x1 => if recordAddr r = 0 then .ok (decodeCommand (recordData r)) else .ok (.wr (recordAddr r) (recordData r))
  | 0x2 => if recordData r ≠ 0 then .error .dataNonzero else .ok (.rd (recordAddr r))
  | 0x3 => if recordAddr r ≠ 0 then .error .addrNonzero else .ok (.smp (recordData r))
  | 0x4 => bareRecord r .eos
  | 0x5 => bareRecord r .srcerr
  | _ => bareRecord r .pop

/-- The instruction a record stands for, or why the record is not well formed (R61 to R65). Whether a SAMPLE's DATA is
sign-extended depends on `SAMPLE_W` and is checked by `Instr.wellFormed` and by the meaning of `smp` (log entry 9). -/
def decode (r : Record) : Except DecodeError Instr :=
  if 7 ≤ (recordKind r).toNat then .ok (.reservedKind (recordKind r) (r.extractLsb' 0 44))
  else if recordRsv r ≠ 0 then .error .rsvNonzero
  else decodeKind r

/-- The instruction the decoder reads from the record whose number is `w`, its bits from `nbits` up being 0. -/
def decodeTableWord (nbits w : Nat) : Option Instr :=
  match decode (BitVec.ofNat 48 (w % 2 ^ nbits)) with
  | .ok i => some i
  | .error _ => none

/-- The record with these fields and RSV 0 (R61). -/
def mkRecord (kind : BitVec 4) (addr : BitVec 8) (data : Word) : Record := kind ++ addr ++ 0#4 ++ data

/-- The command word with this CMD and ARG, its ignored bits 0 (R64). -/
def commandWord (cmd : BitVec 4) (arg : Byte) : Word := 0#16 ++ arg ++ 0#4 ++ cmd

/-- The record of a command (R62, R65). -/
def commandRecord (cmd : BitVec 4) (arg : Byte) : Record := mkRecord 1 0 (commandWord cmd arg)

/-- The record of an instruction (R62, R65), every ignored bit 0; an internal step has none. -/
def encode : Instr → Option Record
  | .reset => some (mkRecord 0 0 0)
  | .wr addr wdata => some (mkRecord 1 addr wdata)
  | .rd addr => some (mkRecord 2 addr 0)
  | .smp sdata => some (mkRecord 3 0 sdata)
  | .eos => some (mkRecord 4 0 0)
  | .srcerr => some (mkRecord 5 0 0)
  | .pop => some (mkRecord 6 0 0)
  | .nop => some (commandRecord 0x0 0)
  | .start => some (commandRecord 0x1 0)
  | .abort => some (commandRecord 0x2 0)
  | .clrerr => some (commandRecord 0x3 0)
  | .clrcnt => some (commandRecord 0x4 0)
  | .reserved5 => some (commandRecord 0x5 0)
  | .reserved6 => some (commandRecord 0x6 0)
  | .reserved7 => some (commandRecord 0x7 0)
  | .crcInit => some (commandRecord 0x8 0)
  | .crcByte arg => some (commandRecord 0x9 arg)
  | .whtInit => some (commandRecord 0xA 0)
  | .whtStep => some (commandRecord 0xB 0)
  | .whtXor arg => some (commandRecord 0xC arg)
  | .crcTest => some (commandRecord 0xD 0)
  | .reservedE => some (commandRecord 0xE 0)
  | .reservedF => some (commandRecord 0xF 0)
  | .reservedKind kind rest => some (kind ++ rest)
  | .scan => none
  | .finish => none
  | .phase => none
  | .extract => none
  | .parse => none

/-- The bits of a record that carry meaning (R61 to R65): of a command, KIND, ADDR, RSV and CMD, and ARG where the command
uses it; of every other record, all 48. -/
def significantBits : Instr → Record
  | .nop | .start | .abort | .clrerr | .clrcnt | .reserved5 | .reserved6 | .reserved7 | .crcInit | .whtInit
  | .whtStep | .crcTest | .reservedE | .reservedF => 0xFFFF0000000F
  | .crcByte _ | .whtXor _ => 0xFFFF0000FF0F
  | .reset | .wr _ _ | .rd _ | .smp _ | .eos | .srcerr | .pop | .reservedKind _ _ | .scan | .finish | .phase
  | .extract | .parse => 0xFFFFFFFFFFFF

end Sys2Proof
end

