-- ==== Sys2Proof/Machine/State.lean ====
section
/-!
DEFINITION. The state of the machine (R18), the reasons a step can stop, and the state after reset (R153).
Everything is plain data. The block's own state comes first; the model's own fields, which hold what the other agents
have offered and taken, stand last and say so.
-/
namespace Sys2Proof.Machine

/-- `st`, the state of the state machine (R20). Code 7 is reserved and "never held": it has no constructor (log entry 11). -/
inductive St where
  /-- Code 0: no session. -/
  | idle
  /-- Code 1: testing the pattern at `pos`. -/
  | search
  /-- Code 2: a candidate is held at `pos`, waiting for look-ahead, then sweeping phase. -/
  | phase
  /-- Code 3: bits to be sampled, packed and de-whitened. -/
  | extract
  /-- Code 4: bytes to be parsed. -/
  | parse
  /-- Code 5: end of stream reached and the remainder is shorter than one pattern window. -/
  | done
  /-- Code 6: a source error ended the session. -/
  | srcErr
deriving DecidableEq, Repr

/-- One beat of the output FIFO (R38). -/
structure Beat where
  data : Byte
  sop : Bool
  eop : Bool
deriving DecidableEq, Repr

/-- The sample window `smp`, the block's only memory: a partial map from absolute sample index to sample (R34), as the
list of its pairs. Canonical form: indices strictly rising (`Memory.wf`). An index that is not listed holds no sample
(R41), so no pair can equal what an unlisted index reads as. -/
abbrev Memory := List (Nat × Sample)

/-- The descriptor latch `desc` (R35), the constants START computes (R93 to R97). -/
structure Descriptor where
  /-- `Npre`, preamble bytes (R93). -/
  npre : Nat
  /-- `Nsync`, sync bytes (R94). -/
  nsync : Nat
  /-- `P`, the pattern (R95). -/
  pattern : List Bool
  /-- `n = len(P)` (R95). -/
  n : Nat
  /-- `S`, the stride (R97). -/
  stride : Nat
  /-- `T`, `thsize` (R97). -/
  thsize : Nat
  /-- `MFB`, `max_frame_bits` (R96). -/
  mfb : Nat
  /-- `maxsize`, the look-ahead in samples (R97). -/
  maxsize : Nat
  /-- `base_size` in bytes (R96). -/
  baseSize : Nat
  /-- `crc_en`. -/
  crcEn : Bool
  /-- `white`. -/
  white : Bool
  /-- `pktlen`, PACKET_LENGTH. -/
  pktlen : Nat
deriving DecidableEq, Repr

/-- The latch's reset value, "all zero, not valid" (R35, R153). -/
def Descriptor.zero : Descriptor :=
  { npre := 0, nsync := 0, pattern := [], n := 0, stride := 0, thsize := 0, mfb := 0, maxsize := 0, baseSize := 0,
    crcEn := false, white := false, pktlen := 0 }

/-- What the parser yields on success (R100): the address is always `none` here (R102). -/
structure Packet where
  address : Option Byte
  payload : List Byte
deriving DecidableEq, Repr

/-- Why PARSE drops a frame (R100, R31). -/
inductive DropCause where
  /-- `FrameError(LEN)`, cause 1. -/
  | len
  /-- `FrameError(SHORT)`, cause 2. -/
  | short
  /-- `ChecksumError`, cause 3. -/
  | crc
deriving DecidableEq, Repr

/-- The result of the parser (R100). -/
inductive Parsed where
  | packet (p : Packet)
  | drop (c : DropCause)
deriving DecidableEq, Repr

/-- The error events of the SBS, one for each row of R132's table. -/
inductive ErrorEvent where
  /-- `ConfigurationError(code)`: START refused the configuration (R133). -/
  | configuration (code : BitVec 4)
  /-- `FrameError` or `ChecksumError`: PARSE dropped the frame (R134, R135). -/
  | frameDropped (cause : DropCause)
  /-- `SourceError`: the sample source reported a read failure (R136). -/
  | source
  /-- An ignored register write (R137). -/
  | ignoredWrite
  /-- A reserved command code, or START outside IDLE (R137). -/
  | command
deriving DecidableEq, Repr

/-- The five ports (R118), in the order in which R141 serializes the events of one cycle. -/
inductive Port where
  /-- The reset input `rst`. -/
  | rst
  /-- The register port. -/
  | reg
  /-- The source-error input `src_err`. -/
  | srcErr
  /-- The sample port. -/
  | sample
  /-- The packet port. -/
  | packet
deriving DecidableEq, Repr

/-- The agents outside the block (R7). -/
inductive Agent where
  /-- The register host: register transactions, and RESET (log entry 2). -/
  | host
  /-- The sample source: SAMPLE, EOS and SRC_ERR (R7). -/
  | source
  /-- The packet sink: POP (R7). -/
  | sink
deriving DecidableEq, Repr

/-- Whose move is next (R7): an agent's, with the transaction it issued first, or the block's, with its enabled internal
step. -/
inductive Turn where
  | agent (a : Agent)
  | block
deriving DecidableEq, Repr

/-- Per agent, the transactions it has issued that have not been accepted, in the order it issued them (R55: "The order
of an agent's own transactions is the order it issued them"; R118: "keeps it pending and offers it again later"). -/
structure Inputs where
  host : List Record
  source : List Record
  sink : List Record
deriving DecidableEq, Repr

/-- Why the machine stops. None of the spec's error events is one of these (R138): each is an ordinary outcome. These
are states of the model that no run from reset reaches ("fault means reaching it is a modelling error",
93_implementation_defined.md). -/
inductive Fault where
  /-- SCAN, PHASE or EXTRACT would read `Sample(index)`, which has not arrived or has been discarded
  (93_implementation_defined.md I12: "fault: no rule reads one"; R41). Safe: the machine never gets here. -/
  | sampleAbsent (index : Nat)
  /-- SCAN would divide by a threshold window of length 0, where `fdiv` is not defined (R14, R103): only without a
  descriptor. Safe: a session's `T` is at least 16 (R97). -/
  | emptyThresholdWindow
  /-- PHASE found no matching offset, where R109 says "a run always exists". Safe: offset 0 is the candidate's own. -/
  | noMatchingOffset
deriving DecidableEq, Repr

/-- Why the model gives an input no meaning. "A model refuses a record that is not well formed" (R63), and nothing
else (R138). -/
inductive Refusal where
  /-- exec's arm of an instruction that has no meaning in this model; no arm answers it now. Safe. -/
  | notModelled (mnemonic : String)
  /-- `reserved_kind`: a record of KIND 0x7 to 0xF (R63, R73). Safe: no port can carry it. -/
  | reservedKind (kind : BitVec 4)
  /-- The fetch of a record whose RSV, ADDR or DATA is not 0 where it must be (R63). Safe: no port can carry it. -/
  | illFormed (why : DecodeError)
  /-- `smp`: DATA is not the sign extension of its low SAMPLE_W bits (R63). Safe: the sample port is SAMPLE_W bits wide. -/
  | sampleNotSignExtended (sdata : Word)
deriving DecidableEq, Repr

/-- The state of the machine (R18). -/
structure State where
  /-- The implementation's parameters (R8 to R11); nothing changes them (R153). -/
  params : Params
  /-- `st` (R20). -/
  st : St
  /-- CFG0 (R23). -/
  cfg0 : Word
  /-- CFG1 (R24). -/
  cfg1 : Word
  /-- CFG2 (R25). -/
  cfg2 : Word
  /-- STATUS.SRC_ERR (R22). -/
  srcErr : Bool
  /-- STATUS.CFG_ERR (R22). -/
  cfgErr : BitVec 4
  /-- STATUS.WERR (R22). -/
  werr : Bool
  /-- STATUS.CMDERR (R22). -/
  cmdErr : Bool
  /-- DESC0 (R26). -/
  desc0 : Word
  /-- DESC1 (R26). -/
  desc1 : Word
  /-- PKT_COUNT (R30). -/
  pktCount : Word
  /-- DROP_LEN (R30). -/
  dropLen : Word
  /-- DROP_CRC (R30). -/
  dropCrc : Word
  /-- LAST_DROP (R31). -/
  lastDrop : Word
  /-- CRC_REG.CRC (R32). -/
  crcReg : BitVec 16
  /-- WHT_REG.WSTATE (R32). -/
  whtReg : BitVec 9
  /-- CODEC_OUT.VALUE (R32). -/
  codecOut : Byte
  /-- `rcv`, the samples accepted in the session (R34). -/
  rcv : Nat
  /-- `smp`, the sample window (R34). -/
  smp : Memory
  /-- `eos`, which STATUS.EOS_SEEN shows (R34, R120). -/
  eos : Bool
  /-- `desc`, the descriptor latch (R35). -/
  desc : Descriptor
  /-- `thsum`, which THSUM shows (R36). -/
  thsum : Int
  /-- `th`, which THRESH shows (R36). -/
  th : Int
  /-- `th_hold`, the threshold of the current candidate (R36). -/
  thHold : Int
  /-- `mid`, which PHASE.MID shows (R36). -/
  mid : Nat
  /-- `runlen`, which PHASE.RUN_LEN shows (R36). -/
  runlen : Nat
  /-- `D`, the de-whitened bytes of the current candidate (R36). -/
  dBytes : List Byte
  /-- `pos`, the scan cursor (R37). -/
  pos : Nat
  /-- `out`, the output FIFO (R38). -/
  out : List Beat
  /-- `reg_rdata`, the response of the last REG_READ (R118, R120, R153; log entry 5). -/
  rdata : Word
  /-- The MODEL's own: the beats the sink has taken since RESET, oldest first (R130, R155; log entry 6). -/
  popped : List Beat
  /-- The MODEL's own: each agent's pending transactions (R55, R118; log entry 2). -/
  inputs : Inputs
  /-- The MODEL's own: whose moves come next, as far as decided (R55; log entry 1). -/
  turns : List Turn
deriving DecidableEq, Repr

/-- No transaction pending. -/
def Inputs.none : Inputs := { host := [], source := [], sink := [] }

/-- The machine right after reset (R153), with the example parameters (log entry 4) and nothing offered to it. -/
def State.reset : State :=
  { params := Params.exampleValues
    st := .idle
    cfg0 := 0, cfg1 := 0, cfg2 := 0
    srcErr := false, cfgErr := 0, werr := false, cmdErr := false
    desc0 := 0, desc1 := 0
    pktCount := 0, dropLen := 0, dropCrc := 0, lastDrop := 0
    crcReg := 0xFFFF, whtReg := 0x1FF, codecOut := 0
    rcv := 0, smp := [], eos := false
    desc := Descriptor.zero
    thsum := 0, th := 0, thHold := 0, mid := 0, runlen := 0, dBytes := []
    pos := 0
    out := []
    rdata := 0
    popped := []
    inputs := Inputs.none
    turns := [] }

/-- What the fetch of the next move finds. -/
inductive Fetched where
  /-- Instruction `i` is next; `s` is the state with its record, if it has one, taken from its agent's queue. -/
  | run (i : Instr) (s : State)
  /-- Nothing happens in this move: no transaction is offered, or no internal step is enabled. -/
  | wait (s : State)
  /-- The record offered is not well formed. -/
  | reject (r : Refusal)
deriving DecidableEq, Repr

/-- The outcome of one instruction or one step. -/
abbrev Result := Host.Outcome State Fault Refusal

end Sys2Proof.Machine
end

