-- ==== Sys2Proof/Machine/Ops.lean ====
section
/-!
DEFINITION. The named operations over the sample window, the cursor, the output FIFO, the agents' pending transactions,
the session state, and the record an error event leaves (R132), which is all the SBS has of an exception entry (R142).
-/
namespace Sys2Proof.Machine

/-! ### The sample window (R34, R40, R41) -/

/-- The canonical form: indices strictly rising. -/
abbrev Memory.wf (w : Memory) : Prop := (w.map Prod.fst).Pairwise (· < ·)

/-- `Sample(k)`, if it is held. -/
def Memory.read : Memory → Nat → Option Sample
  | [], _ => none
  | c :: w, k => if c.1 = k then some c.2 else Memory.read w k

/-- `smp[k] <- x`, keeping the canonical form. -/
def Memory.write (k : Nat) (x : Sample) : Memory → Memory
  | [] => [(k, x)]
  | c :: w =>
    if k < c.1 then (k, x) :: c :: w
    else if k = c.1 then (k, x) :: w
    else c :: Memory.write k x w

/-- The samples with index `< pos` are discarded (R41, R114). -/
def Memory.discard (pos : Nat) (w : Memory) : Memory := w.filter (fun c => decide (pos ≤ c.1))

/-- `Sample(k)` where it is known to be held; the steps check that first (`firstAbsent`). -/
def Memory.sampleAt (w : Memory) (k : Nat) : Sample := (w.read k).getD 0

/-- The first of the indices `ks` at which no sample is held. -/
def firstAbsent (w : Memory) (ks : List Nat) : Option Nat := ks.find? (fun k => (w.read k).isNone)

/-- `occ = max(0, rcv - pos)`, the occupancy of the window (R42). -/
def State.occ (s : State) : Nat := s.rcv - s.pos

/-- One sample is accepted (R127): it is stored at index `rcv`, or discarded at once if `rcv < pos` (R41). -/
def State.acceptSample (x : Sample) (s : State) : State :=
  { s with smp := if s.pos ≤ s.rcv then Memory.write s.rcv x s.smp else s.smp, rcv := s.rcv + 1 }

/-- `pos <- p`, and the samples below it are discarded (R41, R107, R113). -/
def State.moveTo (p : Nat) (s : State) : State := { s with pos := p, smp := Memory.discard p s.smp }

/-! ### The state machine and the output FIFO (R20, R43) -/

/-- The running states SEARCH, PHASE, EXTRACT and PARSE (00_scope.md, glossary). -/
def St.running : St → Bool
  | .search | .phase | .extract | .parse => true
  | .idle | .done | .srcErr => false

/-- `OUT_FIFO_CAP - len(out)`, the room in the output FIFO (R43). -/
def State.room (s : State) : Nat := s.params.outFifoCap - s.out.length

/-- A whole packet's beats enter the FIFO and PKT_COUNT counts it (R113, R30). -/
def State.emit (beats : List Beat) (s : State) : State :=
  { s with out := s.out ++ beats, pktCount := s.pktCount + 1 }

/-! ### The session (R98, R123) -/

/-- The session state that START and ABORT both set to its reset value, with the two STATUS fields both clear (R98,
R123). -/
def State.clearSession (s : State) : State :=
  { s with
    rcv := 0, smp := [], eos := false, pos := 0
    out := [], dBytes := []
    thsum := 0, th := 0, thHold := 0, mid := 0, runlen := 0
    cfgErr := 0, srcErr := false }

/-! ### Error events (R132) -/

/-- LAST_DROP.CAUSE (R31). -/
def DropCause.code : DropCause → Word
  | .len => 1
  | .short => 2
  | .crc => 3

/-- LAST_DROP.LEN: the first data byte `D[0]` of the dropped frame, or 0 if there was none (R31). -/
def firstByte : List Byte → Byte
  | [] => 0
  | b :: _ => b

/-- What a drop writes: LAST_DROP, and DROP_LEN for a FrameError or DROP_CRC for a ChecksumError (R113, R134, R135). -/
def State.recordDrop (c : DropCause) (s : State) : State :=
  { s with
    dropLen := if c = .crc then s.dropLen else s.dropLen + 1
    dropCrc := if c = .crc then s.dropCrc + 1 else s.dropCrc
    lastDrop := c.code ||| ((firstByte s.dBytes).setWidth 32 <<< 8) }

/-- The record an error event leaves, written by the step that detects it (R132, R142), and what the event does to the
session: SourceError ends it and discards the candidate in flight (R129, R136). The skip after a drop is PARSE's own
(R113). The SBS has no vector, no saved context and no return (R142, R143). -/
def State.raise (e : ErrorEvent) (s : State) : State :=
  match e with
  | .configuration code => { s with cfgErr := code }
  | .frameDropped c => s.recordDrop c
  | .source => { s with st := .srcErr, srcErr := true, dBytes := [] }
  | .ignoredWrite => { s with werr := true }
  | .command => { s with cmdErr := true }

/-- What CLRERR clears (R124): the recovery for WERR and CMDERR (R143). -/
def State.clearErrors (s : State) : State := { s with werr := false, cmdErr := false, cfgErr := 0, lastDrop := 0 }

/-! ### Pending transactions (R118) -/

/-- The port a record's transaction belongs to (R118). A record of a reserved KIND has none in the spec; the model
offers it on the register port, where it is refused (log entry 2). -/
def recordPort (r : Record) : Port :=
  match (recordKind r).toNat with
  | 0x0 => .rst
  | 0x3 => .sample
  | 0x4 => .sample
  | 0x5 => .srcErr
  | 0x6 => .packet
  | _ => .reg

/-- The agent that issues a port's transactions: SAMPLE, EOS and SRC_ERR are one agent's (R7). For RESET, which R7 gives
to no agent, the register host (log entry 2). -/
def portAgent : Port → Agent
  | .rst | .reg => .host
  | .srcErr | .sample => .source
  | .packet => .sink

/-- The agent that issues a record's transaction. -/
def recordAgent (r : Record) : Agent := portAgent (recordPort r)

/-- The pending transactions of an agent, in the order it issued them (R55). -/
def Inputs.queue (q : Inputs) : Agent → List Record
  | .host => q.host
  | .source => q.source
  | .sink => q.sink

/-- The same pending transactions but for one agent. -/
def Inputs.setQueue (q : Inputs) (a : Agent) (rs : List Record) : Inputs :=
  match a with
  | .host => { q with host := rs }
  | .source => { q with source := rs }
  | .sink => { q with sink := rs }

/-- A record becomes the next one its agent offers. -/
def State.offerFirst (r : Record) (s : State) : State :=
  { s with inputs := s.inputs.setQueue (recordAgent r) (r :: s.inputs.queue (recordAgent r)) }

/-- A record is issued: its agent offers it after the ones it issued before (R55). -/
def State.offerLast (r : Record) (s : State) : State :=
  { s with inputs := s.inputs.setQueue (recordAgent r) (s.inputs.queue (recordAgent r) ++ [r]) }

/-- A transaction whose handshake does not hold: "The model keeps it pending and offers it again later: it is neither
dropped nor refused" (R118; log entry 3). -/
def State.keepPending (i : Instr) (s : State) : State :=
  match encode i with
  | some r => s.offerFirst r
  | none => s

end Sys2Proof.Machine
end

