-- ==== Sys2Proof/Machine/Operands.lean ====
section
/-!
DEFINITION. The operand forms: register offsets (R19, R44, R45), the fields of CFG0 to CFG2 (R23 to R25, R66 to R68),
the sample operand (R63, R69), and the sample indices the synchronizer reads (R103, R105).
-/
namespace Sys2Proof.Machine

/-! ### Register offsets -/

/-- The register at a byte offset (R19); `none` for the reserved offsets, the misaligned ones among them (R45). -/
def regAt (addr : BitVec 8) : Option Reg :=
  match addr.toNat with
  | 0x00 => some .ctrl
  | 0x04 => some .status
  | 0x08 => some .cfg0
  | 0x0C => some .cfg1
  | 0x10 => some .cfg2
  | 0x14 => some .desc0
  | 0x18 => some .desc1
  | 0x1C => some .pos
  | 0x20 => some .thsum
  | 0x24 => some .thresh
  | 0x28 => some .phase
  | 0x2C => some .samplesIn
  | 0x30 => some .outLevel
  | 0x34 => some .pktCount
  | 0x38 => some .dropLen
  | 0x3C => some .dropCrc
  | 0x40 => some .lastDrop
  | 0x44 => some .crcReg
  | 0x48 => some .whtReg
  | 0x4C => some .codecOut
  | 0x50 => some .param0
  | 0x54 => some .param1
  | 0x58 => some .param2
  | _ => none

/-- The offset of a register (R19). -/
def regOffset : Reg → BitVec 8
  | .ctrl => 0x00
  | .status => 0x04
  | .cfg0 => 0x08
  | .cfg1 => 0x0C
  | .cfg2 => 0x10
  | .desc0 => 0x14
  | .desc1 => 0x18
  | .pos => 0x1C
  | .thsum => 0x20
  | .thresh => 0x24
  | .phase => 0x28
  | .samplesIn => 0x2C
  | .outLevel => 0x30
  | .pktCount => 0x34
  | .dropLen => 0x38
  | .dropCrc => 0x3C
  | .lastDrop => 0x40
  | .crcReg => 0x44
  | .whtReg => 0x48
  | .codecOut => 0x4C
  | .param0 => 0x50
  | .param1 => 0x54
  | .param2 => 0x58

/-- The bits of CFG0 that are fields; the others are reserved and dropped (R23, R119). -/
def cfg0Mask : Word := 0x001F3377

/-- The bits of CFG2 that are fields (R25, R119). -/
def cfg2Mask : Word := 0x0000FFFF

/-! ### Configuration fields, as unsigned numbers (R68) -/

/-- NUM_PREAMBLE, CFG0[2:0] (R23). -/
def numPreamble (cfg0 : Word) : Nat := (cfg0.extractLsb' 0 3).toNat

/-- SYNC_MODE, CFG0[6:4] (R23). -/
def syncMode (cfg0 : Word) : Nat := (cfg0.extractLsb' 4 3).toNat

/-- ADR_CHK, CFG0[9:8] (R23). -/
def adrChk (cfg0 : Word) : Nat := (cfg0.extractLsb' 8 2).toNat

/-- LENGTH_CONFIG, CFG0[13:12] (R23). -/
def lengthConfig (cfg0 : Word) : Nat := (cfg0.extractLsb' 12 2).toNat

/-- WHITE_DATA, CFG0[16] (R23). -/
def whiteData (cfg0 : Word) : Bool := cfg0.getLsbD 16

/-- CRC_EN, CFG0[17] (R23). -/
def crcEn (cfg0 : Word) : Bool := cfg0.getLsbD 17

/-- CC2400_EN, CFG0[18] (R23). -/
def cc2400En (cfg0 : Word) : Bool := cfg0.getLsbD 18

/-- MANCHESTER_EN, CFG0[19] (R23). -/
def manchesterEn (cfg0 : Word) : Bool := cfg0.getLsbD 19

/-- FEC_EN, CFG0[20] (R23). -/
def fecEn (cfg0 : Word) : Bool := cfg0.getLsbD 20

/-- SYNC0, CFG1[7:0], the second sync byte (R24). -/
def sync0 (cfg1 : Word) : Byte := cfg1.extractLsb' 0 8

/-- SYNC1, CFG1[15:8], the first sync byte (R24). -/
def sync1 (cfg1 : Word) : Byte := cfg1.extractLsb' 8 8

/-- PACKET_LENGTH, CFG1[23:16], the maximum payload length (R24). -/
def packetLength (cfg1 : Word) : Nat := (cfg1.extractLsb' 16 8).toNat

/-- DEVICE_ADDR, CFG1[31:24]: stored and readable, no rule reads it (R24). -/
def deviceAddr (cfg1 : Word) : Byte := cfg1.extractLsb' 24 8

/-- STRIDE, CFG2[15:0] (R25). -/
def strideField (cfg2 : Word) : Nat := (cfg2.extractLsb' 0 16).toNat

/-- `Npre = {2,3,4,6,8,12,16,24}[NUM_PREAMBLE]` (R66). -/
def preambleBytes (index : Nat) : Nat :=
  match index with
  | 0 => 2
  | 1 => 3
  | 2 => 4
  | 3 => 6
  | 4 => 8
  | 5 => 12
  | 6 => 16
  | _ => 24

/-- `rep = {0,1,1,2}[SYNC_MODE mod 4]` (R67). The qualifiers of the sync modes are not reproduced (R99). -/
def syncRepeats (mode : Nat) : Nat :=
  match mode % 4 with
  | 0 => 0
  | 1 => 1
  | 2 => 1
  | _ => 2

/-! ### The sample operand -/

/-- The sample a SAMPLE record's DATA carries: `DATA = sext_32(DATA[SAMPLE_W-1:0])`, read as a signed integer (R63,
R69); `none` where DATA is not that sign extension. -/
def sampleOperand (p : Params) (sdata : Word) : Option Sample :=
  if (sdata.setWidth p.sampleW).signExtend 32 = sdata then some sdata.toInt else none

/-- The range of a sample (R69). -/
def sampleInRange (w : Nat) (x : Sample) : Bool :=
  decide (-(2 ^ (w - 1) : Int) ≤ x) && decide (x < (2 ^ (w - 1) : Int))

/-! ### The indices the synchronizer reads -/

/-- `p, p + 1, ..., p + T - 1`, the threshold window at `p` (R103). -/
def windowIndices (p t : Nat) : List Nat := List.range' p t

/-- `b, b + S, ..., b + (n-1)*S`, one sample per bit of the pattern (R105). -/
def strideIndices (b stride n : Nat) : List Nat := (List.range n).map (fun j => b + j * stride)

end Sys2Proof.Machine
end

