-- ==== Sys2Proof/Machine/Flags.lean ====
section
/-!
DEFINITION. The words the read-only registers show: STATUS (R22), DESC0 and DESC1 (R26), POS, THSUM and THRESH (R27),
PHASE (R28), SAMPLES_IN and OUT_LEVEL (R29), PARAM0 to PARAM2 (R33), and a read of any register (R120).
-/
namespace Sys2Proof.Machine

/-- The code of a state (R20). -/
def St.code : St → Nat
  | .idle => 0
  | .search => 1
  | .phase => 2
  | .extract => 3
  | .parse => 4
  | .done => 5
  | .srcErr => 6

/-- `bool(c)` of R14 as a register word. -/
def flagWord (c : Bool) : Word := if c then 1 else 0

/-- STATUS.OUT_VALID and `p_valid`: the output FIFO holds at least one beat (R22, R118). -/
def State.outValid (s : State) : Bool := !s.out.isEmpty

/-- STATUS (R22, R120). -/
def State.statusWord (s : State) : Word :=
  BitVec.ofNat 32 s.st.code ||| (flagWord s.eos <<< 3) ||| (flagWord s.srcErr <<< 4) ||| (flagWord s.outValid <<< 5)
    ||| (s.cfgErr.setWidth 32 <<< 8) ||| (flagWord s.werr <<< 12) ||| (flagWord s.cmdErr <<< 13)

/-- `Npre | (Nsync << 8) | (base_size << 16)` (R26, R98). -/
def Descriptor.word0 (d : Descriptor) : Word :=
  BitVec.ofNat 32 d.npre ||| (BitVec.ofNat 32 d.nsync <<< 8) ||| (BitVec.ofNat 32 d.baseSize <<< 16)

/-- `n | (MFB << 16)` (R26, R98). -/
def Descriptor.word1 (d : Descriptor) : Word := BitVec.ofNat 32 d.n ||| (BitVec.ofNat 32 d.mfb <<< 16)

/-- PHASE: `mid | runlen << 16` (R28, R120). -/
def State.phaseWord (s : State) : Word := BitVec.ofNat 32 s.mid ||| (BitVec.ofNat 32 s.runlen <<< 16)

/-- PARAM0: `SAMPLE_W | MAX_STRIDE << 16` (R33, R120). -/
def paramWord0 (p : Params) : Word := BitVec.ofNat 32 p.sampleW ||| (BitVec.ofNat 32 p.maxStride <<< 16)

/-- The value of a register (R120). CTRL reads 0 (R21); an unbounded natural or integer shows its low 32 bits, in two's
complement (R12, R27, R29). -/
def State.readReg (s : State) : Reg → Word
  | .ctrl => 0
  | .status => s.statusWord
  | .cfg0 => s.cfg0
  | .cfg1 => s.cfg1
  | .cfg2 => s.cfg2
  | .desc0 => s.desc0
  | .desc1 => s.desc1
  | .pos => BitVec.ofNat 32 s.pos
  | .thsum => BitVec.ofInt 32 s.thsum
  | .thresh => BitVec.ofInt 32 s.th
  | .phase => s.phaseWord
  | .samplesIn => BitVec.ofNat 32 s.rcv
  | .outLevel => BitVec.ofNat 32 s.out.length
  | .pktCount => s.pktCount
  | .dropLen => s.dropLen
  | .dropCrc => s.dropCrc
  | .lastDrop => s.lastDrop
  | .crcReg => s.crcReg.setWidth 32
  | .whtReg => s.whtReg.setWidth 32
  | .codecOut => s.codecOut.setWidth 32
  | .param0 => paramWord0 s.params
  | .param1 => BitVec.ofNat 32 s.params.bufCap
  | .param2 => BitVec.ofNat 32 s.params.outFifoCap

/-- `rdata` of a REG_READ at an offset (R120): 0 where the offset is reserved or misaligned (R45). -/
def State.readAddr (s : State) (addr : BitVec 8) : Word :=
  match regAt addr with
  | some r => s.readReg r
  | none => 0

/-- The little-endian byte view of a register word that a bus bridge may give: byte `addr + j` is bits `[8j+7:8j]`
(R49). No transaction of the block uses it. -/
def byteLane (w : Word) (j : Nat) : Byte := w.extractLsb' (8 * j) 8

/-- The response of a POP: data in bits [7:0], sop in bit 8, eop in bit 9 (R62). -/
def Beat.response (b : Beat) : Word :=
  b.data.setWidth 32 ||| (flagWord b.sop <<< 8) ||| (flagWord b.eop <<< 9)

end Sys2Proof.Machine
end

