-- ==== Sys2Proof/Machine/Bits.lean ====
section
/-!
DEFINITION. Bit and byte sequences (R15), most significant bit first as on air (R47).
-/
namespace Sys2Proof.Machine

/-- The bits of one byte, bit 7 first (R15, R47). -/
def byteBits (b : Byte) : List Bool :=
  [b.getLsbD 7, b.getLsbD 6, b.getLsbD 5, b.getLsbD 4, b.getLsbD 3, b.getLsbD 2, b.getLsbD 1, b.getLsbD 0]

/-- `bits_msb(bs)` (R15). -/
def bitsMsb (bs : List Byte) : List Bool := bs.flatMap byteBits

/-- `pack_msb(e)`: a byte from 8 bits, `e[0]` as bit 7 (R15). -/
def packMsb (e : List Bool) : Byte := e.foldl (fun v b => v.shiftConcat b) 0

/-- `pack_msb(e[8k : 8k+8])` for every whole group of 8 bits; a trailing partial byte is dropped (R111). -/
def packBytes : List Bool → List Byte
  | b7 :: b6 :: b5 :: b4 :: b3 :: b2 :: b1 :: b0 :: rest => packMsb [b7, b6, b5, b4, b3, b2, b1, b0] :: packBytes rest
  | _ => []

/-- `repeat(x, k)`: k copies of a list concatenated (R15). -/
def repeatList (x : List Byte) : Nat → List Byte
  | 0 => []
  | k + 1 => x ++ repeatList x k

end Sys2Proof.Machine
end

