-- ==== Sys2Proof/Machine/Codec.lean ====
section
/-!
DEFINITION. The Bit-Sequence Codec (40_codec.md): the whitening LFSR and the CRC-16 (R76 to R84), and the six codec
commands on the test registers (R85 to R91).
-/
namespace Sys2Proof.Machine

/-! ### Functions -/

/-- `lfsr_next(v)` (R76), on a width that holds every intermediate shift; only the final mask truncates. -/
def lfsrNext (v : BitVec 9) : BitVec 9 :=
  let wide : BitVec 14 := v.setWidth 14
  let top := wide &&& 0x1E0
  (top ^^^ (top >>> 4) ^^^ (top >>> 8) ^^^ (wide <<< 1) ^^^ (wide <<< 5)).setWidth 9

/-- The seed of the whitening sequence (R77). -/
def lfsrSeed : BitVec 9 := 0x1FF

/-- `v_k`: `v_0` is the seed, `v_(k+1) = lfsr_next(v_k)` (R77). -/
def lfsrState : Nat → BitVec 9
  | 0 => lfsrSeed
  | k + 1 => lfsrNext (lfsrState k)

/-- `v & 0xFF`, the byte a state emits before the update (R77). -/
def whiteByte (v : BitVec 9) : Byte := v.setWidth 8

/-- `W[k]`, the whitening sequence (R77). -/
def whitening (k : Nat) : Byte := whiteByte (lfsrState k)

/-- XOR each byte with the next byte of the whitening sequence from state `v` on (R77, R78). -/
def whitenFrom (v : BitVec 9) : List Byte → List Byte
  | [] => []
  | b :: bs => (b ^^^ whiteByte v) :: whitenFrom (lfsrNext v) bs

/-- `dewhiten(x)`, `y[k] = x[k] ^ W[k]`, with a fresh sequence (R78, R112). -/
def dewhiten (bs : List Byte) : List Byte := whitenFrom lfsrSeed bs

/-- `crc_bit(c, m)` (R79). -/
def crcBit (c : BitVec 16) (m : Bool) : BitVec 16 :=
  if c.getLsbD 15 != m then (c <<< 1) ^^^ 0x8005 else c <<< 1

/-- `crc_byte(c, b)`: the 8 bits of `b`, MSB first (R80). -/
def crcByte (c : BitVec 16) (b : Byte) : BitVec 16 := (byteBits b).foldl crcBit c

/-- The register before the first byte (R81). -/
def crcSeed : BitVec 16 := 0xFFFF

/-- `crc16(bs)` (R81). -/
def crc16 (bs : List Byte) : BitVec 16 := bs.foldl crcByte crcSeed

/-- The two bytes of a CRC, high byte first (R48, R84). -/
def crcBytes (c : BitVec 16) : List Byte := [c.extractLsb' 8 8, c.extractLsb' 0 8]

/-! ### Codec commands (R85 to R90): the test registers only (R32, R91) -/

/-- CRC_INIT (R85). -/
def execCrcInit (s : State) : Result := .next { s with crcReg := crcSeed }

/-- CRC_BYTE (R86). -/
def execCrcByte (arg : Byte) (s : State) : Result := .next { s with crcReg := crcByte s.crcReg arg }

/-- CRC_TEST (R87). -/
def execCrcTest (s : State) : Result := .next { s with codecOut := if s.crcReg = 0 then 1 else 0 }

/-- WHT_INIT (R88). -/
def execWhtInit (s : State) : Result := .next { s with whtReg := lfsrSeed }

/-- WHT_STEP (R89). -/
def execWhtStep (s : State) : Result := .next { s with whtReg := lfsrNext s.whtReg }

/-- WHT_XOR: emit before the update (R90). -/
def execWhtXor (arg : Byte) (s : State) : Result :=
  .next { s with codecOut := arg ^^^ whiteByte s.whtReg, whtReg := lfsrNext s.whtReg }

end Sys2Proof.Machine
end

