-- ==== Sys2Proof/Machine/Builder.lean ====
section
/-!
DEFINITION. The Frame Descriptor Builder (41_descriptor.md): derivation (R93 to R97), validation (R92), and the START
command (R98).
-/
namespace Sys2Proof.Machine

/-- The preamble, `repeat([0xAA], Npre)` (R93). -/
def preamble (npre : Nat) : List Byte := repeatList [0xAA] npre

/-- The sync word, `repeat([SYNC1, SYNC0], rep)` (R94). -/
def syncWord (cfg1 : Word) (rep : Nat) : List Byte := repeatList [sync1 cfg1, sync0 cfg1] rep

/-- `pre ++ sync`, the bytes the pattern expands (R95). -/
def patternBytes (cfg0 cfg1 : Word) : List Byte :=
  preamble (preambleBytes (numPreamble cfg0)) ++ syncWord cfg1 (syncRepeats (syncMode cfg0))

/-- `n = 8 * (Npre + Nsync)` (R95). -/
def patternBits (cfg0 : Word) : Nat :=
  8 * (preambleBytes (numPreamble cfg0) + 2 * syncRepeats (syncMode cfg0))

/-- `MFB = n + (2 + 255 + 2) * 8` (R96). -/
def maxFrameBits (cfg0 : Word) : Nat := patternBits cfg0 + (2 + 255 + 2) * 8

/-- The descriptor of a configuration (R93 to R97). -/
def buildDescriptor (cfg0 cfg1 cfg2 : Word) : Descriptor :=
  { npre := preambleBytes (numPreamble cfg0)
    nsync := 2 * syncRepeats (syncMode cfg0)
    pattern := bitsMsb (patternBytes cfg0 cfg1)
    n := patternBits cfg0
    stride := strideField cfg2
    thsize := 8 * preambleBytes (numPreamble cfg0) * strideField cfg2
    mfb := maxFrameBits cfg0
    maxsize := maxFrameBits cfg0 * strideField cfg2
    baseSize := preambleBytes (numPreamble cfg0) + 2 * syncRepeats (syncMode cfg0) + 1 + (if crcEn cfg0 then 2 else 0)
    crcEn := crcEn cfg0
    white := whiteData cfg0
    pktlen := packetLength cfg1 }

/-- The code of the first failing check of R92, in its order (R139); 0 where none fails. -/
def configError (p : Params) (cfg0 cfg2 : Word) : BitVec 4 :=
  if adrChk cfg0 ≠ 0 then 1
  else if lengthConfig cfg0 ≠ 1 then 2
  else if cc2400En cfg0 then 3
  else if manchesterEn cfg0 then 4
  else if fecEn cfg0 then 5
  else if syncRepeats (syncMode cfg0) = 0 then 6
  else if strideField cfg2 = 0 then 7
  else if p.maxStride < strideField cfg2 then 8
  else if p.bufCap < maxFrameBits cfg0 * strideField cfg2 then 9
  else 0

/-- A session opens: the descriptor is latched and shown, the session state is cleared, STATE becomes SEARCH (R98). -/
def State.openSession (s : State) : State :=
  { s.clearSession with
    desc := buildDescriptor s.cfg0 s.cfg1 s.cfg2
    desc0 := Descriptor.word0 (buildDescriptor s.cfg0 s.cfg1 s.cfg2)
    desc1 := Descriptor.word1 (buildDescriptor s.cfg0 s.cfg1 s.cfg2)
    st := .search }

/-- START (R98, R139): outside IDLE a command error; in IDLE a configuration error or a new session. -/
def execStart (s : State) : Result :=
  if s.st ≠ .idle then .next (s.raise .command)
  else if configError s.params s.cfg0 s.cfg2 ≠ 0 then
    .next (s.raise (.configuration (configError s.params s.cfg0 s.cfg2)))
  else .next s.openSession

end Sys2Proof.Machine
end

