-- ==== Sys2Proof/Machine/Parser.lean ====
section
/-!
DEFINITION. The Packet Parser (42_parser.md), a pure function of the candidate's bytes and two descriptor fields, and the
beats of a packet (R70).
-/
namespace Sys2Proof.Machine

/-- `need = L + 1 + (2 if crc_en else 0)` (R100). -/
def frameNeed (crcOn : Bool) (len : Nat) : Nat := len + 1 + (if crcOn then 2 else 0)

/-- `parse(D)` (R100): LEN, then SHORT, then CRC (R101). -/
def parseFrame (pktlen : Nat) (crcOn : Bool) : List Byte → Parsed
  | [] => .drop .short
  | b :: rest =>
    if pktlen < b.toNat then .drop .len
    else if (b :: rest).length < frameNeed crcOn b.toNat then .drop .short
    else if crcOn && crc16 ((b :: rest).take (frameNeed crcOn b.toNat)) != 0 then .drop .crc
    else .packet { address := none, payload := rest.take b.toNat }

/-- Beats 1 to L of a packet: the payload, `eop` on the last (R70). -/
def payloadBeats : List Byte → List Beat
  | [] => []
  | [b] => [{ data := b, sop := false, eop := true }]
  | b :: bs => { data := b, sop := false, eop := false } :: payloadBeats bs

/-- `beats(L, p)`: the length beat with `sop`, then the payload (R70, R50). -/
def packetBeats (p : Packet) : List Beat :=
  { data := BitVec.ofNat 8 p.payload.length, sop := true, eop := p.payload.isEmpty } :: payloadBeats p.payload

end Sys2Proof.Machine
end

