-- ==== Sys2Proof/Machine/Synchronizer.lean ====
section
/-!
DEFINITION. The Streaming Synchronizer (43_synchronizer.md): the functions the steps share (R103 to R106, R110) and the
five internal steps SCAN, FINISH, PHASE, EXTRACT and PARSE (R107 to R113). A step whose guard does not hold leaves the
state as it is: it holds, and is neither a fault nor stuck (R16, R138).
-/
namespace Sys2Proof.Machine

/-! ### Shared functions -/

/-- `thsum(p)`, the exact sum of the `T` samples from `p` on (R103, R12). -/
def thresholdSum (w : Memory) (p t : Nat) : Int := ((windowIndices p t).map (Memory.sampleAt w)).sum

/-- `bit(k, t) = bool(Sample(k) > t)`, strict and signed (R104). -/
def sampleBit (w : Memory) (t : Int) (k : Nat) : Bool := decide (t < Memory.sampleAt w k)

/-- `match(b, t)`: the sample at `b + j*S` agrees with `P[j]` for every bit of the pattern (R105). -/
def patternMatch (w : Memory) (stride : Nat) (t : Int) (b : Nat) : List Bool → Bool
  | [] => true
  | p :: ps => (sampleBit w t b == p) && patternMatch w stride t (b + stride) ps

/-- The maximal runs of true offsets, as (start, length), lowest start first; `len` true offsets end just before `i`
(R110). -/
def runsFrom (i len : Nat) : List Bool → List (Nat × Nat)
  | [] => if len = 0 then [] else [(i - len, len)]
  | true :: m => runsFrom (i + 1) (len + 1) m
  | false :: m => if len = 0 then runsFrom (i + 1) 0 m else (i - len, len) :: runsFrom (i + 1) 0 m

/-- The longest run, and among runs of equal length the one with the lowest start (R110). -/
def longestRun : List (Nat × Nat) → Option (Nat × Nat)
  | [] => none
  | r :: rs =>
    match longestRun rs with
    | none => some r
    | some q => if r.2 < q.2 then some q else some r

/-- The chosen run `[a, b]` of the sweep, as (a, b) (R110). Runs do not wrap. -/
def chosenRun (m : List Bool) : Option (Nat × Nat) :=
  match longestRun (runsFrom 0 0 m) with
  | none => none
  | some (a, len) => some (a, a + len - 1)

/-- `m[i] = match(pos + i, th_hold)` for every offset `i` below the stride (R109). -/
def phaseSweep (s : State) : List Bool :=
  (List.range s.desc.stride).map (fun i => patternMatch s.smp s.desc.stride s.thHold (s.pos + i) s.desc.pattern)

/-- The bit positions EXTRACT samples: `p, p + S, ...`, at most `fuel` of them, all below `limit` (R111). -/
def extractIndices (p stride limit : Nat) : Nat → List Nat
  | 0 => []
  | fuel + 1 => if p < limit then p :: extractIndices (p + stride) stride limit fuel else []

/-- `A = min(rcv, pos + maxsize)`, the end of the look-ahead (R111). -/
def State.lookAheadEnd (s : State) : Nat := min s.rcv (s.pos + s.desc.maxsize)

/-- The bit positions of the candidate (R111). -/
def candidateIndices (s : State) : List Nat :=
  extractIndices (s.pos + s.mid) s.desc.stride s.lookAheadEnd s.desc.mfb

/-- The bytes `B` as sampled, preamble and sync included (R111). -/
def candidateBytes (s : State) : List Byte := packBytes ((candidateIndices s).map (sampleBit s.smp s.thHold))

/-- `D`: the bytes after the sync word, de-whitened where `white` is set (R111, R112). -/
def candidateData (s : State) : List Byte :=
  let d := (candidateBytes s).drop (s.desc.n / 8)
  if s.desc.white then dewhiten d else d

/-! ### Guards -/

/-- One full pattern window is held: `rcv >= pos + n*S` (R107). -/
def State.patternHeld (s : State) : Bool := decide (s.pos + s.desc.n * s.desc.stride ≤ s.rcv)

/-- The look-ahead is held, or the stream has ended: `rcv >= pos + maxsize` or `eos` (R109). -/
def State.lookAheadHeld (s : State) : Bool := decide (s.pos + s.desc.maxsize ≤ s.rcv) || s.eos

/-- The parse of the current candidate (R100, R113). -/
def State.parsed (s : State) : Parsed := parseFrame s.desc.pktlen s.desc.crcEn s.dBytes

/-- The guard of SCAN (R107). -/
def State.scanEnabled (s : State) : Bool := s.st == .search && s.patternHeld

/-- The guard of FINISH (R108). -/
def State.finishEnabled (s : State) : Bool := s.st == .search && s.eos && !s.patternHeld

/-- The guard of PHASE (R109). -/
def State.phaseEnabled (s : State) : Bool := s.st == .phase && s.lookAheadHeld

/-- The guard of EXTRACT: no other condition than its state (R111). -/
def State.extractEnabled (s : State) : Bool := s.st == .extract

/-- The guard of PARSE: a packet also needs FIFO room for its `1 + L` beats; a drop never holds (R113). -/
def State.parseEnabled (s : State) : Bool :=
  s.st == .parse &&
    match s.parsed with
    | .packet p => decide (1 + p.payload.length ≤ s.room)
    | .drop _ => true

/-- The internal step that is enabled now; at most one is, and in IDLE, DONE and SRCERR none (R107 to R113). -/
def State.blockInstr (s : State) : Option Instr :=
  if s.scanEnabled then some .scan
  else if s.finishEnabled then some .finish
  else if s.phaseEnabled then some .phase
  else if s.extractEnabled then some .extract
  else if s.parseEnabled then some .parse
  else none

/-! ### SCAN (R107) -/

/-- Every index SCAN reads: the threshold window and the pattern's samples. -/
def scanReads (s : State) : List Nat :=
  windowIndices s.pos s.desc.thsize ++ strideIndices s.pos s.desc.stride s.desc.n

/-- THSUM and THRESH after a SCAN: the sum at `pos` and its floor mean (R107). -/
def State.withThreshold (s : State) : State :=
  { s with
    thsum := thresholdSum s.smp s.pos s.desc.thsize
    th := floorDiv (thresholdSum s.smp s.pos s.desc.thsize) s.desc.thsize }

/-- The pattern test of SCAN, once the samples are known to be held: a match holds the threshold and goes to PHASE, a
mismatch moves by one sample (R107). -/
def State.scanTest (s : State) : State :=
  if patternMatch s.smp s.desc.stride s.withThreshold.th s.pos s.desc.pattern then
    { s.withThreshold with thHold := s.withThreshold.th, st := .phase }
  else s.withThreshold.moveTo (s.pos + 1)

/-- SCAN (R107). -/
def execScan (s : State) : Result :=
  if s.scanEnabled then
    if s.desc.thsize = 0 then .fault .emptyThresholdWindow
    else
      match firstAbsent s.smp (scanReads s) with
      | some k => .fault (.sampleAbsent k)
      | none => .next s.scanTest
  else .next s

/-! ### FINISH (R108) -/

/-- FINISH (R108). -/
def execFinish (s : State) : Result :=
  if s.finishEnabled then .next { s with st := .done } else .next s

/-! ### PHASE (R109) -/

/-- Every index the sweep reads. -/
def phaseReads (s : State) : List Nat :=
  (List.range s.desc.stride).flatMap (fun i => strideIndices (s.pos + i) s.desc.stride s.desc.n)

/-- PHASE (R109): `mid = fdiv(a + b, 2)` and `runlen = b - a + 1` of the chosen run. -/
def execPhase (s : State) : Result :=
  if s.phaseEnabled then
    match firstAbsent s.smp (phaseReads s) with
    | some k => .fault (.sampleAbsent k)
    | none =>
      match chosenRun (phaseSweep s) with
      | none => .fault .noMatchingOffset
      | some (a, b) => .next { s with mid := (a + b) / 2, runlen := b - a + 1, st := .extract }
  else .next s

/-! ### EXTRACT (R111, R112) -/

/-- EXTRACT (R111): always enabled in its state. -/
def execExtract (s : State) : Result :=
  if s.extractEnabled then
    match firstAbsent s.smp (candidateIndices s) with
    | some k => .fault (.sampleAbsent k)
    | none => .next { s with dBytes := candidateData s, st := .parse }
  else .next s

/-! ### PARSE (R113) -/

/-- `pos <- pos + skip_bits * S`, counted from the candidate's start, and back to SEARCH (R113). -/
def State.skipFrame (skipBits : Nat) (s : State) : State :=
  { s.moveTo (s.pos + skipBits * s.desc.stride) with dBytes := [], st := .search }

/-- A packet is emitted whole and the cursor moves past its frame (R113). -/
def State.emitPacket (p : Packet) (s : State) : State :=
  (s.emit (packetBeats p)).skipFrame ((s.desc.baseSize + p.payload.length) * 8)

/-- A bad frame is recorded and dropped, and the cursor moves by `base_size * 8` bits (R113). -/
def State.dropFrame (c : DropCause) (s : State) : State :=
  (s.raise (.frameDropped c)).skipFrame (s.desc.baseSize * 8)

/-- PARSE (R113). -/
def execParse (s : State) : Result :=
  if s.parseEnabled then
    match s.parsed with
    | .packet p => .next (s.emitPacket p)
    | .drop c => .next (s.dropFrame c)
  else .next s

end Sys2Proof.Machine
end

