-- ==== Sys2Proof/Machine/Commands.lean ====
section
/-!
DEFINITION. The session and report commands NOP, ABORT, CLRERR, CLRCNT, the reserved codes (R122 to R126), RESET (R152)
and the refused record kinds (R63).
-/
namespace Sys2Proof.Machine

/-- NOP (R122): nothing changes. -/
def execNop (s : State) : Result := .next s

/-- The session ends: session state, descriptor and its registers cleared, back to IDLE (R123). -/
def State.closeSession (s : State) : State :=
  { s.clearSession with desc := Descriptor.zero, desc0 := 0, desc1 := 0, st := .idle }

/-- ABORT (R123): accepted in every state. -/
def execAbort (s : State) : Result := .next s.closeSession

/-- CLRERR (R124). -/
def execClrerr (s : State) : Result := .next s.clearErrors

/-- CLRCNT (R125). -/
def execClrcnt (s : State) : Result := .next { s with pktCount := 0, dropLen := 0, dropCrc := 0 }

/-- Reserved code 0x5: a command error and nothing else (R126). -/
def execReserved5 (s : State) : Result := .next (s.raise .command)

/-- Reserved code 0x6 (R126). -/
def execReserved6 (s : State) : Result := .next (s.raise .command)

/-- Reserved code 0x7 (R126). -/
def execReserved7 (s : State) : Result := .next (s.raise .command)

/-- Reserved code 0xE (R126). -/
def execReservedE (s : State) : Result := .next (s.raise .command)

/-- Reserved code 0xF (R126). -/
def execReservedF (s : State) : Result := .next (s.raise .command)

/-- Every piece of the block's state at its reset value (R153). The parameters stay ("not changed by reset"), and so does
what the other agents have pending; the record of beats taken starts anew, since a run starts at RESET (R155; log
entry 6). -/
def State.resetBlock (s : State) : State :=
  { State.reset with params := s.params, inputs := s.inputs, turns := s.turns }

/-- RESET (R152): one atomic transaction, accepted in every state. -/
def execReset (s : State) : Result := .next s.resetBlock

/-- A record of KIND 0x7 to 0xF: "A model refuses a record that is not well formed: it gives it no meaning" (R63). Its
other 44 bits and the state play no part. -/
def execReservedKind (kind : BitVec 4) (_rest : BitVec 44) (_s : State) : Result := .refused (.reservedKind kind)

end Sys2Proof.Machine
end

