-- ==== Sys2Proof/Machine/Ports.lean ====
section
/-!
DEFINITION. The register transactions (R119 to R121) and the stream transactions (R127 to R130), with the handshakes of
the ports (R118).
-/
namespace Sys2Proof.Machine

/-! ### Handshakes -/

/-- `s_ready` for a SAMPLE: running, no end-of-stream yet, and room in the window (R118, R127). -/
def State.sampleReady (s : State) : Bool := s.st.running && !s.eos && decide (s.occ < s.params.bufCap)

/-- `s_ready` for an EOS: no occupancy condition (R118, R128). -/
def State.eosReady (s : State) : Bool := s.st.running && !s.eos

/-- `p_valid` (R118). -/
def State.popReady (s : State) : Bool := s.outValid

/-- `p_data`, `p_sop` and `p_eop`: the head beat of the FIFO (R118). -/
def State.packetPort (s : State) : Option Beat := s.out.head?

/-! ### Register transactions -/

/-- A write of `wdata` to CTRL executes one command (R121). -/
def execCommand (wdata : Word) (s : State) : Result :=
  match (commandCode wdata).toNat with
  | 0x0 => execNop s
  | 0x1 => execStart s
  | 0x2 => execAbort s
  | 0x3 => execClrerr s
  | 0x4 => execClrcnt s
  | 0x5 => execReserved5 s
  | 0x6 => execReserved6 s
  | 0x7 => execReserved7 s
  | 0x8 => execCrcInit s
  | 0x9 => execCrcByte (commandArg wdata) s
  | 0xA => execWhtInit s
  | 0xB => execWhtStep s
  | 0xC => execWhtXor (commandArg wdata) s
  | 0xD => execCrcTest s
  | 0xE => execReservedE s
  | _ => execReservedF s

/-- A write to one of CFG0 to CFG2: ignored with WERR outside IDLE (R46), else the fields are stored (R119). -/
def State.writeConfig (s s' : State) : State := if s.st ≠ .idle then s.raise .ignoredWrite else s'

/-- REG_WRITE (R119). A write to a reserved, misaligned or read-only offset is ignored and sets WERR (R45, R137). -/
def execWr (addr : BitVec 8) (wdata : Word) (s : State) : Result :=
  match regAt addr with
  | none => .next (s.raise .ignoredWrite)
  | some .ctrl => execCommand wdata s
  | some .cfg0 => .next (s.writeConfig { s with cfg0 := wdata &&& cfg0Mask })
  | some .cfg1 => .next (s.writeConfig { s with cfg1 := wdata })
  | some .cfg2 => .next (s.writeConfig { s with cfg2 := wdata &&& cfg2Mask })
  | some .crcReg => .next { s with crcReg := wdata.setWidth 16 }
  | some .whtReg => .next { s with whtReg := wdata.setWidth 9 }
  | some .status => .next (s.raise .ignoredWrite)
  | some .desc0 => .next (s.raise .ignoredWrite)
  | some .desc1 => .next (s.raise .ignoredWrite)
  | some .pos => .next (s.raise .ignoredWrite)
  | some .thsum => .next (s.raise .ignoredWrite)
  | some .thresh => .next (s.raise .ignoredWrite)
  | some .phase => .next (s.raise .ignoredWrite)
  | some .samplesIn => .next (s.raise .ignoredWrite)
  | some .outLevel => .next (s.raise .ignoredWrite)
  | some .pktCount => .next (s.raise .ignoredWrite)
  | some .dropLen => .next (s.raise .ignoredWrite)
  | some .dropCrc => .next (s.raise .ignoredWrite)
  | some .lastDrop => .next (s.raise .ignoredWrite)
  | some .codecOut => .next (s.raise .ignoredWrite)
  | some .param0 => .next (s.raise .ignoredWrite)
  | some .param1 => .next (s.raise .ignoredWrite)
  | some .param2 => .next (s.raise .ignoredWrite)

/-- REG_READ (R120): the response is `reg_rdata`; a read has no other effect (R54). -/
def execRd (addr : BitVec 8) (s : State) : Result := .next { s with rdata := s.readAddr addr }

/-! ### Stream transactions -/

/-- SAMPLE (R127). DATA that is not sign-extended is no sample (R63); a sample that is not ready stays pending (R118). -/
def execSmp (sdata : Word) (s : State) : Result :=
  match sampleOperand s.params sdata with
  | none => .refused (.sampleNotSignExtended sdata)
  | some x => if s.sampleReady then .next (s.acceptSample x) else .next (s.keepPending (.smp sdata))

/-- EOS (R128). -/
def execEos (s : State) : Result :=
  if s.eosReady then .next { s with eos := true } else .next (s.keepPending .eos)

/-- SRC_ERR (R129): always accepted; no effect in IDLE, DONE or SRCERR. -/
def execSrcerr (s : State) : Result := if s.st.running then .next (s.raise .source) else .next s

/-- POP (R130): the head beat is the response; it joins the beats the sink has taken (log entry 6). -/
def execPop (s : State) : Result :=
  match s.out with
  | [] => .next (s.keepPending .pop)
  | b :: rest => .next { s with out := rest, popped := s.popped ++ [b] }

end Sys2Proof.Machine
end

