-- ==== Sys2Proof/Machine/Dispatch.lean ====
section
/-!
DEFINITION. One arm per instruction: the meaning of every row of spec/opcode_table.json.
-/
namespace Sys2Proof.Machine

def exec (i : Instr) (s : State) : Host.Outcome State Fault Refusal :=
  match i with
  | .reset => Sys2Proof.Machine.execReset s
  | .wr addr wdata => Sys2Proof.Machine.execWr addr wdata s
  | .rd addr => Sys2Proof.Machine.execRd addr s
  | .smp sdata => Sys2Proof.Machine.execSmp sdata s
  | .eos => Sys2Proof.Machine.execEos s
  | .srcerr => Sys2Proof.Machine.execSrcerr s
  | .pop => Sys2Proof.Machine.execPop s
  | .nop => Sys2Proof.Machine.execNop s
  | .start => Sys2Proof.Machine.execStart s
  | .abort => Sys2Proof.Machine.execAbort s
  | .clrerr => Sys2Proof.Machine.execClrerr s
  | .clrcnt => Sys2Proof.Machine.execClrcnt s
  | .reserved5 => Sys2Proof.Machine.execReserved5 s
  | .reserved6 => Sys2Proof.Machine.execReserved6 s
  | .reserved7 => Sys2Proof.Machine.execReserved7 s
  | .crcInit => Sys2Proof.Machine.execCrcInit s
  | .crcByte arg => Sys2Proof.Machine.execCrcByte arg s
  | .whtInit => Sys2Proof.Machine.execWhtInit s
  | .whtStep => Sys2Proof.Machine.execWhtStep s
  | .whtXor arg => Sys2Proof.Machine.execWhtXor arg s
  | .crcTest => Sys2Proof.Machine.execCrcTest s
  | .reservedE => Sys2Proof.Machine.execReservedE s
  | .reservedF => Sys2Proof.Machine.execReservedF s
  | .reservedKind kind rest => Sys2Proof.Machine.execReservedKind kind rest s
  | .scan => Sys2Proof.Machine.execScan s
  | .finish => Sys2Proof.Machine.execFinish s
  | .phase => Sys2Proof.Machine.execPhase s
  | .extract => Sys2Proof.Machine.execExtract s
  | .parse => Sys2Proof.Machine.execParse s

end Sys2Proof.Machine
end

