-- ==== Sys2Proof/Machine/Fetch.lean ====
section
/-!
DEFINITION. Which move comes next, and the instruction it runs (R6, R7, R55). `State.turns` says whose moves come next;
where it is empty, the agents that can move are served in the order R141 gives the events of one cycle. An agent's own
transactions are always served in the order it issued them (R55).
-/
namespace Sys2Proof.Machine

/-- Whether the first transaction an agent offers has its handshake (R118). RESET, register transactions and SRC_ERR
always have it; a record that is not well formed is taken too, and refused. -/
def agentReady (s : State) (a : Agent) : Bool :=
  match s.inputs.queue a with
  | [] => false
  | r :: _ =>
    match decode r with
    | .ok (.smp sdata) => (sampleOperand s.params sdata).isNone || s.sampleReady
    | .ok .eos => s.eosReady
    | .ok .pop => s.popReady
    | _ => true

/-- The agents in R141's order: the register host's events, the sample source's, the packet sink's. -/
def agentOrder : List Agent := [.host, .source, .sink]

/-- The move R141's order serves next: the first agent whose next transaction can happen, else the block. -/
def defaultTurn (s : State) : Turn :=
  match agentOrder.find? (agentReady s) with
  | some a => .agent a
  | none => .block

/-- Whose move is next, and the turns left after it (log entry 1). -/
def nextTurn (s : State) : Turn × List Turn :=
  match s.turns with
  | t :: ts => (t, ts)
  | [] => (defaultTurn s, [])

/-- The state with the first transaction of an agent taken from its queue. -/
def State.takeFrom (a : Agent) (s : State) : State :=
  { s with inputs := s.inputs.setQueue a (s.inputs.queue a).tail }

/-- The instruction a turn runs, in a state whose `turns` are those after it. -/
def fetchTurn (t : Turn) (s : State) : Fetched :=
  match t with
  | .block =>
    match s.blockInstr with
    | some i => .run i s
    | none => .wait s
  | .agent a =>
    match s.inputs.queue a with
    | [] => .wait s
    | r :: _ =>
      match decode r with
      | .ok i => .run i (s.takeFrom a)
      | .error e => .reject (.illFormed e)

/-- The next move. -/
def fetch (s : State) : Fetched := fetchTurn (nextTurn s).1 { s with turns := (nextTurn s).2 }

/-- The record whose number is `w`, its bits from `nbits` up being 0. -/
def tableRecord (nbits w : Nat) : Record := BitVec.ofNat 48 (w % 2 ^ nbits)

/-- A record offered first by its agent, whose turn is next. -/
def State.offerNow (r : Record) (s : State) : State :=
  { s.offerFirst r with turns := .agent (recordAgent r) :: s.turns }

/-- The ports in the order R141 gives the events of one cycle. -/
def portOrder : List Port := [.rst, .reg, .srcErr, .sample, .packet]

/-- The one serialization R141 asks of a clocked implementation for the records `rs` its ports see in one cycle. RESET
"overrides everything": the register transaction of that cycle is ignored (R152). -/
def cycleSequence (rs : List Record) : List Record :=
  let seen (p : Port) := rs.filter (fun r => recordPort r == p)
  portOrder.flatMap (fun p => if p = .reg ∧ seen .rst ≠ [] then [] else seen p)

/-- An agent's turn in a cycle: it has one if it offers a transaction. -/
def State.cycleTurn (a : Agent) (s : State) : List Turn :=
  if s.inputs.queue a = [] then [] else [.agent a]

/-- The next moves are those of one cycle in which the ports see the records `rs`, in R141's order: RESET, the register
transaction, SRC_ERR, the sample port's beat, the pop, at most one internal step. `rst` and `src_err` have inputs of their
own and are always accepted (R118), so they come before a transaction their agent still has pending; a beat or a pop that
is pending already is the one its port shows in this cycle, and a later one waits behind it. -/
def State.offerCycle (rs : List Record) (s : State) : State :=
  let resets := rs.filter (fun r => recordPort r == .rst)
  let errors := rs.filter (fun r => recordPort r == .srcErr)
  let others := (cycleSequence rs).filter (fun r => recordPort r != .rst && recordPort r != .srcErr)
  let issued := others.foldl (fun t r => t.offerLast r) s
  { (resets ++ errors).foldr State.offerFirst issued with
    turns := resets.map (fun _ => .agent .host) ++ (if resets = [] then issued.cycleTurn .host else [])
      ++ errors.map (fun _ => .agent .source) ++ issued.cycleTurn .source ++ issued.cycleTurn .sink ++ [.block] ++ s.turns }

end Sys2Proof.Machine
end

