-- ==== Sys2Proof/Machine/Step.lean ====
section
/-!
DEFINITION. One step of the machine: one transaction or one internal step of the total order (R55).
-/
namespace Sys2Proof.Machine

/-- One step: fetch the next move and run its instruction; a move that finds nothing to run leaves the rest of the state
as it is, and a record that is not well formed is refused (R63). -/
def step (s : State) : Host.Outcome State Fault Refusal :=
  match fetch s with
  | .run i s' => exec i s'
  | .wait s' => .next s'
  | .reject r => .refused r

/-- `s` with the record whose number is `w` offered first by its agent, and that agent's turn next (log entry 7). -/
def State.withFetchWord (s : State) (nbits w : Nat) : State := s.offerNow (tableRecord nbits w)

end Sys2Proof.Machine
end

