-- ==== Sys2Proof/Machine/Frame.lean ====
section
/-!
DEFINITION. The on-air frame as the SBS receives it (R71) and the ideal sample stream of a byte sequence (R75), both as
functions: what a transmitter sends. No step of the block uses them.
-/
namespace Sys2Proof.Machine

/-- The message of a frame: the length byte and the payload (R71). -/
def frameMessage (payload : List Byte) : List Byte := BitVec.ofNat 8 payload.length :: payload

/-- The bytes after the sync word before whitening: length, payload and, with CRC_EN, the CRC, high byte first (R71). -/
def frameData (crcOn : Bool) (payload : List Byte) : List Byte :=
  frameMessage payload ++ (if crcOn then crcBytes (crc16 (frameMessage payload)) else [])

/-- The bytes after the sync word as sent: XORed with the whitening sequence where WHITE_DATA is set (R71). -/
def frameBody (white crcOn : Bool) (payload : List Byte) : List Byte :=
  if white then dewhiten (frameData crcOn payload) else frameData crcOn payload

/-- The bytes of a frame in transmission order (R71), for a configuration. -/
def frameBytes (cfg0 cfg1 : Word) (payload : List Byte) : List Byte :=
  patternBytes cfg0 cfg1 ++ frameBody (whiteData cfg0) (crcEn cfg0) payload

/-- The amplitude of one bit (R75, `bytes H, L, S, ...`). -/
def bitLevel (high low : Sample) (b : Bool) : Sample := if b then high else low

/-- The ideal sample stream of a bit sequence: S samples per bit, H for 1 and L for 0 (R75). -/
def idealSamples (high low : Sample) (stride : Nat) (bits : List Bool) : List Sample :=
  bits.flatMap (fun b => List.replicate stride (bitLevel high low b))

end Sys2Proof.Machine
end

