-- ==== Sys2Proof/Machine/Assembler.lean ====
section
/-!
DEFINITION. The assembler of R74 and R75: the lines of a program, the pseudo-instructions, and the records they stand
for. A program is a list of transactions that the agents outside the block issue (R74); the block fetches nothing (R58).
-/
namespace Sys2Proof.Machine

/-- The fields a `cfg` line can name (R75, R23 to R25). -/
inductive CfgField where
  | numPreamble | syncMode | adrChk | lengthConfig | whiteData | crcEn | cc2400En | manchesterEn | fecEn
  | sync0 | sync1 | packetLength | deviceAddr | stride
deriving DecidableEq, Repr

/-- One line of a program (R74) or a pseudo-instruction (R75). A register is its offset (`regOffset` gives a name's). -/
inductive AsmLine where
  | reset
  | wr (addr : BitVec 8) (value : Int)
  | rd (addr : BitVec 8)
  | smp (values : List Sample)
  | eos
  | srcerr
  | pop
  | cmd (code : BitVec 4) (arg : Byte)
  | cfg (fields : List (CfgField × Nat))
  | bytes (high low : Sample) (stride : Nat) (bs : List Byte)
  | fill (value : Sample) (count : Nat)
  | popMany (count : Nat)
deriving DecidableEq, Repr

/-- The register a field stands in (R23 to R25). -/
def fieldReg : CfgField → Reg
  | .numPreamble | .syncMode | .adrChk | .lengthConfig | .whiteData | .crcEn | .cc2400En | .manchesterEn | .fecEn => .cfg0
  | .sync0 | .sync1 | .packetLength | .deviceAddr => .cfg1
  | .stride => .cfg2

/-- The lowest bit of a field (R23 to R25). -/
def fieldShift : CfgField → Nat
  | .numPreamble => 0
  | .syncMode => 4
  | .adrChk => 8
  | .lengthConfig => 12
  | .whiteData => 16
  | .crcEn => 17
  | .cc2400En => 18
  | .manchesterEn => 19
  | .fecEn => 20
  | .sync0 => 0
  | .sync1 => 8
  | .packetLength => 16
  | .deviceAddr => 24
  | .stride => 0

/-- The word a `cfg` line writes to a register: the named fields at their positions, every unnamed field 0 (R75).
DESIGN CHOICE (log entry 18): the spec does not say what a value wider than its field, or a field named twice, gives; the
whole number is shifted to the field's lowest bit and ORed in. -/
def cfgWord (r : Reg) (fields : List (CfgField × Nat)) : Word :=
  fields.foldl (fun w f => if fieldReg f.1 = r then w ||| (BitVec.ofNat 32 f.2 <<< fieldShift f.1) else w) 0

/-- The record of one sample: DATA is `sext_32(x)` (R62, R74). DESIGN CHOICE (log entry 19): the spec does not say what a
`smp`, `fill` or `bytes` line with a value outside the range of R69 gives; DATA is then the value mod 2^32. -/
def sampleRecord (x : Sample) : Record := mkRecord 3 0 (BitVec.ofInt 32 x)

/-- `wr REG, VALUE`: DATA is VALUE mod 2^32 (R74). -/
def writeRecord (addr : BitVec 8) (value : Int) : Record := mkRecord 1 addr (BitVec.ofInt 32 value)

/-- The records of a line (R74, R75). -/
def assembleLine : AsmLine → List Record
  | .reset => [mkRecord 0 0 0]
  | .wr addr value => [writeRecord addr value]
  | .rd addr => [mkRecord 2 addr 0]
  | .smp values => values.map sampleRecord
  | .eos => [mkRecord 4 0 0]
  | .srcerr => [mkRecord 5 0 0]
  | .pop => [mkRecord 6 0 0]
  | .cmd code arg => [commandRecord code arg]
  | .cfg fields =>
    [mkRecord 1 (regOffset .cfg0) (cfgWord .cfg0 fields), mkRecord 1 (regOffset .cfg1) (cfgWord .cfg1 fields),
     mkRecord 1 (regOffset .cfg2) (cfgWord .cfg2 fields)]
  | .bytes high low stride bs => (idealSamples high low stride (bitsMsb bs)).map sampleRecord
  | .fill value count => List.replicate count (sampleRecord value)
  | .popMany count => List.replicate count (mkRecord 6 0 0)

/-- The records of a program (R74). -/
def assemble (lines : List AsmLine) : List Record := lines.flatMap assembleLine

/-- A program's records issued by their agents, and turns that serve them in the program's order with `gap` turns of the
block after each (R55: any such order is admitted; log entry 7). A record whose handshake does not hold at its turn stays
first in its agent's queue, and no later transaction of that agent goes before it. -/
def State.offerProgram (gap : Nat) (rs : List Record) (s : State) : State :=
  { rs.foldl (fun t r => t.offerLast r) s with
    turns := s.turns ++ rs.flatMap (fun r => .agent (recordAgent r) :: List.replicate gap .block) }

end Sys2Proof.Machine
end

