-- ==== Sys2Proof/Safety.lean ====
section
/-!
DEFINITION. What a safe run is, in the terms the statements use: the well-formed record of R63, the invariant of the
block's state, the end of a run (R155), and which parts of the state a comparison of two runs leaves out (R91).
-/
namespace Sys2Proof.Machine

/-- R63's conditions on a transaction record, one for each line of the rule. -/
structure RecordWellFormed (p : Params) (r : Record) : Prop where
  /-- KIND <= 0x6. -/
  kind : (recordKind r).toNat ≤ 6
  /-- RSV = 0. -/
  rsv : recordRsv r = 0
  /-- ADDR = 0 unless KIND is REG_WRITE or REG_READ. -/
  addr : recordKind r ≠ 1 → recordKind r ≠ 2 → recordAddr r = 0
  /-- DATA = 0 for RESET, REG_READ, EOS, SRC_ERR and POP. -/
  bare : recordKind r = 0 ∨ recordKind r = 2 ∨ recordKind r = 4 ∨ recordKind r = 5 ∨ recordKind r = 6 → recordData r = 0
  /-- For SAMPLE, DATA is the sign extension of its low SAMPLE_W bits. -/
  sample : recordKind r = 3 → ((recordData r).setWidth p.sampleW).signExtend 32 = recordData r

/-- A state in which no session is open: everything a session changes is at its reset value, but for CFG_ERR, which the
last failed START left (R38, R98, R123). -/
structure SessionClear (s : State) : Prop where
  rcv : s.rcv = 0
  pos : s.pos = 0
  smp : s.smp = []
  eos : s.eos = false
  out : s.out = []
  dBytes : s.dBytes = []
  thsum : s.thsum = 0
  th : s.th = 0
  thHold : s.thHold = 0
  mid : s.mid = 0
  runlen : s.runlen = 0
  desc : s.desc = Descriptor.zero
  desc0 : s.desc0 = 0
  desc1 : s.desc1 = 0

/-- What holds while a session is open: the configuration START accepted is still there and `desc` agrees with it
(R35), and the phase sweep's result is in range (R28). -/
structure SessionOpen (s : State) : Prop where
  accepted : configError s.params s.cfg0 s.cfg2 = 0
  desc : s.desc = buildDescriptor s.cfg0 s.cfg1 s.cfg2
  desc0 : s.desc0 = Descriptor.word0 s.desc
  desc1 : s.desc1 = Descriptor.word1 s.desc
  cfgErr : s.cfgErr = 0
  mid : s.mid < s.desc.stride
  runlen : s.runlen ≤ s.desc.stride

/-- What holds while a candidate is held at `pos` (R107, R109). -/
structure CandidateHeld (s : State) : Prop where
  /-- The pattern window is held (the guard SCAN had). -/
  window : s.patternHeld = true
  /-- The threshold of the candidate is the one of the last SCAN. -/
  threshold : s.thHold = s.th
  /-- In PHASE, the threshold is the mean at `pos`, and the pattern matches there with it. -/
  matched : s.st = .phase →
    s.thsum = thresholdSum s.smp s.pos s.desc.thsize ∧
    patternMatch s.smp s.desc.stride s.thHold s.pos s.desc.pattern = true
  /-- After PHASE, the look-ahead is held or the stream has ended. -/
  lookAhead : s.st ≠ .phase → s.lookAheadHeld = true

/-- The invariant of the block's state. It says nothing of the model's own fields. -/
structure State.Inv (s : State) : Prop where
  /-- The parameters are legal (R8 to R11). -/
  params : s.params.legal = true
  /-- The window holds exactly the samples `pos <= k < rcv` (R41, R114). -/
  window : s.smp.map Prod.fst = List.range' s.pos (s.rcv - s.pos)
  /-- Every sample held is a `SAMPLE_W`-bit signed integer (R69). -/
  samples : ∀ c ∈ s.smp, sampleInRange s.params.sampleW c.2 = true
  /-- `occ <= BUF_CAP` (R42). -/
  occupancy : s.occ ≤ s.params.bufCap
  /-- The FIFO holds at most `OUT_FIFO_CAP` beats (R38). -/
  fifo : s.out.length ≤ s.params.outFifoCap
  /-- CFG_ERR codes 10 to 15 are never produced (R92). -/
  cfgErr : s.cfgErr.toNat ≤ 9
  /-- Reserved bits of CFG0, CFG2 and LAST_DROP read 0 (R19). -/
  cfg0 : s.cfg0 &&& ~~~cfg0Mask = 0
  cfg2 : s.cfg2 &&& ~~~cfg2Mask = 0
  lastDrop : s.lastDrop &&& ~~~(0x0000FF03 : Word) = 0
  /-- IDLE holds no session (R38). -/
  idle : s.st = .idle → SessionClear s
  /-- Every other state is a session's. -/
  session : s.st ≠ .idle → SessionOpen s
  /-- STATUS.SRC_ERR is 1 in SRCERR and only there (R129, R136). -/
  srcErr : s.srcErr = true ↔ s.st = .srcErr
  /-- DONE is entered only after end-of-stream (R108). -/
  done : s.st = .done → s.eos = true
  /-- THRESH is the floor mean THSUM gives (R106). -/
  threshold : s.th = floorDiv s.thsum s.desc.thsize
  /-- A candidate is held in PHASE, EXTRACT and PARSE. -/
  candidate : s.st = .phase ∨ s.st = .extract ∨ s.st = .parse → CandidateHeld s
  /-- `D` has at most 259 bytes (R36), and holds a candidate's bytes in PARSE only. -/
  data : s.dBytes.length ≤ 259
  dataParse : s.st ≠ .parse → s.dBytes = []
  /-- Each of those bytes was sampled from the window (R111). -/
  dataHeld : s.dBytes.length ≤ s.occ
  /-- Before end-of-stream the cursor has not passed the samples received (R127: "cannot arise"). -/
  cursor : s.eos = false → s.pos ≤ s.rcv

/-- Each agent's queue holds that agent's own transactions only (R7). -/
def Inputs.ownRecords (q : Inputs) : Prop := ∀ (a : Agent), ∀ r ∈ q.queue a, recordAgent r = a

/-- The end of a run (R155): DONE or SRCERR, with an empty FIFO. -/
def State.runEnded (s : State) : Prop := (s.st = .done ∨ s.st = .srcErr) ∧ s.out = []

/-- The state without what the codec test instance holds (R91), and without the last read response, which may show it. -/
def State.withoutCodec (s : State) : State := { s with crcReg := 0, whtReg := 0, codecOut := 0, rdata := 0 }

/-- Two outcomes that agree but for the codec test instance. -/
def sameButCodec : Result → Result → Prop
  | .next s, .next t => s.withoutCodec = t.withoutCodec
  | .fault e, .fault f => e = f
  | .refused e, .refused f => e = f
  | _, _ => False

/-- The window holds this sequence of samples from `pos` on. -/
def holdsFrom (s : State) (xs : List Sample) : Prop := ∀ k (h : k < xs.length), Memory.read s.smp (s.pos + k) = some xs[k]

end Sys2Proof.Machine
end

