-- ==== Sys2Proof/Certificates/Slice0/Obligations.lean ====
section
/-!
DEFINITION. The statements about the SBS, from the numbered rules of spec/. Each says which rule it formalises; where a
clause rests on a choice of the model, its docstring names the log entry.
-/
open Sys2Proof Sys2Proof.Machine

/-! ### Encoding (R61 to R65) -/

/-- Decoding the record of a well-formed instruction gives that instruction, with every operand (R61, R62, R64, R65). An
internal step has no record and is not meant here. -/
def Obligations.DecodeOfEncode : Prop :=
  ∀ (p : Params) (i : Instr) (r : Record), i.wellFormed p = true → encode i = some r → decode r = .ok i

/-- A record that decodes agrees with the record of its instruction on every bit the spec does not ignore, and the
encoder leaves the ignored bits 0 (R64; which value the encoder gives them is the model's choice, log entry 10). -/
def Obligations.EncodeOfDecode : Prop :=
  ∀ (r : Record) (i : Instr), decode r = .ok i →
    ∃ r', encode i = some r' ∧ r' &&& significantBits i = r &&& significantBits i ∧ r' &&& ~~~significantBits i = 0

/-- R63: the well-formed records are those that decode to a well-formed instruction; at its agent's turn a record that is
not well formed is refused, and a well-formed one never is: the step answers a next state. That the refusal comes before
the handshake is the model's reading (log entry 9); the turns and queues are the model's (log entries 1 and 2). -/
def Obligations.RecordsRefusedExactlyIfIllFormed : Prop :=
  (∀ (p : Params) (r : Record), RecordWellFormed p r ↔ ∃ i, decode r = .ok i ∧ i.wellFormed p = true) ∧
  (∀ (s : State) (a : Agent) (ts : List Turn) (r : Record) (rest : List Record),
    s.turns = .agent a :: ts → s.inputs.queue a = r :: rest → ¬ RecordWellFormed s.params r →
    ∃ why, step s = .refused why) ∧
  (∀ (s : State) (a : Agent) (ts : List Turn) (r : Record) (rest : List Record),
    s.turns = .agent a :: ts → s.inputs.queue a = r :: rest → RecordWellFormed s.params r →
    ∃ t, step s = .next t)

/-- Every record of the programs P1 to P4 (95_test_vectors.md) decodes to the line it stands for; each record is listed
once, a SAMPLE record once for each of the levels 100, -100, 40 and -20. -/
def Obligations.ProgramRecordsDecode : Prop :=
  ∀ row ∈ ([
    -- P1
    (0x000000000000, .reset), (0x108000021010, .wr 0x08 0x00021010), (0x10C000FFD391, .wr 0x0C 0x00FFD391),
    (0x110000000002, .wr 0x10 2), (0x100000000001, .start), (0x204000000000, .rd 0x04),
    (0x300000000064, .smp 100), (0x3000FFFFFF9C, .smp (BitVec.ofInt 32 (-100))),
    (0x400000000000, .eos), (0x600000000000, .pop),
    -- P2
    (0x108000031020, .wr 0x08 0x00031020), (0x10C00010D391, .wr 0x0C 0x0010D391), (0x110000000003, .wr 0x10 3),
    (0x300000000028, .smp 40), (0x3000FFFFFFEC, .smp (BitVec.ofInt 32 (-20))),
    -- P3
    (0x100000000008, .crcInit), (0x100000003109, .crcByte 0x31), (0x100000003209, .crcByte 0x32),
    (0x100000003309, .crcByte 0x33), (0x100000003409, .crcByte 0x34), (0x100000003509, .crcByte 0x35),
    (0x100000003609, .crcByte 0x36), (0x100000003709, .crcByte 0x37), (0x100000003809, .crcByte 0x38),
    (0x100000003909, .crcByte 0x39), (0x244000000000, .rd 0x44), (0x10000000AE09, .crcByte 0xAE),
    (0x10000000E709, .crcByte 0xE7), (0x10000000000D, .crcTest), (0x24C000000000, .rd 0x4C),
    (0x10000000000A, .whtInit), (0x10000000FD0C, .whtXor 0xFD), (0x10000000A90C, .whtXor 0xA9),
    (0x10000000740C, .whtXor 0x74), (0x10000000A50C, .whtXor 0xA5), (0x10000000B60C, .whtXor 0xB6),
    (0x248000000000, .rd 0x48), (0x10000000000B, .whtStep),
    -- P4
    (0x108000020010, .wr 0x08 0x00020010), (0x10C000112233, .wr 0x0C 0x00112233), (0x20C000000000, .rd 0x0C),
    (0x100000000005, .reserved5), (0x1060FFFFFFFF, .wr 0x06 0xFFFFFFFF), (0x206000000000, .rd 0x06),
    (0x25C000000000, .rd 0x5C), (0x100000000002, .abort), (0x214000000000, .rd 0x14), (0x100000000003, .clrerr)]
      : List (Nat × Instr)),
    decodeTableWord 48 row.1 = some row.2

/-- R64: a write to CTRL is a command whatever DATA[7:4] and DATA[31:16] hold; CMD is DATA[3:0], and ARG = DATA[15:8] is
the operand of CRC_BYTE and WHT_XOR alone. R65 says which command a code is. -/
def Obligations.CommandWordFields : Prop :=
  ∀ (cmd low : BitVec 4) (arg : Byte) (high : BitVec 16),
    decode (mkRecord 1 0 (high ++ arg ++ low ++ cmd)) =
      .ok (if cmd = 0x0 then .nop else if cmd = 0x1 then .start else if cmd = 0x2 then .abort
        else if cmd = 0x3 then .clrerr else if cmd = 0x4 then .clrcnt else if cmd = 0x5 then .reserved5
        else if cmd = 0x6 then .reserved6 else if cmd = 0x7 then .reserved7 else if cmd = 0x8 then .crcInit
        else if cmd = 0x9 then .crcByte arg else if cmd = 0xA then .whtInit else if cmd = 0xB then .whtStep
        else if cmd = 0xC then .whtXor arg else if cmd = 0xD then .crcTest else if cmd = 0xE then .reservedE
        else .reservedF)

/-- A SAMPLE's DATA carries exactly the samples of SAMPLE_W bits (R69): the record of a sample in range decodes to it,
and no DATA carries a sample out of range. -/
def Obligations.SampleOperandIsSignedInRange : Prop :=
  ∀ p : Params, p.legal = true →
    (∀ x : Sample, sampleInRange p.sampleW x = true →
      decode (sampleRecord x) = .ok (.smp (BitVec.ofInt 32 x)) ∧ sampleOperand p (BitVec.ofInt 32 x) = some x) ∧
    (∀ (d : Word) (x : Sample), sampleOperand p d = some x → sampleInRange p.sampleW x = true)

/-! ### One step -/

/-- A step whose turn is an agent's runs the instruction its first record decodes to, in the state with that record and
that turn taken. The turns and queues are the model's (log entries 1 and 2). -/
def Obligations.StepRunsDecodedInstruction : Prop :=
  ∀ (s : State) (a : Agent) (ts : List Turn) (r : Record) (rest : List Record) (i : Instr),
    s.turns = .agent a :: ts → s.inputs.queue a = r :: rest → decode r = .ok i → i.wellFormed s.params = true →
    step s = exec i { s with turns := ts, inputs := s.inputs.setQueue a rest }

/-- A step whose turn is the block's runs the internal step that is enabled, and waits where none is (log entry 1). -/
def Obligations.BlockTurnRunsEnabledStep : Prop :=
  ∀ (s : State) (ts : List Turn), s.turns = .block :: ts →
    (∀ i, s.blockInstr = some i → step s = exec i { s with turns := ts }) ∧
    (s.blockInstr = none → step s = .next { s with turns := ts })

/-- A step from a state with a record placed for the next fetch runs exactly that record's instruction in the state
without it (log entry 7). -/
def Obligations.FetchWordRunsItsInstruction : Prop :=
  ∀ (s : State) (nbits w : Nat) (i : Instr), decodeTableWord nbits w = some i →
    step (s.withFetchWord nbits w) = exec i s

/-- The order of moves. Where no turn is decided, the first agent whose next transaction can happen is served, in the
order R141 gives the events of one cycle, and the block where there is none; that the model serves undecided turns in this
order is its choice (log entry 1). And in every turn an agent's own transactions keep the order it issued them (R55):
a step takes at most one transaction, the first one of one agent's queue, and leaves everything behind it as it is, so that
an SRC_ERR never goes before a SAMPLE or EOS the source issued earlier. The queues are the model's (log entry 2). In a
clocked cycle whose only new record is RESET, RESET is served first; in one whose only new record is SRC_ERR, and with nothing
of the register host pending (R141 serves a register transaction before), SRC_ERR is served first, also where a beat is
pending: SRC_ERR then counts as issued before that beat. The turns that then follow are those of the source and the sink,
each only with something pending, and the block. How a cycle stands in the turns and queues is the model's (log entries 1
and 2). -/
def Obligations.UndecidedTurnsFollowCycleOrder : Prop :=
  (∀ s : State, s.turns = [] →
    (∀ (pre post : List Agent) (a : Agent), [Agent.host, .source, .sink] = pre ++ a :: post →
      (∀ b ∈ pre, agentReady s b = false) → agentReady s a = true → step s = step { s with turns := [.agent a] }) ∧
    ((∀ a, agentReady s a = false) → step s = step { s with turns := [.block] })) ∧
  (∀ s t : State, s.inputs.ownRecords → step s = .next t →
    t.inputs.ownRecords ∧
    ∃ a, (∀ b, b ≠ a → t.inputs.queue b = s.inputs.queue b) ∧
      (t.inputs.queue a = s.inputs.queue a ∨ ∃ r, s.inputs.queue a = r :: t.inputs.queue a)) ∧
  State.reset.inputs.ownRecords ∧
  (∀ s : State, step (s.offerCycle [mkRecord 0 0 0]) =
    exec .reset { s with turns := s.cycleTurn .source ++ s.cycleTurn .sink ++ [.block] ++ s.turns }) ∧
  (∀ s : State, s.inputs.host = [] → step (s.offerCycle [mkRecord 5 0 0]) =
    exec .srcerr { s with turns := s.cycleTurn .source ++ s.cycleTurn .sink ++ [.block] ++ s.turns })

/-- Which internal step is enabled, whatever the state: only an internal step of a running state (in IDLE, DONE and SRCERR
none is, 43_synchronizer.md); in SEARCH after end-of-stream SCAN or FINISH (R108: their guards are complementary); in
PARSE after a drop PARSE (R113: a drop never holds). A step that is not enabled does not happen (R16, R138); that `exec`
of it answers the same state is the model's reading (log entry 15). Each step's own guard is in its statement below. -/
def Obligations.InternalStepGuards : Prop :=
  ∀ s : State,
    (∀ i, s.blockInstr = some i → i.isInternal = true ∧ s.st.running = true) ∧
    (s.st = .search → s.eos = true → s.blockInstr = some .scan ∨ s.blockInstr = some .finish) ∧
    (∀ c, s.st = .parse → s.parsed = .drop c → s.blockInstr = some .parse) ∧
    (∀ i : Instr, i.isInternal = true → s.blockInstr ≠ some i → exec i s = .next s)

/-! ### Register transactions (R119, R120, R46) -/

/-- R120: what REG_READ returns, offset by offset, and that it changes nothing else. The response stands in `rdata`, the
port's `reg_rdata` (R118). That OUT_LEVEL shows `len(out)` modulo 2^32, and PHASE `mid` without a field mask, in every
state is the model's reading (log entry 16). -/
def Obligations.RegisterReadValue : Prop :=
  ∀ (a : BitVec 8) (s : State) (v : Word), v = (
    if a &&& 3 ≠ 0 ∨ 0x5C ≤ a.toNat then 0
    else if a = 0x00 then 0
    else if a = 0x04 then
      BitVec.ofNat 32 (s.st.code + 8 * s.eos.toNat + 16 * s.srcErr.toNat + 32 * (decide (0 < s.out.length)).toNat
        + 256 * s.cfgErr.toNat + 4096 * s.werr.toNat + 8192 * s.cmdErr.toNat)
    else if a = 0x08 then s.cfg0
    else if a = 0x0C then s.cfg1
    else if a = 0x10 then s.cfg2
    else if a = 0x14 then s.desc0
    else if a = 0x18 then s.desc1
    else if a = 0x1C then BitVec.ofNat 32 s.pos
    else if a = 0x20 then BitVec.ofInt 32 s.thsum
    else if a = 0x24 then BitVec.ofInt 32 s.th
    else if a = 0x28 then BitVec.ofNat 32 s.mid ||| (BitVec.ofNat 32 s.runlen <<< 16)
    else if a = 0x2C then BitVec.ofNat 32 s.rcv
    else if a = 0x30 then BitVec.ofNat 32 s.out.length
    else if a = 0x34 then s.pktCount
    else if a = 0x38 then s.dropLen
    else if a = 0x3C then s.dropCrc
    else if a = 0x40 then s.lastDrop
    else if a = 0x44 then s.crcReg.setWidth 32
    else if a = 0x48 then s.whtReg.setWidth 32
    else if a = 0x4C then s.codecOut.setWidth 32
    else if a = 0x50 then BitVec.ofNat 32 s.params.sampleW ||| (BitVec.ofNat 32 s.params.maxStride <<< 16)
    else if a = 0x54 then BitVec.ofNat 32 s.params.bufCap
    else BitVec.ofNat 32 s.params.outFifoCap) →
    exec (.rd a) s = .next { s with rdata := v }

/-- R119: what REG_WRITE does, offset by offset. At offset 0x00 it executes the command of the word (R121). -/
def Obligations.RegisterWriteEffect : Prop :=
  ∀ (a : BitVec 8) (wdata : Word) (s : State), exec (.wr a wdata) s =
    if a &&& 3 ≠ 0 ∨ 0x5C ≤ a.toNat then .next { s with werr := true }
    else if a = 0x00 then exec (decodeCommand wdata) s
    else if a = 0x08 ∨ a = 0x0C ∨ a = 0x10 then
      if s.st ≠ .idle then .next { s with werr := true }
      else if a = 0x08 then .next { s with cfg0 := wdata &&& 0x001F3377 }
      else if a = 0x0C then .next { s with cfg1 := wdata }
      else .next { s with cfg2 := wdata &&& 0x0000FFFF }
    else if a = 0x44 then .next { s with crcReg := wdata.extractLsb' 0 16 }
    else if a = 0x48 then .next { s with whtReg := wdata.extractLsb' 0 9 }
    else .next { s with werr := true }

/-- R46: outside IDLE, a write to CFG0, CFG1 or CFG2 sets WERR and changes nothing else, and no instruction but RESET
changes them. -/
def Obligations.ConfigurationLockedOutsideIdle : Prop :=
  ∀ s : State, s.st ≠ .idle →
    (∀ (a : BitVec 8) (wdata : Word), a = 0x08 ∨ a = 0x0C ∨ a = 0x10 →
      exec (.wr a wdata) s = .next { s with werr := true }) ∧
    (∀ (i : Instr) (t : State), i ≠ .reset → exec i s = .next t →
      t.cfg0 = s.cfg0 ∧ t.cfg1 = s.cfg1 ∧ t.cfg2 = s.cfg2)

/-! ### The codec (R76 to R91) -/

/-- R76: the LFSR's formula on integers, and its examples; 0 is a fixed point; from the seed the state returns after
exactly 511 steps and visits every nonzero state once. -/
def Obligations.LfsrFormulaAndPeriod : Prop :=
  (∀ v : BitVec 9, (lfsrNext v).toNat =
    ((v.toNat &&& 0x1E0) ^^^ ((v.toNat &&& 0x1E0) >>> 4) ^^^ ((v.toNat &&& 0x1E0) >>> 8) ^^^ (v.toNat <<< 1)
      ^^^ (v.toNat <<< 5)) &&& 0x1FF) ∧
  lfsrNext 0x1FF = 0x1E1 ∧ lfsrNext 0x001 = 0x022 ∧ lfsrNext 0x100 = 0x111 ∧ lfsrNext 0x0FF = 0x0F0 ∧
  lfsrNext 0 = 0 ∧
  lfsrState 0 = 0x1FF ∧ lfsrState 511 = 0x1FF ∧ (∀ k < 511, 0 < k → lfsrState k ≠ 0x1FF) ∧
  (∀ v : BitVec 9, v ≠ 0 → ∃ k < 511, lfsrState k = v ∧ ∀ j < 511, lfsrState j = v → j = k)

/-- R77 and R78: byte `k` of the whitening sequence is the low byte of `v_k`, for the states `v_0 = 0x1FF`,
`v_(k+1) = lfsr_next(v_k)`; its first 16 bytes and first 10 states; and de-whitening keeps the length and XORs byte k
with `W[k]`, from `W[0]` on for every list. -/
def Obligations.DewhitenXorsTheSequence : Prop :=
  (∀ v : Nat → BitVec 9, v 0 = 0x1FF → (∀ k, v (k + 1) = lfsrNext (v k)) →
    ∀ k, whitening k = (v k).extractLsb' 0 8) ∧
  (List.range 16).map whitening =
    [0xFF, 0xE1, 0x1D, 0x9A, 0xED, 0x85, 0x33, 0x24, 0xEA, 0x7A, 0xD2, 0x39, 0x70, 0x97, 0x57, 0x0A] ∧
  (List.range 10).map lfsrState =
    [0x1FF, 0x1E1, 0x01D, 0x19A, 0x1ED, 0x185, 0x033, 0x024, 0x0EA, 0x07A] ∧
  ∀ x : List Byte, (dewhiten x).length = x.length ∧
    ∀ k : Nat, (dewhiten x)[k]? = x[k]?.map (fun b => b ^^^ whitening k)

/-- R83: de-whitening twice gives the sequence back. -/
def Obligations.DewhitenInvolution : Prop := ∀ x : List Byte, dewhiten (dewhiten x) = x

/-- R79 to R81: `crc_bit` by the rule's formula on integers for every register and bit, with its examples; `crc_byte`
feeds bits 7 to 0 in that order; `crc16` starts from 0xFFFF and feeds each byte in order. R84: a message followed by its
own CRC, high byte first, has residue 0; and the rule's example. -/
def Obligations.CrcResidueIsZero : Prop :=
  (∀ (c : BitVec 16) (m : Bool), (crcBit c m).toNat =
    if c.getLsbD 15 ≠ m then ((c.toNat <<< 1) ^^^ 0x8005) &&& 0xFFFF else (c.toNat <<< 1) &&& 0xFFFF) ∧
  crcBit 0x8000 false = 0x8005 ∧ crcBit 0x8000 true = 0x0000 ∧ crcBit 0x0000 true = 0x8005 ∧
  (∀ (c : BitVec 16) (b : Byte),
    crcByte c b = [7, 6, 5, 4, 3, 2, 1, 0].foldl (fun (c : BitVec 16) (i : Nat) => crcBit c (b.getLsbD i)) c) ∧
  crc16 [] = 0xFFFF ∧
  (∀ (bs : List Byte) (b : Byte), crc16 (bs ++ [b]) = crcByte (crc16 bs) b) ∧
  (∀ m : List Byte, crc16 (m ++ [(crc16 m >>> 8).setWidth 8, (crc16 m &&& 0xFF).setWidth 8]) = 0) ∧
  crc16 [0x31, 0x32, 0x33, 0x34, 0x35, 0x36, 0x37, 0x38, 0x39] = 0xAEE7 ∧
  crc16 [0x31, 0x32, 0x33, 0x34, 0x35, 0x36, 0x37, 0x38, 0x39, 0xAE, 0xE7] = 0

/-- The CRC detects every change of one byte, so every single flipped bit (60_exceptions.md, ChecksumError). -/
def Obligations.CrcDetectsOneChangedByte : Prop :=
  (∀ (pre post : List Byte) (b b' : Byte), b ≠ b' → crc16 (pre ++ b :: post) ≠ crc16 (pre ++ b' :: post)) ∧
  (∀ (pre post : List Byte) (b : Byte) (k : Nat), k < 8 → crc16 (pre ++ b :: post) = 0 →
    crc16 (pre ++ (b ^^^ (1#8 <<< k)) :: post) ≠ 0)

/-- R85 to R90: the codec commands, each with everything it leaves unchanged. -/
def Obligations.CodecCommandsUpdateTestRegisters : Prop :=
  ∀ s : State,
    exec .crcInit s = .next { s with crcReg := 0xFFFF } ∧
    (∀ b : Byte, exec (.crcByte b) s = .next { s with crcReg := crcByte s.crcReg b }) ∧
    exec .crcTest s = .next { s with codecOut := BitVec.ofNat 8 (decide (s.crcReg = 0)).toNat } ∧
    exec .whtInit s = .next { s with whtReg := 0x1FF } ∧
    exec .whtStep s = .next { s with whtReg := lfsrNext s.whtReg } ∧
    (∀ x : Byte, exec (.whtXor x) s =
      .next { s with codecOut := x ^^^ s.whtReg.extractLsb' 0 8, whtReg := lfsrNext s.whtReg })

/-- R91: the codec test registers and the frame path are separate. Two states that differ in the test registers alone
(and in the last read response, which may show them) step to states that differ in nothing else, and no internal step
changes a test register. -/
def Obligations.FramePathAndCodecAreSeparate : Prop :=
  (∀ (i : Instr) (s s' : State), s.withoutCodec = s'.withoutCodec → sameButCodec (exec i s) (exec i s')) ∧
  (∀ s s' : State, s.withoutCodec = s'.withoutCodec → sameButCodec (step s) (step s')) ∧
  (∀ (i : Instr) (s t : State), i.isInternal = true → exec i s = .next t →
    t.crcReg = s.crcReg ∧ t.whtReg = s.whtReg ∧ t.codecOut = s.codecOut)

/-! ### Descriptor and START (R92 to R98) -/

/-- R92: CFG_ERR's code is the number of the first check that fails, in the rule's order, on the fields at their bits of
CFG0 and CFG2 (R23, R25); codes 10 to 15 are never produced. -/
def Obligations.ConfigErrorIsFirstFailingCheck : Prop :=
  ∀ (p : Params) (cfg0 cfg2 : Word) (npre rep stride : Nat),
    ([2, 3, 4, 6, 8, 12, 16, 24] : List Nat)[(cfg0.extractLsb' 0 3).toNat]? = some npre →
    ([0, 1, 1, 2] : List Nat)[(cfg0.extractLsb' 4 3).toNat % 4]? = some rep →
    stride = (cfg2.extractLsb' 0 16).toNat →
    configError p cfg0 cfg2 = BitVec.ofNat 4 ((([
      decide (cfg0.extractLsb' 8 2 ≠ 0),
      decide (cfg0.extractLsb' 12 2 ≠ 1),
      cfg0.getLsbD 18,
      cfg0.getLsbD 19,
      cfg0.getLsbD 20,
      decide (rep = 0),
      decide (stride = 0),
      decide (p.maxStride < stride),
      decide (p.bufCap < (8 * (npre + 2 * rep) + (2 + 255 + 2) * 8) * stride)] : List Bool).findIdx? id).elim 0 (· + 1)) ∧
    (configError p cfg0 cfg2).toNat ≤ 9

/-- R95: the pattern's bits: the preamble alternates 1, 0, and then each sync byte, SYNC1 first, bit 7 first. -/
def Obligations.PatternBitsMsbFirst : Prop :=
  ∀ cfg0 cfg1 cfg2 : Word, ∀ d, d = buildDescriptor cfg0 cfg1 cfg2 →
    d.pattern.length = d.n ∧ d.n = 8 * (d.npre + d.nsync) ∧
    (∀ j < 8 * d.npre, d.pattern[j]? = some (decide (j % 2 = 0))) ∧
    (∀ j < 8 * d.nsync, d.pattern[8 * d.npre + j]? =
      some ((if j / 8 % 2 = 0 then cfg1.extractLsb' 8 8 else cfg1.extractLsb' 0 8).getLsbD (7 - j % 8)))

/-- R96: the sizes of a frame, by formula and by the rule's table (NUM_PREAMBLE, Npre, then n, MFB and base_size without
CRC for rep 1 and for rep 2); with the field lookups of R66 and R67 and the flags `crc_en`, `white` and `pktlen` that the
latch also holds (R35, R98), each at its bits of CFG0 and CFG1 (R23, R24). -/
def Obligations.DescriptorSizes : Prop :=
  ∀ cfg0 cfg1 cfg2 : Word, ∀ d, d = buildDescriptor cfg0 cfg1 cfg2 →
    d.crcEn = cfg0.getLsbD 17 ∧ d.white = cfg0.getLsbD 16 ∧ d.pktlen = (cfg1.extractLsb' 16 8).toNat ∧
    ([2, 3, 4, 6, 8, 12, 16, 24] : List Nat)[(cfg0.extractLsb' 0 3).toNat]? = some d.npre ∧
    ([0, 2, 2, 4] : List Nat)[(cfg0.extractLsb' 4 3).toNat % 4]? = some d.nsync ∧
    d.baseSize = d.npre + d.nsync + 1 + (if cfg0.getLsbD 17 then 2 else 0) ∧
    d.mfb = d.n + (2 + 255 + 2) * 8 ∧
    ∀ row ∈ [(0, 2, 32, 2104, 5, 48, 2120, 7), (1, 3, 40, 2112, 6, 56, 2128, 8), (2, 4, 48, 2120, 7, 64, 2136, 9),
        (3, 6, 64, 2136, 9, 80, 2152, 11), (4, 8, 80, 2152, 11, 96, 2168, 13), (5, 12, 112, 2184, 15, 128, 2200, 17),
        (6, 16, 144, 2216, 19, 160, 2232, 21), (7, 24, 208, 2280, 27, 224, 2296, 29)],
      (cfg0.extractLsb' 0 3).toNat = row.1 →
        d.npre = row.2.1 ∧
        ((cfg0.extractLsb' 4 3).toNat % 4 = 1 ∨ (cfg0.extractLsb' 4 3).toNat % 4 = 2 →
          d.n = row.2.2.1 ∧ d.mfb = row.2.2.2.1 ∧
          d.baseSize = row.2.2.2.2.1 + (if cfg0.getLsbD 17 then 2 else 0)) ∧
        ((cfg0.extractLsb' 4 3).toNat % 4 = 3 → d.n = row.2.2.2.2.2.1 ∧ d.mfb = row.2.2.2.2.2.2.1 ∧
          d.baseSize = row.2.2.2.2.2.2.2 + (if cfg0.getLsbD 17 then 2 else 0))

/-- R97: the sample-count sizes, STRIDE being CFG2[15:0] (R25), and their ranges for every configuration START
accepts. -/
def Obligations.SampleCountSizes : Prop :=
  ∀ (p : Params) (cfg0 cfg1 cfg2 : Word), ∀ d, d = buildDescriptor cfg0 cfg1 cfg2 →
    d.stride = (cfg2.extractLsb' 0 16).toNat ∧ d.thsize = 8 * d.npre * d.stride ∧ d.maxsize = d.mfb * d.stride ∧
    (configError p cfg0 cfg2 = 0 →
      16 * d.stride ≤ d.thsize ∧ d.thsize ≤ 192 * d.stride ∧
      32 * d.stride ≤ d.n * d.stride ∧ d.n * d.stride ≤ 224 * d.stride ∧
      2104 * d.stride ≤ d.maxsize ∧ d.maxsize ≤ 2296 * d.stride ∧
      d.thsize < d.n * d.stride)

/-- R98: START, in every state, with everything it leaves unchanged; every field of the latch but the pattern (which R95's
statement gives) is written from the configuration's bits (R23 to R25, R35), with the lookups of R66 and R67. -/
def Obligations.StartEffect : Prop :=
  ∀ (s : State) (npre rep n mfb base stride : Nat),
    ([2, 3, 4, 6, 8, 12, 16, 24] : List Nat)[(s.cfg0.extractLsb' 0 3).toNat]? = some npre →
    ([0, 1, 1, 2] : List Nat)[(s.cfg0.extractLsb' 4 3).toNat % 4]? = some rep →
    n = 8 * (npre + 2 * rep) → mfb = n + (2 + 255 + 2) * 8 →
    base = npre + 2 * rep + 1 + (if s.cfg0.getLsbD 17 then 2 else 0) →
    stride = (s.cfg2.extractLsb' 0 16).toNat →
    exec .start s =
      if s.st ≠ .idle then .next { s with cmdErr := true }
      else if configError s.params s.cfg0 s.cfg2 ≠ 0 then
        .next { s with cfgErr := configError s.params s.cfg0 s.cfg2 }
      else .next { s with
        desc := {
          npre := npre, nsync := 2 * rep, pattern := (buildDescriptor s.cfg0 s.cfg1 s.cfg2).pattern, n := n
          stride := stride, thsize := 8 * npre * stride, mfb := mfb, maxsize := mfb * stride, baseSize := base
          crcEn := s.cfg0.getLsbD 17, white := s.cfg0.getLsbD 16, pktlen := (s.cfg1.extractLsb' 16 8).toNat }
        desc0 := BitVec.ofNat 32 npre ||| (BitVec.ofNat 32 (2 * rep) <<< 8) ||| (BitVec.ofNat 32 base <<< 16)
        desc1 := BitVec.ofNat 32 n ||| (BitVec.ofNat 32 mfb <<< 16)
        rcv := 0, smp := [], eos := false, pos := 0
        thsum := 0, th := 0, thHold := 0, mid := 0, runlen := 0, dBytes := []
        out := []
        cfgErr := 0, srcErr := false
        st := .search }

/-! ### Session and report commands (R122 to R126), RESET (R152, R153) -/

/-- R122 to R126: NOP, ABORT, CLRERR, CLRCNT and the five reserved codes, in every state, each with everything it leaves
unchanged. -/
def Obligations.SessionCommandEffects : Prop :=
  ∀ s : State,
    exec .nop s = .next s ∧
    exec .abort s = .next { s with
      st := .idle, rcv := 0, smp := [], eos := false, pos := 0, out := [], dBytes := []
      thsum := 0, th := 0, thHold := 0, mid := 0, runlen := 0
      desc := Descriptor.zero, desc0 := 0, desc1 := 0, cfgErr := 0, srcErr := false } ∧
    exec .clrerr s = .next { s with werr := false, cmdErr := false, cfgErr := 0, lastDrop := 0 } ∧
    exec .clrcnt s = .next { s with pktCount := 0, dropLen := 0, dropCrc := 0 } ∧
    exec .reserved5 s = .next { s with cmdErr := true } ∧
    exec .reserved6 s = .next { s with cmdErr := true } ∧
    exec .reserved7 s = .next { s with cmdErr := true } ∧
    exec .reservedE s = .next { s with cmdErr := true } ∧
    exec .reservedF s = .next { s with cmdErr := true }

/-- RESET (70_reset_and_hazards.md section 1): accepted in every state; every piece of the block's state takes its reset
value, every register reads it, and both handshakes are down. That the parameters stay is R153's; that what the other
agents have pending stays and the record of beats taken starts anew is the model's choice (log entries 2 and 6). -/
def Obligations.ResetEffect : Prop :=
  ∀ s : State, ∃ t, exec .reset s = .next t ∧
    t = { State.reset with params := s.params, inputs := s.inputs, turns := s.turns } ∧
    t.st = .idle ∧ t.rcv = 0 ∧ t.pos = 0 ∧ t.eos = false ∧ t.smp = [] ∧ t.desc = Descriptor.zero ∧
    t.thsum = 0 ∧ t.th = 0 ∧ t.thHold = 0 ∧ t.mid = 0 ∧ t.runlen = 0 ∧ t.dBytes = [] ∧ t.out = [] ∧ t.popped = [] ∧
    (∀ r : Reg, t.readReg r =
      if r = .crcReg then 0x0000FFFF else if r = .whtReg then 0x000001FF
      else if r = .param0 ∨ r = .param1 ∨ r = .param2 then s.readReg r else 0) ∧
    t.rdata = 0 ∧ t.sampleReady = false ∧ t.popReady = false ∧
    exec .reset t = .next t

/-! ### Stream transactions (R127 to R130) -/

/-- SAMPLE (44_ports.md section 4). Accepted: the sample is at index `rcv` unless `rcv < pos`, every other index reads as
before, and nothing else changes but `rcv`. Not enabled: its record is the next one the sample source offers and nothing
else changes (that it is kept there is log entry 3). -/
def Obligations.SampleEffect : Prop :=
  ∀ (s : State) (d : Word) (x : Sample), sampleOperand s.params d = some x →
    (s.st.running = true → s.eos = false → s.rcv - s.pos < s.params.bufCap →
      ∃ t, exec (.smp d) s = .next t ∧ t = { s with rcv := s.rcv + 1, smp := t.smp } ∧
        (s.pos ≤ s.rcv → Memory.read t.smp s.rcv = some x) ∧ (s.rcv < s.pos → t.smp = s.smp) ∧
        ∀ k, k ≠ s.rcv → Memory.read t.smp k = Memory.read s.smp k) ∧
    (s.st.running = false ∨ s.eos = true ∨ s.params.bufCap ≤ s.rcv - s.pos →
      exec (.smp d) s = .next { s with inputs := { s.inputs with source := mkRecord 3 0 d :: s.inputs.source } })

/-- EOS (44_ports.md section 4): accepted in a running state before end-of-stream, whatever the occupancy; otherwise it
stays pending (log entry 3). -/
def Obligations.EosEffect : Prop :=
  ∀ s : State,
    (s.st.running = true → s.eos = false → exec .eos s = .next { s with eos := true }) ∧
    (s.st.running = false ∨ s.eos = true →
      exec .eos s = .next { s with inputs := { s.inputs with source := mkRecord 4 0 0 :: s.inputs.source } })

/-- R129: SRC_ERR ends a running session and discards the candidate; in IDLE, DONE and SRCERR it has no effect. -/
def Obligations.SourceErrorEffect : Prop :=
  ∀ s : State,
    (s.st = .search ∨ s.st = .phase ∨ s.st = .extract ∨ s.st = .parse →
      exec .srcerr s = .next { s with st := .srcErr, srcErr := true, dBytes := [] }) ∧
    (s.st = .idle ∨ s.st = .done ∨ s.st = .srcErr → exec .srcerr s = .next s)

/-- POP (44_ports.md section 4): in every state in which the FIFO holds a beat, the head beat leaves it and is the
response; otherwise it stays pending. How the model keeps the response and the pending record is its choice (log entries
3 and 6). -/
def Obligations.PopEffect : Prop :=
  ∀ s : State,
    (∀ b rest, s.out = b :: rest → exec .pop s = .next { s with out := rest, popped := s.popped ++ [b] }) ∧
    (s.out = [] →
      exec .pop s = .next { s with inputs := { s.inputs with sink := mkRecord 6 0 0 :: s.inputs.sink } })

/-- A record of a reserved KIND, and a SAMPLE whose DATA is not sign-extended, are refused in every state (R63, R73). That
such a SAMPLE is refused also where its handshake does not hold is the model's reading (log entry 9). -/
def Obligations.MalformedInstructionsAreRefused : Prop :=
  ∀ s : State,
    (∀ (kind : BitVec 4) (rest : BitVec 44), exec (.reservedKind kind rest) s = .refused (.reservedKind kind)) ∧
    (∀ d : Word, (d.setWidth s.params.sampleW).signExtend 32 ≠ d →
      exec (.smp d) s = .refused (.sampleNotSignExtended d))

/-! ### The synchronizer (R103 to R113) -/

/-- R103: the threshold sum is the exact sum of the T samples from `p` on, and the threshold its floor mean, the greatest
integer `q` with `q * T <= sum`; the rule's two examples with a negative sum. -/
def Obligations.ThresholdIsFloorMean : Prop :=
  ∀ (s : State), 0 < s.desc.thsize →
    s.withThreshold.thsum = (Finset.range s.desc.thsize).sum (fun i => Memory.sampleAt s.smp (s.pos + i)) ∧
    s.withThreshold.th * s.desc.thsize ≤ s.withThreshold.thsum ∧
    (∀ q : Int, q * s.desc.thsize ≤ s.withThreshold.thsum → q ≤ s.withThreshold.th) ∧
    floorDiv (-1) 32 = -1 ∧ floorDiv (-33) 32 = -2

/-- R105: the pattern test is true exactly if every bit agrees, one sample per bit, strictly above the threshold for 1. -/
def Obligations.PatternTestComparesEveryBit : Prop :=
  ∀ (w : Memory) (stride b : Nat) (t : Int) (ps : List Bool),
    patternMatch w stride t b ps = true ↔
      ∀ (j : Nat) (h : j < ps.length), decide (t < Memory.sampleAt w (b + j * stride)) = ps[j]

/-- R107: SCAN, with every sample of `pos <= k < rcv` held: the threshold is recomputed, a match holds it and goes to
PHASE, a mismatch moves by one sample and discards the one passed. It is enabled exactly by its guard. -/
def Obligations.ScanEffect : Prop :=
  ∀ s : State,
    (s.blockInstr = some .scan ↔ s.st = .search ∧ s.pos + s.desc.n * s.desc.stride ≤ s.rcv) ∧
    (s.st = .search → s.pos + s.desc.n * s.desc.stride ≤ s.rcv →
      0 < s.desc.thsize → s.desc.thsize ≤ s.desc.n * s.desc.stride →
      (∀ k, s.pos ≤ k → k < s.rcv → (Memory.read s.smp k).isSome = true) →
      ∀ sum th, sum = thresholdSum s.smp s.pos s.desc.thsize → th = floorDiv sum s.desc.thsize →
        (patternMatch s.smp s.desc.stride th s.pos s.desc.pattern = true →
          exec .scan s = .next { s with thsum := sum, th := th, thHold := th, st := .phase }) ∧
        (patternMatch s.smp s.desc.stride th s.pos s.desc.pattern = false →
          ∃ t, exec .scan s = .next t ∧ t = { s with thsum := sum, th := th, pos := s.pos + 1, smp := t.smp } ∧
            ∀ k, Memory.read t.smp k = if s.pos < k then Memory.read s.smp k else none))

/-- R108: FINISH ends the session in DONE and changes nothing else. It is enabled exactly by its guard. -/
def Obligations.FinishEffect : Prop :=
  ∀ s : State,
    (s.blockInstr = some .finish ↔ s.st = .search ∧ s.eos = true ∧ s.rcv < s.pos + s.desc.n * s.desc.stride) ∧
    (s.st = .search → s.eos = true → s.rcv < s.pos + s.desc.n * s.desc.stride →
      exec .finish s = .next { s with st := .done })

/-- R109: PHASE, with the candidate's samples held and the pattern matching at offset 0: a run is chosen, MID is its
lower middle and RUN_LEN its length. It is enabled exactly by its guard. -/
def Obligations.PhaseEffect : Prop :=
  ∀ s : State,
    (s.blockInstr = some .phase ↔ s.st = .phase ∧ (s.pos + s.desc.maxsize ≤ s.rcv ∨ s.eos = true)) ∧
    (s.st = .phase → s.pos + s.desc.maxsize ≤ s.rcv ∨ s.eos = true →
      0 < s.desc.stride → s.pos + s.desc.n * s.desc.stride ≤ s.rcv →
      (∀ k, s.pos ≤ k → k < s.rcv → (Memory.read s.smp k).isSome = true) →
      patternMatch s.smp s.desc.stride s.thHold s.pos s.desc.pattern = true →
      ∃ a b, chosenRun ((List.range s.desc.stride).map
          (fun i => patternMatch s.smp s.desc.stride s.thHold (s.pos + i) s.desc.pattern)) = some (a, b) ∧
        exec .phase s = .next { s with mid := (a + b) / 2, runlen := b - a + 1, st := .extract })

/-- R110: the chosen run is an interval of true offsets, no longer one exists, and among the longest it starts lowest;
there is none exactly if no offset is true; and the rule's six examples. -/
def Obligations.ChosenRunIsLongestThenLowest : Prop :=
  ∀ m : List Bool,
    (∀ a b, chosenRun m = some (a, b) →
      a ≤ b ∧ b < m.length ∧ (∀ i : Nat, a ≤ i → i ≤ b → m[i]? = some true) ∧
      ∀ a' b' : Nat, a' ≤ b' → (∀ i : Nat, a' ≤ i → i ≤ b' → m[i]? = some true) →
        b' - a' ≤ b - a ∧ (b' - a' = b - a → a ≤ a')) ∧
    (chosenRun m = none ↔ ∀ i : Nat, m[i]? ≠ some true) ∧
    ∀ row ∈ ([([true, true, true, true], 0, 3), ([true, true, false, true, true, true], 3, 5), ([true, false, true], 0, 0),
        ([true, true, false, false, true, true], 0, 1), ([true, false, false, true, true, true, true, false], 3, 6),
        ([true], 0, 0)] : List (List Bool × Nat × Nat)),
      chosenRun row.1 = some row.2

/-- R111 and R112: EXTRACT samples bit `j` at `pos + mid + j*S` while `j < MFB` and the index is below the look-ahead's
end, packs the bits, drops the pattern's bytes and de-whitens. It is enabled in every EXTRACT state. -/
def Obligations.ExtractEffect : Prop :=
  ∀ s : State,
    (s.blockInstr = some .extract ↔ s.st = .extract) ∧
    (s.st = .extract → (∀ k, s.pos ≤ k → k < s.rcv → (Memory.read s.smp k).isSome = true) →
      ∃ e : List Bool,
        (∀ j, j < e.length ↔ j < s.desc.mfb ∧ s.pos + s.mid + j * s.desc.stride < min s.rcv (s.pos + s.desc.maxsize)) ∧
        (∀ (j : Nat) (h : j < e.length),
          e[j] = decide (s.thHold < Memory.sampleAt s.smp (s.pos + s.mid + j * s.desc.stride))) ∧
        exec .extract s = .next { s with
          dBytes := if s.desc.white then dewhiten ((packBytes e).drop (s.desc.n / 8))
            else (packBytes e).drop (s.desc.n / 8)
          st := .parse })

/-- Packing undoes the MSB-first expansion of bytes, and drops a trailing partial byte (20_memory.md section 3, R111). -/
def Obligations.PackingUndoesMsbExpansion : Prop :=
  ∀ (bs : List Byte) (tail : List Bool), tail.length < 8 → packBytes (bitsMsb bs ++ tail) = bs

/-- With full look-ahead a candidate has exactly 259 bytes after the sync word (42_parser.md, the remark that follows
R102's list). -/
def Obligations.FullLookAheadGives259Bytes : Prop :=
  ∀ s : State, s.Inv → s.st = .extract → s.pos + s.desc.maxsize ≤ s.rcv →
    ∃ t, exec .extract s = .next t ∧ t.dBytes.length = 259

/-- R100 and R101: the parser's outcomes, LEN before SHORT before CRC. -/
def Obligations.ParserOutcomes : Prop :=
  ∀ (pktlen : Nat) (crcOn : Bool),
    parseFrame pktlen crcOn [] = .drop .short ∧
    ∀ (b : Byte) (rest : List Byte), ∀ need, need = b.toNat + 1 + (if crcOn then 2 else 0) →
      (pktlen < b.toNat → parseFrame pktlen crcOn (b :: rest) = .drop .len) ∧
      (b.toNat ≤ pktlen → (b :: rest).length < need → parseFrame pktlen crcOn (b :: rest) = .drop .short) ∧
      (b.toNat ≤ pktlen → need ≤ (b :: rest).length → crcOn = true → crc16 ((b :: rest).take need) ≠ 0 →
        parseFrame pktlen crcOn (b :: rest) = .drop .crc) ∧
      (b.toNat ≤ pktlen → need ≤ (b :: rest).length → (crcOn = true → crc16 ((b :: rest).take need) = 0) →
        parseFrame pktlen crcOn (b :: rest) = .packet { address := none, payload := rest.take b.toNat })

/-- A frame's bytes (R71), whatever follows them, parse to its payload. -/
def Obligations.FrameParsesToItsPayload : Prop :=
  ∀ (pktlen : Nat) (crcOn : Bool) (payload extra : List Byte), payload.length ≤ pktlen → pktlen ≤ 255 →
    parseFrame pktlen crcOn (frameData crcOn payload ++ extra) = .packet { address := none, payload := payload }

/-- A frame with one changed payload byte, the CRC being the original's, is dropped with ChecksumError (60_exceptions.md,
ChecksumError; the source's corruption robustness). -/
def Obligations.CorruptedFrameIsDropped : Prop :=
  ∀ (pktlen : Nat) (pre post extra : List Byte) (b b' : Byte), b ≠ b' → (pre ++ b :: post).length ≤ pktlen →
    pktlen ≤ 255 →
    parseFrame pktlen true
      (frameMessage (pre ++ b' :: post) ++ crcBytes (crc16 (frameMessage (pre ++ b :: post))) ++ extra) = .drop .crc

/-- R70: a packet is `1 + L` beats: the length with sop, then the payload in order, eop on the last and only there. -/
def Obligations.PacketBeatsLayout : Prop :=
  ∀ payload : List Byte,
    (packetBeats { address := none, payload := payload }).length = 1 + payload.length ∧
    (packetBeats { address := none, payload := payload })[0]? =
      some { data := BitVec.ofNat 8 payload.length, sop := true, eop := decide (payload.length = 0) } ∧
    ∀ (i : Nat) (h : i < payload.length), (packetBeats { address := none, payload := payload })[i + 1]? =
      some { data := payload[i], sop := false, eop := decide (i + 1 = payload.length) }

/-- R113: PARSE. It is enabled unless a packet waits for room. A packet with room is emitted whole and counted. A drop
writes LAST_DROP and one counter and needs no room. Both skip from the candidate's start, discard what is passed, empty
`D` and return to SEARCH. -/
def Obligations.ParseEffect : Prop :=
  ∀ s : State,
    (s.blockInstr = some .parse ↔ s.st = .parse ∧ ∀ p, parseFrame s.desc.pktlen s.desc.crcEn s.dBytes = .packet p →
      1 + p.payload.length ≤ s.params.outFifoCap - s.out.length) ∧
    (s.st = .parse →
      (∀ p, parseFrame s.desc.pktlen s.desc.crcEn s.dBytes = .packet p →
        1 + p.payload.length ≤ s.params.outFifoCap - s.out.length →
        ∃ t, exec .parse s = .next t ∧
          t = { s with
            out := s.out ++ packetBeats p, pktCount := s.pktCount + 1
            pos := s.pos + (s.desc.baseSize + p.payload.length) * 8 * s.desc.stride
            smp := t.smp, dBytes := [], st := .search } ∧
          ∀ k, Memory.read t.smp k = if t.pos ≤ k then Memory.read s.smp k else none) ∧
      (∀ c, parseFrame s.desc.pktlen s.desc.crcEn s.dBytes = .drop c →
        ∃ t, exec .parse s = .next t ∧
          t = { s with
            dropLen := if c = .crc then s.dropLen else s.dropLen + 1
            dropCrc := if c = .crc then s.dropCrc + 1 else s.dropCrc
            lastDrop := BitVec.ofNat 32 ((if c = .len then 1 else if c = .short then 2 else 3)
              + 256 * (s.dBytes[0]?.getD (0 : Byte)).toNat)
            pos := s.pos + s.desc.baseSize * 8 * s.desc.stride
            smp := t.smp, dBytes := [], st := .search } ∧
          ∀ k, Memory.read t.smp k = if t.pos ≤ k then Memory.read s.smp k else none))

/-! ### The whole machine -/

/-- Every step keeps the invariant of the block's state: the window holds exactly `pos <= k < rcv` and at most BUF_CAP
samples, the FIFO at most OUT_FIFO_CAP beats, the descriptor agrees with the configuration, reserved bits read 0, CFG_ERR
is at most 9, and the other clauses of `State.Inv` (R18 to R42). -/
def Obligations.StepKeepsInvariant : Prop := ∀ s t : State, s.Inv → step s = .next t → t.Inv

/-- The state after reset has the invariant. That its parameters are the example values is the model's choice (log
entry 4). -/
def Obligations.ResetHasInvariant : Prop := State.reset.Inv

/-- No state of the SBS is a fault state (60_exceptions.md section 1): from a state with the invariant a step is never a
fault, and it is refused only where the record whose turn it is is not well formed. -/
def Obligations.InvariantStepNeverFaults : Prop :=
  ∀ s : State, s.Inv →
    (∃ t, step s = .next t) ∨
    (∃ (a : Agent) (r : Record) (rest : List Record) (why : Refusal),
      (nextTurn s).1 = .agent a ∧ s.inputs.queue a = r :: rest ∧ ¬ RecordWellFormed s.params r ∧ step s = .refused why)

/-- No step changes the parameters (R153: "not changed by reset"). -/
def Obligations.StepKeepsParameters : Prop := ∀ s t : State, step s = .next t → t.params = s.params

/-- Every step keeps the window's canonical form, from every state (log entry 13). -/
def Obligations.StepKeepsWindowCanonical : Prop :=
  ∀ s t : State, Memory.wf s.smp → step s = .next t → Memory.wf t.smp

/-- Backpressure cannot deadlock the block (20_memory.md section 1): in a running state where no internal step is
enabled, a sample is accepted, unless PARSE waits for FIFO room. -/
def Obligations.WaitingBlockAcceptsSamples : Prop :=
  ∀ s : State, s.Inv → s.st.running = true → s.blockInstr = none →
    s.sampleReady = true ∨ (s.st = .parse ∧ ∃ p, s.parsed = .packet p ∧ s.room < 1 + p.payload.length)

/-- Determinism (43_synchronizer.md section 3): an enabled internal step commutes with the sample, the end-of-stream and
the pop that could come before it: it stays enabled, and both orders reach the same state. -/
def Obligations.InternalStepsCommuteWithStreams : Prop :=
  ∀ (s t : State) (i : Instr), s.Inv → s.blockInstr = some i → exec i s = .next t →
    (∀ x, s.sampleReady = true → t.sampleReady = true ∧ (s.acceptSample x).blockInstr = some i ∧
      exec i (s.acceptSample x) = .next (t.acceptSample x)) ∧
    (s.eosReady = true → t.eosReady = true ∧ ({ s with eos := true } : State).blockInstr = some i ∧
      exec i { s with eos := true } = .next { t with eos := true }) ∧
    (∀ b rest, s.out = b :: rest → t.out.head? = some b ∧
      ({ s with out := rest, popped := s.popped ++ [b] } : State).blockInstr = some i ∧
      exec i { s with out := rest, popped := s.popped ++ [b] } =
        .next { t with out := t.out.tail, popped := t.popped ++ [b] })

/-- Termination (43_synchronizer.md section 3): after end-of-stream, with nothing pending and FIFO room for what the held
samples can still carry, the block reaches DONE within `4 * (rcv - pos) + 4` steps. No turn is decided in the state, so
the run takes the model's default turns (log entry 1). -/
def Obligations.RunAfterEosReachesDone : Prop :=
  ∀ s : State, s.Inv → s.eos = true → s.st.running = true → s.inputs = Inputs.none → s.turns = [] →
    s.out.length + (s.rcv - s.pos) ≤ s.params.outFifoCap →
    ∃ (k : Nat) (t : State), k ≤ 4 * (s.rcv - s.pos) + 4 ∧ Host.Core.run Sys2Proof.core k s = .next t ∧ t.st = .done

/-- The ideal stream decodes (95_test_vectors.md S8): if the window holds, from `pos` on, the ideal samples of a frame
(R71) with S samples per bit at any two levels, and the look-ahead is held or the stream has ended, the next four turns of
the block emit exactly its packet, move the cursor past the frame and drop nothing. -/
def Obligations.IdealFrameDecodesToItsPacket : Prop :=
  ∀ (s : State) (payload : List Byte) (high low : Sample) (ts : List Turn),
    s.Inv → s.st = .search → low < high → payload.length ≤ s.desc.pktlen →
    holdsFrom s (idealSamples high low s.desc.stride (bitsMsb (frameBytes s.cfg0 s.cfg1 payload))) →
    s.lookAheadHeld = true → 1 + payload.length ≤ s.room →
    s.turns = [Turn.block, .block, .block, .block] ++ ts →
    ∃ t : State, Host.Core.run Sys2Proof.core 4 s = .next t ∧ t.st = .search ∧
      t.out = s.out ++ packetBeats { address := none, payload := payload } ∧
      t.pos = s.pos + (s.desc.baseSize + payload.length) * 8 * s.desc.stride ∧
      t.mid = (s.desc.stride - 1) / 2 ∧ t.runlen = s.desc.stride ∧
      t.pktCount = s.pktCount + 1 ∧ t.dropLen = s.dropLen ∧ t.dropCrc = s.dropCrc ∧ t.lastDrop = s.lastDrop

/-- R37: the cursor's only changes: 0 at reset, by a START that opens a session and by ABORT, `+1` in SCAN on a mismatch,
`+ skip_bits * S` in PARSE, with the `skip_bits` of its outcome (R113). A START that opens none leaves it, and within a
session it never decreases: only RESET and ABORT, which end the session, can. -/
def Obligations.CursorMovesOnlyForward : Prop :=
  State.reset.pos = 0 ∧
  (∀ s t : State, exec .reset s = .next t → t.pos = 0) ∧
  (∀ s t : State, exec .abort s = .next t → t.pos = 0) ∧
  (∀ s t : State, s.st = .idle → configError s.params s.cfg0 s.cfg2 = 0 → exec .start s = .next t → t.pos = 0) ∧
  (∀ s t : State, s.st ≠ .idle ∨ configError s.params s.cfg0 s.cfg2 ≠ 0 → exec .start s = .next t → t.pos = s.pos) ∧
  (∀ (i : Instr) (s t : State), i.wellFormed s.params = true → i ≠ .reset → i ≠ .abort → i ≠ .start →
    exec i s = .next t →
    t.pos = s.pos ∨
    (i = .scan ∧ patternMatch s.smp s.desc.stride s.withThreshold.th s.pos s.desc.pattern = false ∧
      t.pos = s.pos + 1) ∨
    (i = .parse ∧ ∃ skipBits, t.pos = s.pos + skipBits * s.desc.stride ∧
      ((∃ c, s.parsed = .drop c ∧ skipBits = s.desc.baseSize * 8) ∨
        ∃ p, s.parsed = .packet p ∧ skipBits = (s.desc.baseSize + p.payload.length) * 8))) ∧
  (∀ (i : Instr) (s t : State), i.wellFormed s.params = true → s.st ≠ .idle → i ≠ .reset → i ≠ .abort →
    exec i s = .next t → s.pos ≤ t.pos)

/-- R30: PKT_COUNT counts emitted packets, DROP_LEN and DROP_CRC dropped frames, each modulo 2^32, one for each PARSE
that happens; only CLRCNT and RESET clear them. -/
def Obligations.CountersCountParseOutcomes : Prop :=
  (∀ (i : Instr) (s t : State), i.wellFormed s.params = true → i ≠ .reset → i ≠ .clrcnt → i ≠ .parse →
    exec i s = .next t → t.pktCount = s.pktCount ∧ t.dropLen = s.dropLen ∧ t.dropCrc = s.dropCrc) ∧
  (∀ (i : Instr) (s t : State), i = .reset ∨ i = .clrcnt → exec i s = .next t →
    t.pktCount = 0 ∧ t.dropLen = 0 ∧ t.dropCrc = 0) ∧
  (∀ s t : State, s.blockInstr = some .parse → exec .parse s = .next t →
    (t.out.length > s.out.length ∧ t.pktCount = s.pktCount + 1 ∧ t.dropLen = s.dropLen ∧ t.dropCrc = s.dropCrc) ∨
    (t.out = s.out ∧ (s.parsed = .drop .len ∨ s.parsed = .drop .short) ∧
      t.pktCount = s.pktCount ∧ t.dropLen = s.dropLen + 1 ∧ t.dropCrc = s.dropCrc) ∨
    (t.out = s.out ∧ s.parsed = .drop .crc ∧
      t.pktCount = s.pktCount ∧ t.dropLen = s.dropLen ∧ t.dropCrc = s.dropCrc + 1))

/-- Port errors (60_exceptions.md section 1): WERR and CMDERR are sticky, only CLRERR and RESET clear them, only a
REG_WRITE sets WERR, only a reserved code or START outside IDLE sets CMDERR, and setting one changes no other state. -/
def Obligations.PortErrorsAreSticky : Prop :=
  ∀ (i : Instr) (s t : State), i.wellFormed s.params = true → exec i s = .next t →
    (i ≠ .clrerr → i ≠ .reset → (s.werr = true → t.werr = true) ∧ (s.cmdErr = true → t.cmdErr = true)) ∧
    (i = .clrerr ∨ i = .reset → t.werr = false ∧ t.cmdErr = false) ∧
    (s.werr = false → t.werr = true → (∃ a wdata, i = .wr a wdata) ∧ t = { s with werr := true }) ∧
    (s.cmdErr = false → t.cmdErr = true →
      (i = .reserved5 ∨ i = .reserved6 ∨ i = .reserved7 ∨ i = .reservedE ∨ i = .reservedF ∨
        (i = .start ∧ s.st ≠ .idle)) ∧ t = { s with cmdErr := true })

/-- The end of a run (70_reset_and_hazards.md section 1): in DONE or SRCERR with an empty FIFO no internal step is
enabled, no SAMPLE, EOS or POP is, and a REG_READ changes neither the beats taken nor any register. -/
def Obligations.RunEndIsFinal : Prop :=
  ∀ s : State, s.runEnded →
    s.blockInstr = none ∧ s.sampleReady = false ∧ s.eosReady = false ∧ s.popReady = false ∧
    ∀ a : BitVec 8, ∃ t, exec (.rd a) s = .next t ∧ t.runEnded ∧ t.popped = s.popped ∧ ∀ r, t.readReg r = s.readReg r
end

