-- ==== Sys2Proof/Laws/Sequences.lean ====
section
/-!
SUPPORT. Lengths of the bit and byte sequences, and how they split.
-/
namespace Sys2Proof.Machine

@[simp] theorem byteBits_length (b : Byte) : (byteBits b).length = 8 := rfl

@[simp] theorem bitsMsb_nil : bitsMsb [] = [] := rfl

@[simp] theorem bitsMsb_cons (b : Byte) (bs : List Byte) : bitsMsb (b :: bs) = byteBits b ++ bitsMsb bs := rfl

@[simp] theorem bitsMsb_append (xs ys : List Byte) : bitsMsb (xs ++ ys) = bitsMsb xs ++ bitsMsb ys := by
  simp [bitsMsb]

@[simp] theorem bitsMsb_length (bs : List Byte) : (bitsMsb bs).length = 8 * bs.length := by
  induction bs with
  | nil => rfl
  | cons b bs ih => rw [bitsMsb_cons, List.length_append, ih, byteBits_length, List.length_cons]; omega

@[simp] theorem repeatList_length (x : List Byte) (k : Nat) : (repeatList x k).length = k * x.length := by
  induction k with
  | zero => simp [repeatList]
  | succ k ih => rw [repeatList, List.length_append, ih, Nat.succ_mul, Nat.add_comm]

/-- Packing takes whole groups of 8 bits; a trailing partial byte is dropped (R111). -/
theorem packBytes_length (e : List Bool) : (packBytes e).length = e.length / 8 := by
  induction e using packBytes.induct with
  | case1 b7 b6 b5 b4 b3 b2 b1 b0 rest ih => rw [packBytes, List.length_cons, ih]; simp only [List.length_cons]; omega
  | case2 e h =>
    rw [packBytes]
    · rcases e with _ | ⟨b7, _ | ⟨b6, _ | ⟨b5, _ | ⟨b4, _ | ⟨b3, _ | ⟨b2, _ | ⟨b1, _ | ⟨b0, rest⟩⟩⟩⟩⟩⟩⟩⟩ <;>
        first | exact (h _ _ _ _ _ _ _ _ _ rfl).elim | simp
    · exact h

@[simp] theorem whitenFrom_length (v : BitVec 9) (bs : List Byte) : (whitenFrom v bs).length = bs.length := by
  induction bs generalizing v with
  | nil => rfl
  | cons b bs ih => rw [whitenFrom, List.length_cons, ih, List.length_cons]

@[simp] theorem dewhiten_length (bs : List Byte) : (dewhiten bs).length = bs.length := whitenFrom_length _ _

/-- The states of the whitening sequence are the only ones that start at the seed and step by the LFSR (R77). -/
theorem lfsrState_unique {v : Nat → BitVec 9} (h0 : v 0 = lfsrSeed) (hs : ∀ k, v (k + 1) = lfsrNext (v k)) (k : Nat) :
    v k = lfsrState k := by
  induction k with
  | zero => exact h0
  | succ k ih => rw [hs, ih, lfsrState]

@[simp] theorem crc16_nil : crc16 [] = crcSeed := rfl

/-- The CRC of a sequence continued by another goes on from the first one's register (R81). -/
theorem crc16_append (xs ys : List Byte) : crc16 (xs ++ ys) = ys.foldl crcByte (crc16 xs) := by
  simp [crc16, List.foldl_append]

@[simp] theorem crcBytes_length (c : BitVec 16) : (crcBytes c).length = 2 := rfl

@[simp] theorem payloadBeats_length (bs : List Byte) : (payloadBeats bs).length = bs.length := by
  induction bs using payloadBeats.induct with
  | case1 => rfl
  | case2 b => rfl
  | case3 b bs h ih => rw [payloadBeats, List.length_cons, ih, List.length_cons]; exact h

/-- A packet is `1 + L` beats (R70). -/
@[simp] theorem packetBeats_length (p : Packet) : (packetBeats p).length = 1 + p.payload.length := by
  rw [packetBeats, List.length_cons, payloadBeats_length, Nat.add_comm]

@[simp] theorem frameMessage_length (payload : List Byte) : (frameMessage payload).length = payload.length + 1 := rfl

/-- The bytes after the sync word number `L + 1`, and 2 more with a CRC (R71). -/
theorem frameData_length (crcOn : Bool) (payload : List Byte) :
    (frameData crcOn payload).length = frameNeed crcOn payload.length := by
  cases crcOn <;> simp [frameData, frameNeed]

@[simp] theorem idealSamples_length (high low : Sample) (stride : Nat) (bits : List Bool) :
    (idealSamples high low stride bits).length = bits.length * stride := by
  induction bits with
  | nil => simp [idealSamples]
  | cons b bits ih =>
    rw [idealSamples, List.flatMap_cons, List.length_append, List.length_replicate, ← idealSamples, ih,
      List.length_cons, Nat.succ_mul, Nat.add_comm]

end Sys2Proof.Machine
end

