-- ==== Sys2Proof/Laws/Builder.lean ====
section
/-!
SUPPORT. The bounds of the descriptor tables (R66, R67, R96) and what an accepted configuration satisfies (R92).
-/
namespace Sys2Proof.Machine

/-- `Npre` is one of {2,3,4,6,8,12,16,24} (R66). -/
theorem preambleBytes_bounds (index : Nat) : 2 ≤ preambleBytes index ∧ preambleBytes index ≤ 24 := by
  unfold preambleBytes
  split <;> decide

/-- `rep` is 0, 1 or 2 (R67). -/
theorem syncRepeats_le (mode : Nat) : syncRepeats mode ≤ 2 := by
  unfold syncRepeats
  split <;> decide

/-- `Npre` as the table of R66 has it. -/
theorem preambleBytes_lookup {index : Nat} (h : index < 8) :
    ([2, 3, 4, 6, 8, 12, 16, 24] : List Nat)[index]? = some (preambleBytes index) := by
  revert h index; decide

/-- `rep` as the table of R67 has it. -/
theorem syncRepeats_lookup (mode : Nat) : ([0, 1, 1, 2] : List Nat)[mode % 4]? = some (syncRepeats mode) := by
  unfold syncRepeats
  generalize h : mode % 4 = m
  have hm : m < 4 := h ▸ Nat.mod_lt _ (by decide)
  clear h
  revert hm m; decide

/-- NUM_PREAMBLE is an index of the table of R66. -/
theorem numPreamble_lt (cfg0 : Word) : numPreamble cfg0 < 8 := (cfg0.extractLsb' 0 3).isLt

/-- The bytes of the pattern are the preamble's and the sync word's (R95). -/
@[simp] theorem patternBytes_length (cfg0 cfg1 : Word) :
    (patternBytes cfg0 cfg1).length = preambleBytes (numPreamble cfg0) + 2 * syncRepeats (syncMode cfg0) := by
  simp [patternBytes, preamble, syncWord, Nat.mul_comm]

/-- `n` is the length of the pattern (R95). -/
theorem patternBits_eq_length (cfg0 cfg1 : Word) : patternBits cfg0 = (bitsMsb (patternBytes cfg0 cfg1)).length := by
  rw [bitsMsb_length, patternBytes_length, patternBits]

/-- What START has checked when it accepts (R92). -/
structure Accepted (p : Params) (cfg0 cfg2 : Word) : Prop where
  adrChk : adrChk cfg0 = 0
  lengthConfig : lengthConfig cfg0 = 1
  cc2400 : cc2400En cfg0 = false
  manchester : manchesterEn cfg0 = false
  fec : fecEn cfg0 = false
  repeats : 1 ≤ syncRepeats (syncMode cfg0)
  strideLow : 1 ≤ strideField cfg2
  strideHigh : strideField cfg2 ≤ p.maxStride
  lookAhead : maxFrameBits cfg0 * strideField cfg2 ≤ p.bufCap

/-- Code 0 means that no check failed (R92). -/
theorem accepted_of_configError_eq_zero {p : Params} {cfg0 cfg2 : Word} (h : configError p cfg0 cfg2 = 0) :
    Accepted p cfg0 cfg2 := by
  unfold configError at h
  repeat' split at h
  all_goals first | exact absurd h (by decide) | skip
  rename_i h1 h2 h3 h4 h5 h6 h7 h8 h9
  exact
    { adrChk := not_not.mp h1, lengthConfig := not_not.mp h2, cc2400 := by simpa using h3
      manchester := by simpa using h4, fec := by simpa using h5, repeats := by omega, strideLow := by omega
      strideHigh := by omega, lookAhead := by omega }

/-- Codes 10 to 15 are never produced (R92). -/
theorem configError_le_nine (p : Params) (cfg0 cfg2 : Word) : (configError p cfg0 cfg2).toNat ≤ 9 := by
  unfold configError
  repeat' split
  all_goals decide

/-- The threshold window lies inside the pattern window: `T <= n * S` (R97). -/
theorem thsize_le_window (cfg0 cfg1 cfg2 : Word) :
    (buildDescriptor cfg0 cfg1 cfg2).thsize ≤
      (buildDescriptor cfg0 cfg1 cfg2).n * (buildDescriptor cfg0 cfg1 cfg2).stride := by
  show 8 * preambleBytes (numPreamble cfg0) * strideField cfg2 ≤ patternBits cfg0 * strideField cfg2
  exact Nat.mul_le_mul_right _ (by unfold patternBits; omega)

end Sys2Proof.Machine
end

