-- ==== Sys2Proof/Laws/State.lean ====
section
/-!
SUPPORT. What each named update of the state does to each field: one lemma per field per update, so that no proof
unfolds a record update.
-/
namespace Sys2Proof.Machine

/-! ### The five error events, each as the record update it is (R132) -/

@[simp] theorem State.raise_configuration (c : BitVec 4) (s : State) :
    s.raise (.configuration c) = { s with cfgErr := c } := rfl

@[simp] theorem State.raise_frameDropped (c : DropCause) (s : State) : s.raise (.frameDropped c) = s.recordDrop c := rfl

@[simp] theorem State.raise_source (s : State) :
    s.raise .source = { s with st := .srcErr, srcErr := true, dBytes := [] } := rfl

@[simp] theorem State.raise_ignoredWrite (s : State) : s.raise .ignoredWrite = { s with werr := true } := rfl

@[simp] theorem State.raise_command (s : State) : s.raise .command = { s with cmdErr := true } := rfl

/-! ### `State.acceptSample` -/

@[simp] theorem State.acceptSample_params (x : Sample) (s : State) : (s.acceptSample x).params = s.params := rfl
@[simp] theorem State.acceptSample_st (x : Sample) (s : State) : (s.acceptSample x).st = s.st := rfl
@[simp] theorem State.acceptSample_cfg0 (x : Sample) (s : State) : (s.acceptSample x).cfg0 = s.cfg0 := rfl
@[simp] theorem State.acceptSample_cfg1 (x : Sample) (s : State) : (s.acceptSample x).cfg1 = s.cfg1 := rfl
@[simp] theorem State.acceptSample_cfg2 (x : Sample) (s : State) : (s.acceptSample x).cfg2 = s.cfg2 := rfl
@[simp] theorem State.acceptSample_srcErr (x : Sample) (s : State) : (s.acceptSample x).srcErr = s.srcErr := rfl
@[simp] theorem State.acceptSample_cfgErr (x : Sample) (s : State) : (s.acceptSample x).cfgErr = s.cfgErr := rfl
@[simp] theorem State.acceptSample_werr (x : Sample) (s : State) : (s.acceptSample x).werr = s.werr := rfl
@[simp] theorem State.acceptSample_cmdErr (x : Sample) (s : State) : (s.acceptSample x).cmdErr = s.cmdErr := rfl
@[simp] theorem State.acceptSample_desc0 (x : Sample) (s : State) : (s.acceptSample x).desc0 = s.desc0 := rfl
@[simp] theorem State.acceptSample_desc1 (x : Sample) (s : State) : (s.acceptSample x).desc1 = s.desc1 := rfl
@[simp] theorem State.acceptSample_pktCount (x : Sample) (s : State) : (s.acceptSample x).pktCount = s.pktCount := rfl
@[simp] theorem State.acceptSample_dropLen (x : Sample) (s : State) : (s.acceptSample x).dropLen = s.dropLen := rfl
@[simp] theorem State.acceptSample_dropCrc (x : Sample) (s : State) : (s.acceptSample x).dropCrc = s.dropCrc := rfl
@[simp] theorem State.acceptSample_lastDrop (x : Sample) (s : State) : (s.acceptSample x).lastDrop = s.lastDrop := rfl
@[simp] theorem State.acceptSample_crcReg (x : Sample) (s : State) : (s.acceptSample x).crcReg = s.crcReg := rfl
@[simp] theorem State.acceptSample_whtReg (x : Sample) (s : State) : (s.acceptSample x).whtReg = s.whtReg := rfl
@[simp] theorem State.acceptSample_codecOut (x : Sample) (s : State) : (s.acceptSample x).codecOut = s.codecOut := rfl
@[simp] theorem State.acceptSample_rcv (x : Sample) (s : State) : (s.acceptSample x).rcv = s.rcv + 1 := rfl
@[simp] theorem State.acceptSample_smp (x : Sample) (s : State) :
    (s.acceptSample x).smp = if s.pos ≤ s.rcv then Memory.write s.rcv x s.smp else s.smp := rfl
@[simp] theorem State.acceptSample_eos (x : Sample) (s : State) : (s.acceptSample x).eos = s.eos := rfl
@[simp] theorem State.acceptSample_desc (x : Sample) (s : State) : (s.acceptSample x).desc = s.desc := rfl
@[simp] theorem State.acceptSample_thsum (x : Sample) (s : State) : (s.acceptSample x).thsum = s.thsum := rfl
@[simp] theorem State.acceptSample_th (x : Sample) (s : State) : (s.acceptSample x).th = s.th := rfl
@[simp] theorem State.acceptSample_thHold (x : Sample) (s : State) : (s.acceptSample x).thHold = s.thHold := rfl
@[simp] theorem State.acceptSample_mid (x : Sample) (s : State) : (s.acceptSample x).mid = s.mid := rfl
@[simp] theorem State.acceptSample_runlen (x : Sample) (s : State) : (s.acceptSample x).runlen = s.runlen := rfl
@[simp] theorem State.acceptSample_dBytes (x : Sample) (s : State) : (s.acceptSample x).dBytes = s.dBytes := rfl
@[simp] theorem State.acceptSample_pos (x : Sample) (s : State) : (s.acceptSample x).pos = s.pos := rfl
@[simp] theorem State.acceptSample_out (x : Sample) (s : State) : (s.acceptSample x).out = s.out := rfl
@[simp] theorem State.acceptSample_rdata (x : Sample) (s : State) : (s.acceptSample x).rdata = s.rdata := rfl
@[simp] theorem State.acceptSample_popped (x : Sample) (s : State) : (s.acceptSample x).popped = s.popped := rfl
@[simp] theorem State.acceptSample_inputs (x : Sample) (s : State) : (s.acceptSample x).inputs = s.inputs := rfl
@[simp] theorem State.acceptSample_turns (x : Sample) (s : State) : (s.acceptSample x).turns = s.turns := rfl

/-! ### `State.moveTo` -/

@[simp] theorem State.moveTo_params (p : Nat) (s : State) : (s.moveTo p).params = s.params := rfl
@[simp] theorem State.moveTo_st (p : Nat) (s : State) : (s.moveTo p).st = s.st := rfl
@[simp] theorem State.moveTo_cfg0 (p : Nat) (s : State) : (s.moveTo p).cfg0 = s.cfg0 := rfl
@[simp] theorem State.moveTo_cfg1 (p : Nat) (s : State) : (s.moveTo p).cfg1 = s.cfg1 := rfl
@[simp] theorem State.moveTo_cfg2 (p : Nat) (s : State) : (s.moveTo p).cfg2 = s.cfg2 := rfl
@[simp] theorem State.moveTo_srcErr (p : Nat) (s : State) : (s.moveTo p).srcErr = s.srcErr := rfl
@[simp] theorem State.moveTo_cfgErr (p : Nat) (s : State) : (s.moveTo p).cfgErr = s.cfgErr := rfl
@[simp] theorem State.moveTo_werr (p : Nat) (s : State) : (s.moveTo p).werr = s.werr := rfl
@[simp] theorem State.moveTo_cmdErr (p : Nat) (s : State) : (s.moveTo p).cmdErr = s.cmdErr := rfl
@[simp] theorem State.moveTo_desc0 (p : Nat) (s : State) : (s.moveTo p).desc0 = s.desc0 := rfl
@[simp] theorem State.moveTo_desc1 (p : Nat) (s : State) : (s.moveTo p).desc1 = s.desc1 := rfl
@[simp] theorem State.moveTo_pktCount (p : Nat) (s : State) : (s.moveTo p).pktCount = s.pktCount := rfl
@[simp] theorem State.moveTo_dropLen (p : Nat) (s : State) : (s.moveTo p).dropLen = s.dropLen := rfl
@[simp] theorem State.moveTo_dropCrc (p : Nat) (s : State) : (s.moveTo p).dropCrc = s.dropCrc := rfl
@[simp] theorem State.moveTo_lastDrop (p : Nat) (s : State) : (s.moveTo p).lastDrop = s.lastDrop := rfl
@[simp] theorem State.moveTo_crcReg (p : Nat) (s : State) : (s.moveTo p).crcReg = s.crcReg := rfl
@[simp] theorem State.moveTo_whtReg (p : Nat) (s : State) : (s.moveTo p).whtReg = s.whtReg := rfl
@[simp] theorem State.moveTo_codecOut (p : Nat) (s : State) : (s.moveTo p).codecOut = s.codecOut := rfl
@[simp] theorem State.moveTo_rcv (p : Nat) (s : State) : (s.moveTo p).rcv = s.rcv := rfl
@[simp] theorem State.moveTo_smp (p : Nat) (s : State) : (s.moveTo p).smp = Memory.discard p s.smp := rfl
@[simp] theorem State.moveTo_eos (p : Nat) (s : State) : (s.moveTo p).eos = s.eos := rfl
@[simp] theorem State.moveTo_desc (p : Nat) (s : State) : (s.moveTo p).desc = s.desc := rfl
@[simp] theorem State.moveTo_thsum (p : Nat) (s : State) : (s.moveTo p).thsum = s.thsum := rfl
@[simp] theorem State.moveTo_th (p : Nat) (s : State) : (s.moveTo p).th = s.th := rfl
@[simp] theorem State.moveTo_thHold (p : Nat) (s : State) : (s.moveTo p).thHold = s.thHold := rfl
@[simp] theorem State.moveTo_mid (p : Nat) (s : State) : (s.moveTo p).mid = s.mid := rfl
@[simp] theorem State.moveTo_runlen (p : Nat) (s : State) : (s.moveTo p).runlen = s.runlen := rfl
@[simp] theorem State.moveTo_dBytes (p : Nat) (s : State) : (s.moveTo p).dBytes = s.dBytes := rfl
@[simp] theorem State.moveTo_pos (p : Nat) (s : State) : (s.moveTo p).pos = p := rfl
@[simp] theorem State.moveTo_out (p : Nat) (s : State) : (s.moveTo p).out = s.out := rfl
@[simp] theorem State.moveTo_rdata (p : Nat) (s : State) : (s.moveTo p).rdata = s.rdata := rfl
@[simp] theorem State.moveTo_popped (p : Nat) (s : State) : (s.moveTo p).popped = s.popped := rfl
@[simp] theorem State.moveTo_inputs (p : Nat) (s : State) : (s.moveTo p).inputs = s.inputs := rfl
@[simp] theorem State.moveTo_turns (p : Nat) (s : State) : (s.moveTo p).turns = s.turns := rfl

/-! ### `State.emit` -/

@[simp] theorem State.emit_params (bs : List Beat) (s : State) : (s.emit bs).params = s.params := rfl
@[simp] theorem State.emit_st (bs : List Beat) (s : State) : (s.emit bs).st = s.st := rfl
@[simp] theorem State.emit_cfg0 (bs : List Beat) (s : State) : (s.emit bs).cfg0 = s.cfg0 := rfl
@[simp] theorem State.emit_cfg1 (bs : List Beat) (s : State) : (s.emit bs).cfg1 = s.cfg1 := rfl
@[simp] theorem State.emit_cfg2 (bs : List Beat) (s : State) : (s.emit bs).cfg2 = s.cfg2 := rfl
@[simp] theorem State.emit_srcErr (bs : List Beat) (s : State) : (s.emit bs).srcErr = s.srcErr := rfl
@[simp] theorem State.emit_cfgErr (bs : List Beat) (s : State) : (s.emit bs).cfgErr = s.cfgErr := rfl
@[simp] theorem State.emit_werr (bs : List Beat) (s : State) : (s.emit bs).werr = s.werr := rfl
@[simp] theorem State.emit_cmdErr (bs : List Beat) (s : State) : (s.emit bs).cmdErr = s.cmdErr := rfl
@[simp] theorem State.emit_desc0 (bs : List Beat) (s : State) : (s.emit bs).desc0 = s.desc0 := rfl
@[simp] theorem State.emit_desc1 (bs : List Beat) (s : State) : (s.emit bs).desc1 = s.desc1 := rfl
@[simp] theorem State.emit_pktCount (bs : List Beat) (s : State) : (s.emit bs).pktCount = s.pktCount + 1 := rfl
@[simp] theorem State.emit_dropLen (bs : List Beat) (s : State) : (s.emit bs).dropLen = s.dropLen := rfl
@[simp] theorem State.emit_dropCrc (bs : List Beat) (s : State) : (s.emit bs).dropCrc = s.dropCrc := rfl
@[simp] theorem State.emit_lastDrop (bs : List Beat) (s : State) : (s.emit bs).lastDrop = s.lastDrop := rfl
@[simp] theorem State.emit_crcReg (bs : List Beat) (s : State) : (s.emit bs).crcReg = s.crcReg := rfl
@[simp] theorem State.emit_whtReg (bs : List Beat) (s : State) : (s.emit bs).whtReg = s.whtReg := rfl
@[simp] theorem State.emit_codecOut (bs : List Beat) (s : State) : (s.emit bs).codecOut = s.codecOut := rfl
@[simp] theorem State.emit_rcv (bs : List Beat) (s : State) : (s.emit bs).rcv = s.rcv := rfl
@[simp] theorem State.emit_smp (bs : List Beat) (s : State) : (s.emit bs).smp = s.smp := rfl
@[simp] theorem State.emit_eos (bs : List Beat) (s : State) : (s.emit bs).eos = s.eos := rfl
@[simp] theorem State.emit_desc (bs : List Beat) (s : State) : (s.emit bs).desc = s.desc := rfl
@[simp] theorem State.emit_thsum (bs : List Beat) (s : State) : (s.emit bs).thsum = s.thsum := rfl
@[simp] theorem State.emit_th (bs : List Beat) (s : State) : (s.emit bs).th = s.th := rfl
@[simp] theorem State.emit_thHold (bs : List Beat) (s : State) : (s.emit bs).thHold = s.thHold := rfl
@[simp] theorem State.emit_mid (bs : List Beat) (s : State) : (s.emit bs).mid = s.mid := rfl
@[simp] theorem State.emit_runlen (bs : List Beat) (s : State) : (s.emit bs).runlen = s.runlen := rfl
@[simp] theorem State.emit_dBytes (bs : List Beat) (s : State) : (s.emit bs).dBytes = s.dBytes := rfl
@[simp] theorem State.emit_pos (bs : List Beat) (s : State) : (s.emit bs).pos = s.pos := rfl
@[simp] theorem State.emit_out (bs : List Beat) (s : State) : (s.emit bs).out = s.out ++ bs := rfl
@[simp] theorem State.emit_rdata (bs : List Beat) (s : State) : (s.emit bs).rdata = s.rdata := rfl
@[simp] theorem State.emit_popped (bs : List Beat) (s : State) : (s.emit bs).popped = s.popped := rfl
@[simp] theorem State.emit_inputs (bs : List Beat) (s : State) : (s.emit bs).inputs = s.inputs := rfl
@[simp] theorem State.emit_turns (bs : List Beat) (s : State) : (s.emit bs).turns = s.turns := rfl

/-! ### `State.clearSession` -/

@[simp] theorem State.clearSession_params (s : State) : (s.clearSession).params = s.params := rfl
@[simp] theorem State.clearSession_st (s : State) : (s.clearSession).st = s.st := rfl
@[simp] theorem State.clearSession_cfg0 (s : State) : (s.clearSession).cfg0 = s.cfg0 := rfl
@[simp] theorem State.clearSession_cfg1 (s : State) : (s.clearSession).cfg1 = s.cfg1 := rfl
@[simp] theorem State.clearSession_cfg2 (s : State) : (s.clearSession).cfg2 = s.cfg2 := rfl
@[simp] theorem State.clearSession_srcErr (s : State) : (s.clearSession).srcErr = false := rfl
@[simp] theorem State.clearSession_cfgErr (s : State) : (s.clearSession).cfgErr = 0 := rfl
@[simp] theorem State.clearSession_werr (s : State) : (s.clearSession).werr = s.werr := rfl
@[simp] theorem State.clearSession_cmdErr (s : State) : (s.clearSession).cmdErr = s.cmdErr := rfl
@[simp] theorem State.clearSession_desc0 (s : State) : (s.clearSession).desc0 = s.desc0 := rfl
@[simp] theorem State.clearSession_desc1 (s : State) : (s.clearSession).desc1 = s.desc1 := rfl
@[simp] theorem State.clearSession_pktCount (s : State) : (s.clearSession).pktCount = s.pktCount := rfl
@[simp] theorem State.clearSession_dropLen (s : State) : (s.clearSession).dropLen = s.dropLen := rfl
@[simp] theorem State.clearSession_dropCrc (s : State) : (s.clearSession).dropCrc = s.dropCrc := rfl
@[simp] theorem State.clearSession_lastDrop (s : State) : (s.clearSession).lastDrop = s.lastDrop := rfl
@[simp] theorem State.clearSession_crcReg (s : State) : (s.clearSession).crcReg = s.crcReg := rfl
@[simp] theorem State.clearSession_whtReg (s : State) : (s.clearSession).whtReg = s.whtReg := rfl
@[simp] theorem State.clearSession_codecOut (s : State) : (s.clearSession).codecOut = s.codecOut := rfl
@[simp] theorem State.clearSession_rcv (s : State) : (s.clearSession).rcv = 0 := rfl
@[simp] theorem State.clearSession_smp (s : State) : (s.clearSession).smp = [] := rfl
@[simp] theorem State.clearSession_eos (s : State) : (s.clearSession).eos = false := rfl
@[simp] theorem State.clearSession_desc (s : State) : (s.clearSession).desc = s.desc := rfl
@[simp] theorem State.clearSession_thsum (s : State) : (s.clearSession).thsum = 0 := rfl
@[simp] theorem State.clearSession_th (s : State) : (s.clearSession).th = 0 := rfl
@[simp] theorem State.clearSession_thHold (s : State) : (s.clearSession).thHold = 0 := rfl
@[simp] theorem State.clearSession_mid (s : State) : (s.clearSession).mid = 0 := rfl
@[simp] theorem State.clearSession_runlen (s : State) : (s.clearSession).runlen = 0 := rfl
@[simp] theorem State.clearSession_dBytes (s : State) : (s.clearSession).dBytes = [] := rfl
@[simp] theorem State.clearSession_pos (s : State) : (s.clearSession).pos = 0 := rfl
@[simp] theorem State.clearSession_out (s : State) : (s.clearSession).out = [] := rfl
@[simp] theorem State.clearSession_rdata (s : State) : (s.clearSession).rdata = s.rdata := rfl
@[simp] theorem State.clearSession_popped (s : State) : (s.clearSession).popped = s.popped := rfl
@[simp] theorem State.clearSession_inputs (s : State) : (s.clearSession).inputs = s.inputs := rfl
@[simp] theorem State.clearSession_turns (s : State) : (s.clearSession).turns = s.turns := rfl

/-! ### `State.recordDrop` -/

@[simp] theorem State.recordDrop_params (c : DropCause) (s : State) : (s.recordDrop c).params = s.params := rfl
@[simp] theorem State.recordDrop_st (c : DropCause) (s : State) : (s.recordDrop c).st = s.st := rfl
@[simp] theorem State.recordDrop_cfg0 (c : DropCause) (s : State) : (s.recordDrop c).cfg0 = s.cfg0 := rfl
@[simp] theorem State.recordDrop_cfg1 (c : DropCause) (s : State) : (s.recordDrop c).cfg1 = s.cfg1 := rfl
@[simp] theorem State.recordDrop_cfg2 (c : DropCause) (s : State) : (s.recordDrop c).cfg2 = s.cfg2 := rfl
@[simp] theorem State.recordDrop_srcErr (c : DropCause) (s : State) : (s.recordDrop c).srcErr = s.srcErr := rfl
@[simp] theorem State.recordDrop_cfgErr (c : DropCause) (s : State) : (s.recordDrop c).cfgErr = s.cfgErr := rfl
@[simp] theorem State.recordDrop_werr (c : DropCause) (s : State) : (s.recordDrop c).werr = s.werr := rfl
@[simp] theorem State.recordDrop_cmdErr (c : DropCause) (s : State) : (s.recordDrop c).cmdErr = s.cmdErr := rfl
@[simp] theorem State.recordDrop_desc0 (c : DropCause) (s : State) : (s.recordDrop c).desc0 = s.desc0 := rfl
@[simp] theorem State.recordDrop_desc1 (c : DropCause) (s : State) : (s.recordDrop c).desc1 = s.desc1 := rfl
@[simp] theorem State.recordDrop_pktCount (c : DropCause) (s : State) : (s.recordDrop c).pktCount = s.pktCount := rfl
@[simp] theorem State.recordDrop_dropLen (c : DropCause) (s : State) :
    (s.recordDrop c).dropLen = if c = .crc then s.dropLen else s.dropLen + 1 := rfl
@[simp] theorem State.recordDrop_dropCrc (c : DropCause) (s : State) :
    (s.recordDrop c).dropCrc = if c = .crc then s.dropCrc + 1 else s.dropCrc := rfl
@[simp] theorem State.recordDrop_lastDrop (c : DropCause) (s : State) :
    (s.recordDrop c).lastDrop = c.code ||| ((firstByte s.dBytes).setWidth 32 <<< 8) := rfl
@[simp] theorem State.recordDrop_crcReg (c : DropCause) (s : State) : (s.recordDrop c).crcReg = s.crcReg := rfl
@[simp] theorem State.recordDrop_whtReg (c : DropCause) (s : State) : (s.recordDrop c).whtReg = s.whtReg := rfl
@[simp] theorem State.recordDrop_codecOut (c : DropCause) (s : State) : (s.recordDrop c).codecOut = s.codecOut := rfl
@[simp] theorem State.recordDrop_rcv (c : DropCause) (s : State) : (s.recordDrop c).rcv = s.rcv := rfl
@[simp] theorem State.recordDrop_smp (c : DropCause) (s : State) : (s.recordDrop c).smp = s.smp := rfl
@[simp] theorem State.recordDrop_eos (c : DropCause) (s : State) : (s.recordDrop c).eos = s.eos := rfl
@[simp] theorem State.recordDrop_desc (c : DropCause) (s : State) : (s.recordDrop c).desc = s.desc := rfl
@[simp] theorem State.recordDrop_thsum (c : DropCause) (s : State) : (s.recordDrop c).thsum = s.thsum := rfl
@[simp] theorem State.recordDrop_th (c : DropCause) (s : State) : (s.recordDrop c).th = s.th := rfl
@[simp] theorem State.recordDrop_thHold (c : DropCause) (s : State) : (s.recordDrop c).thHold = s.thHold := rfl
@[simp] theorem State.recordDrop_mid (c : DropCause) (s : State) : (s.recordDrop c).mid = s.mid := rfl
@[simp] theorem State.recordDrop_runlen (c : DropCause) (s : State) : (s.recordDrop c).runlen = s.runlen := rfl
@[simp] theorem State.recordDrop_dBytes (c : DropCause) (s : State) : (s.recordDrop c).dBytes = s.dBytes := rfl
@[simp] theorem State.recordDrop_pos (c : DropCause) (s : State) : (s.recordDrop c).pos = s.pos := rfl
@[simp] theorem State.recordDrop_out (c : DropCause) (s : State) : (s.recordDrop c).out = s.out := rfl
@[simp] theorem State.recordDrop_rdata (c : DropCause) (s : State) : (s.recordDrop c).rdata = s.rdata := rfl
@[simp] theorem State.recordDrop_popped (c : DropCause) (s : State) : (s.recordDrop c).popped = s.popped := rfl
@[simp] theorem State.recordDrop_inputs (c : DropCause) (s : State) : (s.recordDrop c).inputs = s.inputs := rfl
@[simp] theorem State.recordDrop_turns (c : DropCause) (s : State) : (s.recordDrop c).turns = s.turns := rfl

/-! ### `State.clearErrors` -/

@[simp] theorem State.clearErrors_params (s : State) : (s.clearErrors).params = s.params := rfl
@[simp] theorem State.clearErrors_st (s : State) : (s.clearErrors).st = s.st := rfl
@[simp] theorem State.clearErrors_cfg0 (s : State) : (s.clearErrors).cfg0 = s.cfg0 := rfl
@[simp] theorem State.clearErrors_cfg1 (s : State) : (s.clearErrors).cfg1 = s.cfg1 := rfl
@[simp] theorem State.clearErrors_cfg2 (s : State) : (s.clearErrors).cfg2 = s.cfg2 := rfl
@[simp] theorem State.clearErrors_srcErr (s : State) : (s.clearErrors).srcErr = s.srcErr := rfl
@[simp] theorem State.clearErrors_cfgErr (s : State) : (s.clearErrors).cfgErr = 0 := rfl
@[simp] theorem State.clearErrors_werr (s : State) : (s.clearErrors).werr = false := rfl
@[simp] theorem State.clearErrors_cmdErr (s : State) : (s.clearErrors).cmdErr = false := rfl
@[simp] theorem State.clearErrors_desc0 (s : State) : (s.clearErrors).desc0 = s.desc0 := rfl
@[simp] theorem State.clearErrors_desc1 (s : State) : (s.clearErrors).desc1 = s.desc1 := rfl
@[simp] theorem State.clearErrors_pktCount (s : State) : (s.clearErrors).pktCount = s.pktCount := rfl
@[simp] theorem State.clearErrors_dropLen (s : State) : (s.clearErrors).dropLen = s.dropLen := rfl
@[simp] theorem State.clearErrors_dropCrc (s : State) : (s.clearErrors).dropCrc = s.dropCrc := rfl
@[simp] theorem State.clearErrors_lastDrop (s : State) : (s.clearErrors).lastDrop = 0 := rfl
@[simp] theorem State.clearErrors_crcReg (s : State) : (s.clearErrors).crcReg = s.crcReg := rfl
@[simp] theorem State.clearErrors_whtReg (s : State) : (s.clearErrors).whtReg = s.whtReg := rfl
@[simp] theorem State.clearErrors_codecOut (s : State) : (s.clearErrors).codecOut = s.codecOut := rfl
@[simp] theorem State.clearErrors_rcv (s : State) : (s.clearErrors).rcv = s.rcv := rfl
@[simp] theorem State.clearErrors_smp (s : State) : (s.clearErrors).smp = s.smp := rfl
@[simp] theorem State.clearErrors_eos (s : State) : (s.clearErrors).eos = s.eos := rfl
@[simp] theorem State.clearErrors_desc (s : State) : (s.clearErrors).desc = s.desc := rfl
@[simp] theorem State.clearErrors_thsum (s : State) : (s.clearErrors).thsum = s.thsum := rfl
@[simp] theorem State.clearErrors_th (s : State) : (s.clearErrors).th = s.th := rfl
@[simp] theorem State.clearErrors_thHold (s : State) : (s.clearErrors).thHold = s.thHold := rfl
@[simp] theorem State.clearErrors_mid (s : State) : (s.clearErrors).mid = s.mid := rfl
@[simp] theorem State.clearErrors_runlen (s : State) : (s.clearErrors).runlen = s.runlen := rfl
@[simp] theorem State.clearErrors_dBytes (s : State) : (s.clearErrors).dBytes = s.dBytes := rfl
@[simp] theorem State.clearErrors_pos (s : State) : (s.clearErrors).pos = s.pos := rfl
@[simp] theorem State.clearErrors_out (s : State) : (s.clearErrors).out = s.out := rfl
@[simp] theorem State.clearErrors_rdata (s : State) : (s.clearErrors).rdata = s.rdata := rfl
@[simp] theorem State.clearErrors_popped (s : State) : (s.clearErrors).popped = s.popped := rfl
@[simp] theorem State.clearErrors_inputs (s : State) : (s.clearErrors).inputs = s.inputs := rfl
@[simp] theorem State.clearErrors_turns (s : State) : (s.clearErrors).turns = s.turns := rfl

/-! ### `State.openSession` -/

@[simp] theorem State.openSession_params (s : State) : (s.openSession).params = s.params := rfl
@[simp] theorem State.openSession_st (s : State) : (s.openSession).st = .search := rfl
@[simp] theorem State.openSession_cfg0 (s : State) : (s.openSession).cfg0 = s.cfg0 := rfl
@[simp] theorem State.openSession_cfg1 (s : State) : (s.openSession).cfg1 = s.cfg1 := rfl
@[simp] theorem State.openSession_cfg2 (s : State) : (s.openSession).cfg2 = s.cfg2 := rfl
@[simp] theorem State.openSession_srcErr (s : State) : (s.openSession).srcErr = false := rfl
@[simp] theorem State.openSession_cfgErr (s : State) : (s.openSession).cfgErr = 0 := rfl
@[simp] theorem State.openSession_werr (s : State) : (s.openSession).werr = s.werr := rfl
@[simp] theorem State.openSession_cmdErr (s : State) : (s.openSession).cmdErr = s.cmdErr := rfl
@[simp] theorem State.openSession_desc0 (s : State) :
    (s.openSession).desc0 = Descriptor.word0 (buildDescriptor s.cfg0 s.cfg1 s.cfg2) := rfl
@[simp] theorem State.openSession_desc1 (s : State) :
    (s.openSession).desc1 = Descriptor.word1 (buildDescriptor s.cfg0 s.cfg1 s.cfg2) := rfl
@[simp] theorem State.openSession_pktCount (s : State) : (s.openSession).pktCount = s.pktCount := rfl
@[simp] theorem State.openSession_dropLen (s : State) : (s.openSession).dropLen = s.dropLen := rfl
@[simp] theorem State.openSession_dropCrc (s : State) : (s.openSession).dropCrc = s.dropCrc := rfl
@[simp] theorem State.openSession_lastDrop (s : State) : (s.openSession).lastDrop = s.lastDrop := rfl
@[simp] theorem State.openSession_crcReg (s : State) : (s.openSession).crcReg = s.crcReg := rfl
@[simp] theorem State.openSession_whtReg (s : State) : (s.openSession).whtReg = s.whtReg := rfl
@[simp] theorem State.openSession_codecOut (s : State) : (s.openSession).codecOut = s.codecOut := rfl
@[simp] theorem State.openSession_rcv (s : State) : (s.openSession).rcv = 0 := rfl
@[simp] theorem State.openSession_smp (s : State) : (s.openSession).smp = [] := rfl
@[simp] theorem State.openSession_eos (s : State) : (s.openSession).eos = false := rfl
@[simp] theorem State.openSession_desc (s : State) :
    (s.openSession).desc = buildDescriptor s.cfg0 s.cfg1 s.cfg2 := rfl
@[simp] theorem State.openSession_thsum (s : State) : (s.openSession).thsum = 0 := rfl
@[simp] theorem State.openSession_th (s : State) : (s.openSession).th = 0 := rfl
@[simp] theorem State.openSession_thHold (s : State) : (s.openSession).thHold = 0 := rfl
@[simp] theorem State.openSession_mid (s : State) : (s.openSession).mid = 0 := rfl
@[simp] theorem State.openSession_runlen (s : State) : (s.openSession).runlen = 0 := rfl
@[simp] theorem State.openSession_dBytes (s : State) : (s.openSession).dBytes = [] := rfl
@[simp] theorem State.openSession_pos (s : State) : (s.openSession).pos = 0 := rfl
@[simp] theorem State.openSession_out (s : State) : (s.openSession).out = [] := rfl
@[simp] theorem State.openSession_rdata (s : State) : (s.openSession).rdata = s.rdata := rfl
@[simp] theorem State.openSession_popped (s : State) : (s.openSession).popped = s.popped := rfl
@[simp] theorem State.openSession_inputs (s : State) : (s.openSession).inputs = s.inputs := rfl
@[simp] theorem State.openSession_turns (s : State) : (s.openSession).turns = s.turns := rfl

/-! ### `State.closeSession` -/

@[simp] theorem State.closeSession_params (s : State) : (s.closeSession).params = s.params := rfl
@[simp] theorem State.closeSession_st (s : State) : (s.closeSession).st = .idle := rfl
@[simp] theorem State.closeSession_cfg0 (s : State) : (s.closeSession).cfg0 = s.cfg0 := rfl
@[simp] theorem State.closeSession_cfg1 (s : State) : (s.closeSession).cfg1 = s.cfg1 := rfl
@[simp] theorem State.closeSession_cfg2 (s : State) : (s.closeSession).cfg2 = s.cfg2 := rfl
@[simp] theorem State.closeSession_srcErr (s : State) : (s.closeSession).srcErr = false := rfl
@[simp] theorem State.closeSession_cfgErr (s : State) : (s.closeSession).cfgErr = 0 := rfl
@[simp] theorem State.closeSession_werr (s : State) : (s.closeSession).werr = s.werr := rfl
@[simp] theorem State.closeSession_cmdErr (s : State) : (s.closeSession).cmdErr = s.cmdErr := rfl
@[simp] theorem State.closeSession_desc0 (s : State) : (s.closeSession).desc0 = 0 := rfl
@[simp] theorem State.closeSession_desc1 (s : State) : (s.closeSession).desc1 = 0 := rfl
@[simp] theorem State.closeSession_pktCount (s : State) : (s.closeSession).pktCount = s.pktCount := rfl
@[simp] theorem State.closeSession_dropLen (s : State) : (s.closeSession).dropLen = s.dropLen := rfl
@[simp] theorem State.closeSession_dropCrc (s : State) : (s.closeSession).dropCrc = s.dropCrc := rfl
@[simp] theorem State.closeSession_lastDrop (s : State) : (s.closeSession).lastDrop = s.lastDrop := rfl
@[simp] theorem State.closeSession_crcReg (s : State) : (s.closeSession).crcReg = s.crcReg := rfl
@[simp] theorem State.closeSession_whtReg (s : State) : (s.closeSession).whtReg = s.whtReg := rfl
@[simp] theorem State.closeSession_codecOut (s : State) : (s.closeSession).codecOut = s.codecOut := rfl
@[simp] theorem State.closeSession_rcv (s : State) : (s.closeSession).rcv = 0 := rfl
@[simp] theorem State.closeSession_smp (s : State) : (s.closeSession).smp = [] := rfl
@[simp] theorem State.closeSession_eos (s : State) : (s.closeSession).eos = false := rfl
@[simp] theorem State.closeSession_desc (s : State) : (s.closeSession).desc = Descriptor.zero := rfl
@[simp] theorem State.closeSession_thsum (s : State) : (s.closeSession).thsum = 0 := rfl
@[simp] theorem State.closeSession_th (s : State) : (s.closeSession).th = 0 := rfl
@[simp] theorem State.closeSession_thHold (s : State) : (s.closeSession).thHold = 0 := rfl
@[simp] theorem State.closeSession_mid (s : State) : (s.closeSession).mid = 0 := rfl
@[simp] theorem State.closeSession_runlen (s : State) : (s.closeSession).runlen = 0 := rfl
@[simp] theorem State.closeSession_dBytes (s : State) : (s.closeSession).dBytes = [] := rfl
@[simp] theorem State.closeSession_pos (s : State) : (s.closeSession).pos = 0 := rfl
@[simp] theorem State.closeSession_out (s : State) : (s.closeSession).out = [] := rfl
@[simp] theorem State.closeSession_rdata (s : State) : (s.closeSession).rdata = s.rdata := rfl
@[simp] theorem State.closeSession_popped (s : State) : (s.closeSession).popped = s.popped := rfl
@[simp] theorem State.closeSession_inputs (s : State) : (s.closeSession).inputs = s.inputs := rfl
@[simp] theorem State.closeSession_turns (s : State) : (s.closeSession).turns = s.turns := rfl

/-! ### `State.resetBlock` -/

@[simp] theorem State.resetBlock_params (s : State) : (s.resetBlock).params = s.params := rfl
@[simp] theorem State.resetBlock_st (s : State) : (s.resetBlock).st = State.reset.st := rfl
@[simp] theorem State.resetBlock_cfg0 (s : State) : (s.resetBlock).cfg0 = State.reset.cfg0 := rfl
@[simp] theorem State.resetBlock_cfg1 (s : State) : (s.resetBlock).cfg1 = State.reset.cfg1 := rfl
@[simp] theorem State.resetBlock_cfg2 (s : State) : (s.resetBlock).cfg2 = State.reset.cfg2 := rfl
@[simp] theorem State.resetBlock_srcErr (s : State) : (s.resetBlock).srcErr = State.reset.srcErr := rfl
@[simp] theorem State.resetBlock_cfgErr (s : State) : (s.resetBlock).cfgErr = State.reset.cfgErr := rfl
@[simp] theorem State.resetBlock_werr (s : State) : (s.resetBlock).werr = State.reset.werr := rfl
@[simp] theorem State.resetBlock_cmdErr (s : State) : (s.resetBlock).cmdErr = State.reset.cmdErr := rfl
@[simp] theorem State.resetBlock_desc0 (s : State) : (s.resetBlock).desc0 = State.reset.desc0 := rfl
@[simp] theorem State.resetBlock_desc1 (s : State) : (s.resetBlock).desc1 = State.reset.desc1 := rfl
@[simp] theorem State.resetBlock_pktCount (s : State) : (s.resetBlock).pktCount = State.reset.pktCount := rfl
@[simp] theorem State.resetBlock_dropLen (s : State) : (s.resetBlock).dropLen = State.reset.dropLen := rfl
@[simp] theorem State.resetBlock_dropCrc (s : State) : (s.resetBlock).dropCrc = State.reset.dropCrc := rfl
@[simp] theorem State.resetBlock_lastDrop (s : State) : (s.resetBlock).lastDrop = State.reset.lastDrop := rfl
@[simp] theorem State.resetBlock_crcReg (s : State) : (s.resetBlock).crcReg = State.reset.crcReg := rfl
@[simp] theorem State.resetBlock_whtReg (s : State) : (s.resetBlock).whtReg = State.reset.whtReg := rfl
@[simp] theorem State.resetBlock_codecOut (s : State) : (s.resetBlock).codecOut = State.reset.codecOut := rfl
@[simp] theorem State.resetBlock_rcv (s : State) : (s.resetBlock).rcv = State.reset.rcv := rfl
@[simp] theorem State.resetBlock_smp (s : State) : (s.resetBlock).smp = State.reset.smp := rfl
@[simp] theorem State.resetBlock_eos (s : State) : (s.resetBlock).eos = State.reset.eos := rfl
@[simp] theorem State.resetBlock_desc (s : State) : (s.resetBlock).desc = State.reset.desc := rfl
@[simp] theorem State.resetBlock_thsum (s : State) : (s.resetBlock).thsum = State.reset.thsum := rfl
@[simp] theorem State.resetBlock_th (s : State) : (s.resetBlock).th = State.reset.th := rfl
@[simp] theorem State.resetBlock_thHold (s : State) : (s.resetBlock).thHold = State.reset.thHold := rfl
@[simp] theorem State.resetBlock_mid (s : State) : (s.resetBlock).mid = State.reset.mid := rfl
@[simp] theorem State.resetBlock_runlen (s : State) : (s.resetBlock).runlen = State.reset.runlen := rfl
@[simp] theorem State.resetBlock_dBytes (s : State) : (s.resetBlock).dBytes = State.reset.dBytes := rfl
@[simp] theorem State.resetBlock_pos (s : State) : (s.resetBlock).pos = State.reset.pos := rfl
@[simp] theorem State.resetBlock_out (s : State) : (s.resetBlock).out = State.reset.out := rfl
@[simp] theorem State.resetBlock_rdata (s : State) : (s.resetBlock).rdata = State.reset.rdata := rfl
@[simp] theorem State.resetBlock_popped (s : State) : (s.resetBlock).popped = State.reset.popped := rfl
@[simp] theorem State.resetBlock_inputs (s : State) : (s.resetBlock).inputs = s.inputs := rfl
@[simp] theorem State.resetBlock_turns (s : State) : (s.resetBlock).turns = s.turns := rfl

/-! ### `State.withThreshold` -/

@[simp] theorem State.withThreshold_params (s : State) : (s.withThreshold).params = s.params := rfl
@[simp] theorem State.withThreshold_st (s : State) : (s.withThreshold).st = s.st := rfl
@[simp] theorem State.withThreshold_cfg0 (s : State) : (s.withThreshold).cfg0 = s.cfg0 := rfl
@[simp] theorem State.withThreshold_cfg1 (s : State) : (s.withThreshold).cfg1 = s.cfg1 := rfl
@[simp] theorem State.withThreshold_cfg2 (s : State) : (s.withThreshold).cfg2 = s.cfg2 := rfl
@[simp] theorem State.withThreshold_srcErr (s : State) : (s.withThreshold).srcErr = s.srcErr := rfl
@[simp] theorem State.withThreshold_cfgErr (s : State) : (s.withThreshold).cfgErr = s.cfgErr := rfl
@[simp] theorem State.withThreshold_werr (s : State) : (s.withThreshold).werr = s.werr := rfl
@[simp] theorem State.withThreshold_cmdErr (s : State) : (s.withThreshold).cmdErr = s.cmdErr := rfl
@[simp] theorem State.withThreshold_desc0 (s : State) : (s.withThreshold).desc0 = s.desc0 := rfl
@[simp] theorem State.withThreshold_desc1 (s : State) : (s.withThreshold).desc1 = s.desc1 := rfl
@[simp] theorem State.withThreshold_pktCount (s : State) : (s.withThreshold).pktCount = s.pktCount := rfl
@[simp] theorem State.withThreshold_dropLen (s : State) : (s.withThreshold).dropLen = s.dropLen := rfl
@[simp] theorem State.withThreshold_dropCrc (s : State) : (s.withThreshold).dropCrc = s.dropCrc := rfl
@[simp] theorem State.withThreshold_lastDrop (s : State) : (s.withThreshold).lastDrop = s.lastDrop := rfl
@[simp] theorem State.withThreshold_crcReg (s : State) : (s.withThreshold).crcReg = s.crcReg := rfl
@[simp] theorem State.withThreshold_whtReg (s : State) : (s.withThreshold).whtReg = s.whtReg := rfl
@[simp] theorem State.withThreshold_codecOut (s : State) : (s.withThreshold).codecOut = s.codecOut := rfl
@[simp] theorem State.withThreshold_rcv (s : State) : (s.withThreshold).rcv = s.rcv := rfl
@[simp] theorem State.withThreshold_smp (s : State) : (s.withThreshold).smp = s.smp := rfl
@[simp] theorem State.withThreshold_eos (s : State) : (s.withThreshold).eos = s.eos := rfl
@[simp] theorem State.withThreshold_desc (s : State) : (s.withThreshold).desc = s.desc := rfl
@[simp] theorem State.withThreshold_thsum (s : State) :
    (s.withThreshold).thsum = thresholdSum s.smp s.pos s.desc.thsize := rfl
@[simp] theorem State.withThreshold_th (s : State) :
    (s.withThreshold).th = floorDiv (thresholdSum s.smp s.pos s.desc.thsize) s.desc.thsize := rfl
@[simp] theorem State.withThreshold_thHold (s : State) : (s.withThreshold).thHold = s.thHold := rfl
@[simp] theorem State.withThreshold_mid (s : State) : (s.withThreshold).mid = s.mid := rfl
@[simp] theorem State.withThreshold_runlen (s : State) : (s.withThreshold).runlen = s.runlen := rfl
@[simp] theorem State.withThreshold_dBytes (s : State) : (s.withThreshold).dBytes = s.dBytes := rfl
@[simp] theorem State.withThreshold_pos (s : State) : (s.withThreshold).pos = s.pos := rfl
@[simp] theorem State.withThreshold_out (s : State) : (s.withThreshold).out = s.out := rfl
@[simp] theorem State.withThreshold_rdata (s : State) : (s.withThreshold).rdata = s.rdata := rfl
@[simp] theorem State.withThreshold_popped (s : State) : (s.withThreshold).popped = s.popped := rfl
@[simp] theorem State.withThreshold_inputs (s : State) : (s.withThreshold).inputs = s.inputs := rfl
@[simp] theorem State.withThreshold_turns (s : State) : (s.withThreshold).turns = s.turns := rfl

/-! ### `State.skipFrame` -/

@[simp] theorem State.skipFrame_params (n : Nat) (s : State) : (s.skipFrame n).params = s.params := rfl
@[simp] theorem State.skipFrame_st (n : Nat) (s : State) : (s.skipFrame n).st = .search := rfl
@[simp] theorem State.skipFrame_cfg0 (n : Nat) (s : State) : (s.skipFrame n).cfg0 = s.cfg0 := rfl
@[simp] theorem State.skipFrame_cfg1 (n : Nat) (s : State) : (s.skipFrame n).cfg1 = s.cfg1 := rfl
@[simp] theorem State.skipFrame_cfg2 (n : Nat) (s : State) : (s.skipFrame n).cfg2 = s.cfg2 := rfl
@[simp] theorem State.skipFrame_srcErr (n : Nat) (s : State) : (s.skipFrame n).srcErr = s.srcErr := rfl
@[simp] theorem State.skipFrame_cfgErr (n : Nat) (s : State) : (s.skipFrame n).cfgErr = s.cfgErr := rfl
@[simp] theorem State.skipFrame_werr (n : Nat) (s : State) : (s.skipFrame n).werr = s.werr := rfl
@[simp] theorem State.skipFrame_cmdErr (n : Nat) (s : State) : (s.skipFrame n).cmdErr = s.cmdErr := rfl
@[simp] theorem State.skipFrame_desc0 (n : Nat) (s : State) : (s.skipFrame n).desc0 = s.desc0 := rfl
@[simp] theorem State.skipFrame_desc1 (n : Nat) (s : State) : (s.skipFrame n).desc1 = s.desc1 := rfl
@[simp] theorem State.skipFrame_pktCount (n : Nat) (s : State) : (s.skipFrame n).pktCount = s.pktCount := rfl
@[simp] theorem State.skipFrame_dropLen (n : Nat) (s : State) : (s.skipFrame n).dropLen = s.dropLen := rfl
@[simp] theorem State.skipFrame_dropCrc (n : Nat) (s : State) : (s.skipFrame n).dropCrc = s.dropCrc := rfl
@[simp] theorem State.skipFrame_lastDrop (n : Nat) (s : State) : (s.skipFrame n).lastDrop = s.lastDrop := rfl
@[simp] theorem State.skipFrame_crcReg (n : Nat) (s : State) : (s.skipFrame n).crcReg = s.crcReg := rfl
@[simp] theorem State.skipFrame_whtReg (n : Nat) (s : State) : (s.skipFrame n).whtReg = s.whtReg := rfl
@[simp] theorem State.skipFrame_codecOut (n : Nat) (s : State) : (s.skipFrame n).codecOut = s.codecOut := rfl
@[simp] theorem State.skipFrame_rcv (n : Nat) (s : State) : (s.skipFrame n).rcv = s.rcv := rfl
@[simp] theorem State.skipFrame_smp (n : Nat) (s : State) :
    (s.skipFrame n).smp = Memory.discard (s.pos + n * s.desc.stride) s.smp := rfl
@[simp] theorem State.skipFrame_eos (n : Nat) (s : State) : (s.skipFrame n).eos = s.eos := rfl
@[simp] theorem State.skipFrame_desc (n : Nat) (s : State) : (s.skipFrame n).desc = s.desc := rfl
@[simp] theorem State.skipFrame_thsum (n : Nat) (s : State) : (s.skipFrame n).thsum = s.thsum := rfl
@[simp] theorem State.skipFrame_th (n : Nat) (s : State) : (s.skipFrame n).th = s.th := rfl
@[simp] theorem State.skipFrame_thHold (n : Nat) (s : State) : (s.skipFrame n).thHold = s.thHold := rfl
@[simp] theorem State.skipFrame_mid (n : Nat) (s : State) : (s.skipFrame n).mid = s.mid := rfl
@[simp] theorem State.skipFrame_runlen (n : Nat) (s : State) : (s.skipFrame n).runlen = s.runlen := rfl
@[simp] theorem State.skipFrame_dBytes (n : Nat) (s : State) : (s.skipFrame n).dBytes = [] := rfl
@[simp] theorem State.skipFrame_pos (n : Nat) (s : State) : (s.skipFrame n).pos = s.pos + n * s.desc.stride := rfl
@[simp] theorem State.skipFrame_out (n : Nat) (s : State) : (s.skipFrame n).out = s.out := rfl
@[simp] theorem State.skipFrame_rdata (n : Nat) (s : State) : (s.skipFrame n).rdata = s.rdata := rfl
@[simp] theorem State.skipFrame_popped (n : Nat) (s : State) : (s.skipFrame n).popped = s.popped := rfl
@[simp] theorem State.skipFrame_inputs (n : Nat) (s : State) : (s.skipFrame n).inputs = s.inputs := rfl
@[simp] theorem State.skipFrame_turns (n : Nat) (s : State) : (s.skipFrame n).turns = s.turns := rfl

/-! ### `State.emitPacket` -/

@[simp] theorem State.emitPacket_params (p : Packet) (s : State) : (s.emitPacket p).params = s.params := rfl
@[simp] theorem State.emitPacket_st (p : Packet) (s : State) : (s.emitPacket p).st = .search := rfl
@[simp] theorem State.emitPacket_cfg0 (p : Packet) (s : State) : (s.emitPacket p).cfg0 = s.cfg0 := rfl
@[simp] theorem State.emitPacket_cfg1 (p : Packet) (s : State) : (s.emitPacket p).cfg1 = s.cfg1 := rfl
@[simp] theorem State.emitPacket_cfg2 (p : Packet) (s : State) : (s.emitPacket p).cfg2 = s.cfg2 := rfl
@[simp] theorem State.emitPacket_srcErr (p : Packet) (s : State) : (s.emitPacket p).srcErr = s.srcErr := rfl
@[simp] theorem State.emitPacket_cfgErr (p : Packet) (s : State) : (s.emitPacket p).cfgErr = s.cfgErr := rfl
@[simp] theorem State.emitPacket_werr (p : Packet) (s : State) : (s.emitPacket p).werr = s.werr := rfl
@[simp] theorem State.emitPacket_cmdErr (p : Packet) (s : State) : (s.emitPacket p).cmdErr = s.cmdErr := rfl
@[simp] theorem State.emitPacket_desc0 (p : Packet) (s : State) : (s.emitPacket p).desc0 = s.desc0 := rfl
@[simp] theorem State.emitPacket_desc1 (p : Packet) (s : State) : (s.emitPacket p).desc1 = s.desc1 := rfl
@[simp] theorem State.emitPacket_pktCount (p : Packet) (s : State) : (s.emitPacket p).pktCount = s.pktCount + 1 := rfl
@[simp] theorem State.emitPacket_dropLen (p : Packet) (s : State) : (s.emitPacket p).dropLen = s.dropLen := rfl
@[simp] theorem State.emitPacket_dropCrc (p : Packet) (s : State) : (s.emitPacket p).dropCrc = s.dropCrc := rfl
@[simp] theorem State.emitPacket_lastDrop (p : Packet) (s : State) : (s.emitPacket p).lastDrop = s.lastDrop := rfl
@[simp] theorem State.emitPacket_crcReg (p : Packet) (s : State) : (s.emitPacket p).crcReg = s.crcReg := rfl
@[simp] theorem State.emitPacket_whtReg (p : Packet) (s : State) : (s.emitPacket p).whtReg = s.whtReg := rfl
@[simp] theorem State.emitPacket_codecOut (p : Packet) (s : State) : (s.emitPacket p).codecOut = s.codecOut := rfl
@[simp] theorem State.emitPacket_rcv (p : Packet) (s : State) : (s.emitPacket p).rcv = s.rcv := rfl
@[simp] theorem State.emitPacket_smp (p : Packet) (s : State) :
    (s.emitPacket p).smp = Memory.discard (s.pos + (s.desc.baseSize + p.payload.length) * 8 * s.desc.stride) s.smp := rfl
@[simp] theorem State.emitPacket_eos (p : Packet) (s : State) : (s.emitPacket p).eos = s.eos := rfl
@[simp] theorem State.emitPacket_desc (p : Packet) (s : State) : (s.emitPacket p).desc = s.desc := rfl
@[simp] theorem State.emitPacket_thsum (p : Packet) (s : State) : (s.emitPacket p).thsum = s.thsum := rfl
@[simp] theorem State.emitPacket_th (p : Packet) (s : State) : (s.emitPacket p).th = s.th := rfl
@[simp] theorem State.emitPacket_thHold (p : Packet) (s : State) : (s.emitPacket p).thHold = s.thHold := rfl
@[simp] theorem State.emitPacket_mid (p : Packet) (s : State) : (s.emitPacket p).mid = s.mid := rfl
@[simp] theorem State.emitPacket_runlen (p : Packet) (s : State) : (s.emitPacket p).runlen = s.runlen := rfl
@[simp] theorem State.emitPacket_dBytes (p : Packet) (s : State) : (s.emitPacket p).dBytes = [] := rfl
@[simp] theorem State.emitPacket_pos (p : Packet) (s : State) :
    (s.emitPacket p).pos = s.pos + (s.desc.baseSize + p.payload.length) * 8 * s.desc.stride := rfl
@[simp] theorem State.emitPacket_out (p : Packet) (s : State) : (s.emitPacket p).out = s.out ++ packetBeats p := rfl
@[simp] theorem State.emitPacket_rdata (p : Packet) (s : State) : (s.emitPacket p).rdata = s.rdata := rfl
@[simp] theorem State.emitPacket_popped (p : Packet) (s : State) : (s.emitPacket p).popped = s.popped := rfl
@[simp] theorem State.emitPacket_inputs (p : Packet) (s : State) : (s.emitPacket p).inputs = s.inputs := rfl
@[simp] theorem State.emitPacket_turns (p : Packet) (s : State) : (s.emitPacket p).turns = s.turns := rfl

/-! ### `State.dropFrame` -/

@[simp] theorem State.dropFrame_params (c : DropCause) (s : State) : (s.dropFrame c).params = s.params := rfl
@[simp] theorem State.dropFrame_st (c : DropCause) (s : State) : (s.dropFrame c).st = .search := rfl
@[simp] theorem State.dropFrame_cfg0 (c : DropCause) (s : State) : (s.dropFrame c).cfg0 = s.cfg0 := rfl
@[simp] theorem State.dropFrame_cfg1 (c : DropCause) (s : State) : (s.dropFrame c).cfg1 = s.cfg1 := rfl
@[simp] theorem State.dropFrame_cfg2 (c : DropCause) (s : State) : (s.dropFrame c).cfg2 = s.cfg2 := rfl
@[simp] theorem State.dropFrame_srcErr (c : DropCause) (s : State) : (s.dropFrame c).srcErr = s.srcErr := rfl
@[simp] theorem State.dropFrame_cfgErr (c : DropCause) (s : State) : (s.dropFrame c).cfgErr = s.cfgErr := rfl
@[simp] theorem State.dropFrame_werr (c : DropCause) (s : State) : (s.dropFrame c).werr = s.werr := rfl
@[simp] theorem State.dropFrame_cmdErr (c : DropCause) (s : State) : (s.dropFrame c).cmdErr = s.cmdErr := rfl
@[simp] theorem State.dropFrame_desc0 (c : DropCause) (s : State) : (s.dropFrame c).desc0 = s.desc0 := rfl
@[simp] theorem State.dropFrame_desc1 (c : DropCause) (s : State) : (s.dropFrame c).desc1 = s.desc1 := rfl
@[simp] theorem State.dropFrame_pktCount (c : DropCause) (s : State) : (s.dropFrame c).pktCount = s.pktCount := rfl
@[simp] theorem State.dropFrame_dropLen (c : DropCause) (s : State) :
    (s.dropFrame c).dropLen = if c = .crc then s.dropLen else s.dropLen + 1 := rfl
@[simp] theorem State.dropFrame_dropCrc (c : DropCause) (s : State) :
    (s.dropFrame c).dropCrc = if c = .crc then s.dropCrc + 1 else s.dropCrc := rfl
@[simp] theorem State.dropFrame_lastDrop (c : DropCause) (s : State) :
    (s.dropFrame c).lastDrop = c.code ||| ((firstByte s.dBytes).setWidth 32 <<< 8) := rfl
@[simp] theorem State.dropFrame_crcReg (c : DropCause) (s : State) : (s.dropFrame c).crcReg = s.crcReg := rfl
@[simp] theorem State.dropFrame_whtReg (c : DropCause) (s : State) : (s.dropFrame c).whtReg = s.whtReg := rfl
@[simp] theorem State.dropFrame_codecOut (c : DropCause) (s : State) : (s.dropFrame c).codecOut = s.codecOut := rfl
@[simp] theorem State.dropFrame_rcv (c : DropCause) (s : State) : (s.dropFrame c).rcv = s.rcv := rfl
@[simp] theorem State.dropFrame_smp (c : DropCause) (s : State) :
    (s.dropFrame c).smp = Memory.discard (s.pos + s.desc.baseSize * 8 * s.desc.stride) s.smp := rfl
@[simp] theorem State.dropFrame_eos (c : DropCause) (s : State) : (s.dropFrame c).eos = s.eos := rfl
@[simp] theorem State.dropFrame_desc (c : DropCause) (s : State) : (s.dropFrame c).desc = s.desc := rfl
@[simp] theorem State.dropFrame_thsum (c : DropCause) (s : State) : (s.dropFrame c).thsum = s.thsum := rfl
@[simp] theorem State.dropFrame_th (c : DropCause) (s : State) : (s.dropFrame c).th = s.th := rfl
@[simp] theorem State.dropFrame_thHold (c : DropCause) (s : State) : (s.dropFrame c).thHold = s.thHold := rfl
@[simp] theorem State.dropFrame_mid (c : DropCause) (s : State) : (s.dropFrame c).mid = s.mid := rfl
@[simp] theorem State.dropFrame_runlen (c : DropCause) (s : State) : (s.dropFrame c).runlen = s.runlen := rfl
@[simp] theorem State.dropFrame_dBytes (c : DropCause) (s : State) : (s.dropFrame c).dBytes = [] := rfl
@[simp] theorem State.dropFrame_pos (c : DropCause) (s : State) :
    (s.dropFrame c).pos = s.pos + s.desc.baseSize * 8 * s.desc.stride := rfl
@[simp] theorem State.dropFrame_out (c : DropCause) (s : State) : (s.dropFrame c).out = s.out := rfl
@[simp] theorem State.dropFrame_rdata (c : DropCause) (s : State) : (s.dropFrame c).rdata = s.rdata := rfl
@[simp] theorem State.dropFrame_popped (c : DropCause) (s : State) : (s.dropFrame c).popped = s.popped := rfl
@[simp] theorem State.dropFrame_inputs (c : DropCause) (s : State) : (s.dropFrame c).inputs = s.inputs := rfl
@[simp] theorem State.dropFrame_turns (c : DropCause) (s : State) : (s.dropFrame c).turns = s.turns := rfl

/-! ### `State.offerFirst` -/

@[simp] theorem State.offerFirst_params (r : Record) (s : State) : (s.offerFirst r).params = s.params := rfl
@[simp] theorem State.offerFirst_st (r : Record) (s : State) : (s.offerFirst r).st = s.st := rfl
@[simp] theorem State.offerFirst_cfg0 (r : Record) (s : State) : (s.offerFirst r).cfg0 = s.cfg0 := rfl
@[simp] theorem State.offerFirst_cfg1 (r : Record) (s : State) : (s.offerFirst r).cfg1 = s.cfg1 := rfl
@[simp] theorem State.offerFirst_cfg2 (r : Record) (s : State) : (s.offerFirst r).cfg2 = s.cfg2 := rfl
@[simp] theorem State.offerFirst_srcErr (r : Record) (s : State) : (s.offerFirst r).srcErr = s.srcErr := rfl
@[simp] theorem State.offerFirst_cfgErr (r : Record) (s : State) : (s.offerFirst r).cfgErr = s.cfgErr := rfl
@[simp] theorem State.offerFirst_werr (r : Record) (s : State) : (s.offerFirst r).werr = s.werr := rfl
@[simp] theorem State.offerFirst_cmdErr (r : Record) (s : State) : (s.offerFirst r).cmdErr = s.cmdErr := rfl
@[simp] theorem State.offerFirst_desc0 (r : Record) (s : State) : (s.offerFirst r).desc0 = s.desc0 := rfl
@[simp] theorem State.offerFirst_desc1 (r : Record) (s : State) : (s.offerFirst r).desc1 = s.desc1 := rfl
@[simp] theorem State.offerFirst_pktCount (r : Record) (s : State) : (s.offerFirst r).pktCount = s.pktCount := rfl
@[simp] theorem State.offerFirst_dropLen (r : Record) (s : State) : (s.offerFirst r).dropLen = s.dropLen := rfl
@[simp] theorem State.offerFirst_dropCrc (r : Record) (s : State) : (s.offerFirst r).dropCrc = s.dropCrc := rfl
@[simp] theorem State.offerFirst_lastDrop (r : Record) (s : State) : (s.offerFirst r).lastDrop = s.lastDrop := rfl
@[simp] theorem State.offerFirst_crcReg (r : Record) (s : State) : (s.offerFirst r).crcReg = s.crcReg := rfl
@[simp] theorem State.offerFirst_whtReg (r : Record) (s : State) : (s.offerFirst r).whtReg = s.whtReg := rfl
@[simp] theorem State.offerFirst_codecOut (r : Record) (s : State) : (s.offerFirst r).codecOut = s.codecOut := rfl
@[simp] theorem State.offerFirst_rcv (r : Record) (s : State) : (s.offerFirst r).rcv = s.rcv := rfl
@[simp] theorem State.offerFirst_smp (r : Record) (s : State) : (s.offerFirst r).smp = s.smp := rfl
@[simp] theorem State.offerFirst_eos (r : Record) (s : State) : (s.offerFirst r).eos = s.eos := rfl
@[simp] theorem State.offerFirst_desc (r : Record) (s : State) : (s.offerFirst r).desc = s.desc := rfl
@[simp] theorem State.offerFirst_thsum (r : Record) (s : State) : (s.offerFirst r).thsum = s.thsum := rfl
@[simp] theorem State.offerFirst_th (r : Record) (s : State) : (s.offerFirst r).th = s.th := rfl
@[simp] theorem State.offerFirst_thHold (r : Record) (s : State) : (s.offerFirst r).thHold = s.thHold := rfl
@[simp] theorem State.offerFirst_mid (r : Record) (s : State) : (s.offerFirst r).mid = s.mid := rfl
@[simp] theorem State.offerFirst_runlen (r : Record) (s : State) : (s.offerFirst r).runlen = s.runlen := rfl
@[simp] theorem State.offerFirst_dBytes (r : Record) (s : State) : (s.offerFirst r).dBytes = s.dBytes := rfl
@[simp] theorem State.offerFirst_pos (r : Record) (s : State) : (s.offerFirst r).pos = s.pos := rfl
@[simp] theorem State.offerFirst_out (r : Record) (s : State) : (s.offerFirst r).out = s.out := rfl
@[simp] theorem State.offerFirst_rdata (r : Record) (s : State) : (s.offerFirst r).rdata = s.rdata := rfl
@[simp] theorem State.offerFirst_popped (r : Record) (s : State) : (s.offerFirst r).popped = s.popped := rfl
@[simp] theorem State.offerFirst_inputs (r : Record) (s : State) :
    (s.offerFirst r).inputs = s.inputs.setQueue (recordAgent r) (r :: s.inputs.queue (recordAgent r)) := rfl
@[simp] theorem State.offerFirst_turns (r : Record) (s : State) : (s.offerFirst r).turns = s.turns := rfl

/-! ### `State.takeFrom` -/

@[simp] theorem State.takeFrom_params (a : Agent) (s : State) : (s.takeFrom a).params = s.params := rfl
@[simp] theorem State.takeFrom_st (a : Agent) (s : State) : (s.takeFrom a).st = s.st := rfl
@[simp] theorem State.takeFrom_cfg0 (a : Agent) (s : State) : (s.takeFrom a).cfg0 = s.cfg0 := rfl
@[simp] theorem State.takeFrom_cfg1 (a : Agent) (s : State) : (s.takeFrom a).cfg1 = s.cfg1 := rfl
@[simp] theorem State.takeFrom_cfg2 (a : Agent) (s : State) : (s.takeFrom a).cfg2 = s.cfg2 := rfl
@[simp] theorem State.takeFrom_srcErr (a : Agent) (s : State) : (s.takeFrom a).srcErr = s.srcErr := rfl
@[simp] theorem State.takeFrom_cfgErr (a : Agent) (s : State) : (s.takeFrom a).cfgErr = s.cfgErr := rfl
@[simp] theorem State.takeFrom_werr (a : Agent) (s : State) : (s.takeFrom a).werr = s.werr := rfl
@[simp] theorem State.takeFrom_cmdErr (a : Agent) (s : State) : (s.takeFrom a).cmdErr = s.cmdErr := rfl
@[simp] theorem State.takeFrom_desc0 (a : Agent) (s : State) : (s.takeFrom a).desc0 = s.desc0 := rfl
@[simp] theorem State.takeFrom_desc1 (a : Agent) (s : State) : (s.takeFrom a).desc1 = s.desc1 := rfl
@[simp] theorem State.takeFrom_pktCount (a : Agent) (s : State) : (s.takeFrom a).pktCount = s.pktCount := rfl
@[simp] theorem State.takeFrom_dropLen (a : Agent) (s : State) : (s.takeFrom a).dropLen = s.dropLen := rfl
@[simp] theorem State.takeFrom_dropCrc (a : Agent) (s : State) : (s.takeFrom a).dropCrc = s.dropCrc := rfl
@[simp] theorem State.takeFrom_lastDrop (a : Agent) (s : State) : (s.takeFrom a).lastDrop = s.lastDrop := rfl
@[simp] theorem State.takeFrom_crcReg (a : Agent) (s : State) : (s.takeFrom a).crcReg = s.crcReg := rfl
@[simp] theorem State.takeFrom_whtReg (a : Agent) (s : State) : (s.takeFrom a).whtReg = s.whtReg := rfl
@[simp] theorem State.takeFrom_codecOut (a : Agent) (s : State) : (s.takeFrom a).codecOut = s.codecOut := rfl
@[simp] theorem State.takeFrom_rcv (a : Agent) (s : State) : (s.takeFrom a).rcv = s.rcv := rfl
@[simp] theorem State.takeFrom_smp (a : Agent) (s : State) : (s.takeFrom a).smp = s.smp := rfl
@[simp] theorem State.takeFrom_eos (a : Agent) (s : State) : (s.takeFrom a).eos = s.eos := rfl
@[simp] theorem State.takeFrom_desc (a : Agent) (s : State) : (s.takeFrom a).desc = s.desc := rfl
@[simp] theorem State.takeFrom_thsum (a : Agent) (s : State) : (s.takeFrom a).thsum = s.thsum := rfl
@[simp] theorem State.takeFrom_th (a : Agent) (s : State) : (s.takeFrom a).th = s.th := rfl
@[simp] theorem State.takeFrom_thHold (a : Agent) (s : State) : (s.takeFrom a).thHold = s.thHold := rfl
@[simp] theorem State.takeFrom_mid (a : Agent) (s : State) : (s.takeFrom a).mid = s.mid := rfl
@[simp] theorem State.takeFrom_runlen (a : Agent) (s : State) : (s.takeFrom a).runlen = s.runlen := rfl
@[simp] theorem State.takeFrom_dBytes (a : Agent) (s : State) : (s.takeFrom a).dBytes = s.dBytes := rfl
@[simp] theorem State.takeFrom_pos (a : Agent) (s : State) : (s.takeFrom a).pos = s.pos := rfl
@[simp] theorem State.takeFrom_out (a : Agent) (s : State) : (s.takeFrom a).out = s.out := rfl
@[simp] theorem State.takeFrom_rdata (a : Agent) (s : State) : (s.takeFrom a).rdata = s.rdata := rfl
@[simp] theorem State.takeFrom_popped (a : Agent) (s : State) : (s.takeFrom a).popped = s.popped := rfl
@[simp] theorem State.takeFrom_inputs (a : Agent) (s : State) :
    (s.takeFrom a).inputs = s.inputs.setQueue a (s.inputs.queue a).tail := rfl
@[simp] theorem State.takeFrom_turns (a : Agent) (s : State) : (s.takeFrom a).turns = s.turns := rfl

/-! ### `State.keepPending` -/

@[simp] theorem State.keepPending_params (i : Instr) (s : State) :
    (s.keepPending i).params = s.params := by unfold State.keepPending; split <;> rfl
@[simp] theorem State.keepPending_st (i : Instr) (s : State) :
    (s.keepPending i).st = s.st := by unfold State.keepPending; split <;> rfl
@[simp] theorem State.keepPending_cfg0 (i : Instr) (s : State) :
    (s.keepPending i).cfg0 = s.cfg0 := by unfold State.keepPending; split <;> rfl
@[simp] theorem State.keepPending_cfg1 (i : Instr) (s : State) :
    (s.keepPending i).cfg1 = s.cfg1 := by unfold State.keepPending; split <;> rfl
@[simp] theorem State.keepPending_cfg2 (i : Instr) (s : State) :
    (s.keepPending i).cfg2 = s.cfg2 := by unfold State.keepPending; split <;> rfl
@[simp] theorem State.keepPending_srcErr (i : Instr) (s : State) :
    (s.keepPending i).srcErr = s.srcErr := by unfold State.keepPending; split <;> rfl
@[simp] theorem State.keepPending_cfgErr (i : Instr) (s : State) :
    (s.keepPending i).cfgErr = s.cfgErr := by unfold State.keepPending; split <;> rfl
@[simp] theorem State.keepPending_werr (i : Instr) (s : State) :
    (s.keepPending i).werr = s.werr := by unfold State.keepPending; split <;> rfl
@[simp] theorem State.keepPending_cmdErr (i : Instr) (s : State) :
    (s.keepPending i).cmdErr = s.cmdErr := by unfold State.keepPending; split <;> rfl
@[simp] theorem State.keepPending_desc0 (i : Instr) (s : State) :
    (s.keepPending i).desc0 = s.desc0 := by unfold State.keepPending; split <;> rfl
@[simp] theorem State.keepPending_desc1 (i : Instr) (s : State) :
    (s.keepPending i).desc1 = s.desc1 := by unfold State.keepPending; split <;> rfl
@[simp] theorem State.keepPending_pktCount (i : Instr) (s : State) :
    (s.keepPending i).pktCount = s.pktCount := by unfold State.keepPending; split <;> rfl
@[simp] theorem State.keepPending_dropLen (i : Instr) (s : State) :
    (s.keepPending i).dropLen = s.dropLen := by unfold State.keepPending; split <;> rfl
@[simp] theorem State.keepPending_dropCrc (i : Instr) (s : State) :
    (s.keepPending i).dropCrc = s.dropCrc := by unfold State.keepPending; split <;> rfl
@[simp] theorem State.keepPending_lastDrop (i : Instr) (s : State) :
    (s.keepPending i).lastDrop = s.lastDrop := by unfold State.keepPending; split <;> rfl
@[simp] theorem State.keepPending_crcReg (i : Instr) (s : State) :
    (s.keepPending i).crcReg = s.crcReg := by unfold State.keepPending; split <;> rfl
@[simp] theorem State.keepPending_whtReg (i : Instr) (s : State) :
    (s.keepPending i).whtReg = s.whtReg := by unfold State.keepPending; split <;> rfl
@[simp] theorem State.keepPending_codecOut (i : Instr) (s : State) :
    (s.keepPending i).codecOut = s.codecOut := by unfold State.keepPending; split <;> rfl
@[simp] theorem State.keepPending_rcv (i : Instr) (s : State) :
    (s.keepPending i).rcv = s.rcv := by unfold State.keepPending; split <;> rfl
@[simp] theorem State.keepPending_smp (i : Instr) (s : State) :
    (s.keepPending i).smp = s.smp := by unfold State.keepPending; split <;> rfl
@[simp] theorem State.keepPending_eos (i : Instr) (s : State) :
    (s.keepPending i).eos = s.eos := by unfold State.keepPending; split <;> rfl
@[simp] theorem State.keepPending_desc (i : Instr) (s : State) :
    (s.keepPending i).desc = s.desc := by unfold State.keepPending; split <;> rfl
@[simp] theorem State.keepPending_thsum (i : Instr) (s : State) :
    (s.keepPending i).thsum = s.thsum := by unfold State.keepPending; split <;> rfl
@[simp] theorem State.keepPending_th (i : Instr) (s : State) :
    (s.keepPending i).th = s.th := by unfold State.keepPending; split <;> rfl
@[simp] theorem State.keepPending_thHold (i : Instr) (s : State) :
    (s.keepPending i).thHold = s.thHold := by unfold State.keepPending; split <;> rfl
@[simp] theorem State.keepPending_mid (i : Instr) (s : State) :
    (s.keepPending i).mid = s.mid := by unfold State.keepPending; split <;> rfl
@[simp] theorem State.keepPending_runlen (i : Instr) (s : State) :
    (s.keepPending i).runlen = s.runlen := by unfold State.keepPending; split <;> rfl
@[simp] theorem State.keepPending_dBytes (i : Instr) (s : State) :
    (s.keepPending i).dBytes = s.dBytes := by unfold State.keepPending; split <;> rfl
@[simp] theorem State.keepPending_pos (i : Instr) (s : State) :
    (s.keepPending i).pos = s.pos := by unfold State.keepPending; split <;> rfl
@[simp] theorem State.keepPending_out (i : Instr) (s : State) :
    (s.keepPending i).out = s.out := by unfold State.keepPending; split <;> rfl
@[simp] theorem State.keepPending_rdata (i : Instr) (s : State) :
    (s.keepPending i).rdata = s.rdata := by unfold State.keepPending; split <;> rfl
@[simp] theorem State.keepPending_popped (i : Instr) (s : State) :
    (s.keepPending i).popped = s.popped := by unfold State.keepPending; split <;> rfl
@[simp] theorem State.keepPending_turns (i : Instr) (s : State) :
    (s.keepPending i).turns = s.turns := by unfold State.keepPending; split <;> rfl

end Sys2Proof.Machine
end

