-- ==== Sys2Proof/Laws/Fetch.lean ====
section
/-!
SUPPORT. What one step can do, said once: which instruction runs, in which state, and what the fetch changes.
-/
namespace Sys2Proof.Machine

/-- Setting an agent's queue to what it is changes nothing. -/
@[simp] theorem Inputs.setQueue_queue (q : Inputs) (a : Agent) : q.setQueue a (q.queue a) = q := by cases a <;> rfl

@[simp] theorem Inputs.queue_setQueue_self (q : Inputs) (a : Agent) (rs : List Record) :
    (q.setQueue a rs).queue a = rs := by cases a <;> rfl

/-- Setting one agent's queue leaves the others' alone. -/
theorem Inputs.queue_setQueue_of_ne (q : Inputs) {a b : Agent} (rs : List Record) (h : b ≠ a) :
    (q.setQueue a rs).queue b = q.queue b := by cases a <;> cases b <;> first | rfl | exact absurd rfl h

@[simp] theorem Inputs.setQueue_setQueue (q : Inputs) (a : Agent) (rs rs' : List Record) :
    (q.setQueue a rs).setQueue a rs' = q.setQueue a rs' := by cases a <;> rfl

/-- What a turn fetches: an internal step, an agent's first transaction, nothing, or an ill-formed record. -/
theorem fetchTurn_cases (t : Turn) (s : State) :
    (t = .block ∧ ∃ i, s.blockInstr = some i ∧ fetchTurn t s = .run i s) ∨
    (t = .block ∧ s.blockInstr = none ∧ fetchTurn t s = .wait s) ∨
    (∃ p, t = .agent p ∧ s.inputs.queue p = [] ∧ fetchTurn t s = .wait s) ∨
    (∃ p r rest i, t = .agent p ∧ s.inputs.queue p = r :: rest ∧ decode r = .ok i ∧
      fetchTurn t s = .run i (s.takeFrom p)) ∨
    (∃ p r rest e, t = .agent p ∧ s.inputs.queue p = r :: rest ∧ decode r = .error e ∧
      fetchTurn t s = .reject (.illFormed e)) := by
  cases t with
  | block =>
    unfold fetchTurn
    cases hb : s.blockInstr with
    | none => exact .inr (.inl ⟨rfl, rfl, by simp⟩)
    | some i => exact .inl ⟨rfl, i, rfl, by simp⟩
  | agent p =>
    unfold fetchTurn
    cases hq : s.inputs.queue p with
    | nil => exact .inr (.inr (.inl ⟨p, rfl, hq, by simp [hq]⟩))
    | cons r rest =>
      cases hd : decode r with
      | ok i => exact .inr (.inr (.inr (.inl ⟨p, r, rest, i, rfl, hq, hd, by simp [hq, hd]⟩)))
      | error e => exact .inr (.inr (.inr (.inr ⟨p, r, rest, e, rfl, hq, hd, by simp [hq, hd]⟩)))

/-- A step runs an instruction in a state that differs from `s` in `inputs` and `turns` only, waits in such a state, or
refuses an ill-formed record. -/
theorem step_cases (s : State) :
    (∃ i q ts, step s = exec i { s with inputs := q, turns := ts }) ∨
    (∃ q ts, step s = .next { s with inputs := q, turns := ts }) ∨
    (∃ e, step s = .refused (.illFormed e)) := by
  unfold step fetch
  rcases fetchTurn_cases (nextTurn s).1 { s with turns := (nextTurn s).2 } with
    ⟨_, i, _, h⟩ | ⟨_, _, h⟩ | ⟨_, _, _, h⟩ | ⟨p, _, _, i, _, _, _, h⟩ | ⟨_, _, _, e, _, _, _, h⟩
  · exact .inl ⟨i, s.inputs, (nextTurn s).2, by rw [h]⟩
  · exact .inr (.inl ⟨s.inputs, (nextTurn s).2, by rw [h]⟩)
  · exact .inr (.inl ⟨s.inputs, (nextTurn s).2, by rw [h]⟩)
  · exact .inl ⟨i, s.inputs.setQueue p (s.inputs.queue p).tail, (nextTurn s).2, by rw [h]; rfl⟩
  · exact .inr (.inr ⟨e, by rw [h]⟩)

end Sys2Proof.Machine
end

