-- ==== Sys2Proof/Laws/Memory.lean ====
section
/-!
SUPPORT. The laws of the sample window: reading after writing and after discarding, the canonical form, and its indices.
-/
namespace Sys2Proof.Machine

@[simp] theorem Memory.read_nil (k : Nat) : Memory.read [] k = none := rfl

/-- A held index is one of the listed ones. -/
theorem Memory.mem_of_read {w : Memory} {k : Nat} {x : Sample} (h : Memory.read w k = some x) : (k, x) ∈ w := by
  induction w with
  | nil => simp at h
  | cons c w ih =>
    rw [Memory.read] at h
    split at h
    · rename_i hc
      rw [Option.some.injEq] at h
      subst hc; subst h; exact List.mem_cons_self
    · exact List.mem_cons_of_mem _ (ih h)

/-- An index is held exactly when it is listed. -/
theorem Memory.read_isSome_iff (w : Memory) (k : Nat) : (Memory.read w k).isSome ↔ k ∈ w.map Prod.fst := by
  induction w with
  | nil => simp
  | cons c w ih =>
    rw [Memory.read]
    split
    · rename_i hc; simp [hc]
    · rename_i hc; rw [ih]; simp [Ne.symm hc]

/-- Reading the index just written gives the value written. -/
@[simp] theorem Memory.read_write_self (w : Memory) (k : Nat) (x : Sample) :
    Memory.read (Memory.write k x w) k = some x := by
  induction w with
  | nil => simp [Memory.write, Memory.read]
  | cons c w ih =>
    rw [Memory.write]
    split
    · simp [Memory.read]
    · split
      · simp [Memory.read]
      · rename_i h; rw [Memory.read, if_neg (Ne.symm h), ih]

/-- Writing one index leaves every other one alone. -/
theorem Memory.read_write_of_ne (w : Memory) {k j : Nat} (x : Sample) (hj : j ≠ k) :
    Memory.read (Memory.write k x w) j = Memory.read w j := by
  induction w with
  | nil => simp [Memory.write, Memory.read, Ne.symm hj]
  | cons c w ih =>
    rw [Memory.write]
    split
    · rw [Memory.read, if_neg (Ne.symm hj)]
    · split
      · rename_i h
        rw [Memory.read, if_neg (Ne.symm hj), Memory.read, if_neg (by omega)]
      · rw [Memory.read, ih, ← Memory.read]

/-- After discarding, exactly the indices from `pos` on read as before (R41). -/
theorem Memory.read_discard (w : Memory) (pos k : Nat) :
    Memory.read (Memory.discard pos w) k = if pos ≤ k then Memory.read w k else none := by
  induction w with
  | nil => simp [Memory.discard]
  | cons c w ih =>
    rw [Memory.discard] at ih ⊢
    rw [List.filter_cons]
    by_cases hc : pos ≤ c.1
    · rw [if_pos (by simpa using hc), Memory.read, ih, Memory.read]
      split <;> split <;> first | rfl | omega
    · rw [if_neg (by simpa using hc), ih, Memory.read]
      by_cases hk : pos ≤ k
      · rw [if_pos hk, if_pos hk, if_neg (by omega)]
      · rw [if_neg hk, if_neg hk]

/-- The indices listed after a write: the same ones and the index written. -/
theorem Memory.mem_write (w : Memory) (k : Nat) (x : Sample) (c : Nat × Sample) (h : c ∈ Memory.write k x w) :
    c = (k, x) ∨ c ∈ w := by
  induction w with
  | nil => simpa [Memory.write] using h
  | cons d w ih =>
    rw [Memory.write] at h
    split at h
    · simpa using h
    · split at h
      · rcases List.mem_cons.mp h with h | h
        · exact .inl h
        · exact .inr (List.mem_cons_of_mem _ h)
      · rcases List.mem_cons.mp h with h | h
        · exact .inr (h ▸ List.mem_cons_self)
        · rcases ih h with h | h
          · exact .inl h
          · exact .inr (List.mem_cons_of_mem _ h)

/-- A write keeps the canonical form. -/
theorem Memory.write_wf {w : Memory} (k : Nat) (x : Sample) (h : Memory.wf w) : Memory.wf (Memory.write k x w) := by
  induction w with
  | nil => simp [Memory.write, Memory.wf]
  | cons c w ih =>
    rw [Memory.wf, List.map_cons, List.pairwise_cons] at h
    rw [Memory.write]
    split
    · rename_i hk
      rw [Memory.wf, List.map_cons, List.pairwise_cons, List.map_cons, List.pairwise_cons]
      refine ⟨fun j hj => ?_, h⟩
      rcases List.mem_cons.mp hj with hj | hj
      · exact hj ▸ hk
      · exact Nat.lt_trans hk (h.1 j hj)
    · split
      · rename_i hk
        rw [Memory.wf, List.map_cons, List.pairwise_cons]
        exact ⟨fun j hj => hk ▸ h.1 j hj, h.2⟩
      · rename_i h1 h2
        rw [Memory.wf, List.map_cons, List.pairwise_cons]
        refine ⟨fun j hj => ?_, ih h.2⟩
        obtain ⟨d, hd, rfl⟩ := List.mem_map.mp hj
        rcases Memory.mem_write w k x d hd with hd | hd
        · subst hd; show c.1 < k; omega
        · exact h.1 _ (List.mem_map_of_mem hd)

/-- Discarding keeps the canonical form. -/
theorem Memory.discard_wf {w : Memory} (pos : Nat) (h : Memory.wf w) : Memory.wf (Memory.discard pos w) :=
  List.Pairwise.sublist (List.Sublist.map _ List.filter_sublist) h

/-- The window is in canonical form at reset. -/
theorem Memory.wf_reset : Memory.wf State.reset.smp := List.Pairwise.nil

/-- A sample stored past every held index goes to the end of the list. -/
theorem Memory.write_of_forall_lt {w : Memory} {k : Nat} (x : Sample) (h : ∀ c ∈ w, c.1 < k) :
    Memory.write k x w = w ++ [(k, x)] := by
  induction w with
  | nil => rfl
  | cons c w ih =>
    have hc := h c List.mem_cons_self
    rw [Memory.write, if_neg (by omega), if_neg (by omega), ih fun d hd => h d (List.mem_cons_of_mem _ hd),
      List.cons_append]

/-- Discarding a window of consecutive indices keeps the consecutive ones from the new start on. -/
theorem Memory.discard_range {w : Memory} {a n p : Nat} (h : w.map Prod.fst = List.range' a n) (hp : a ≤ p) :
    (Memory.discard p w).map Prod.fst = List.range' p (a + n - p) := by
  induction n generalizing w a with
  | zero =>
    simp only [List.range'_zero, List.map_eq_nil_iff] at h
    subst h
    rw [Nat.add_zero, Nat.sub_eq_zero_of_le hp]; rfl
  | succ n ih =>
    cases w with
    | nil => simp [List.range'_succ] at h
    | cons c w =>
      rw [List.range'_succ, List.map_cons, List.cons.injEq] at h
      rw [Memory.discard, List.filter_cons]
      by_cases hc : p ≤ c.1
      · have hpa : p = a := by omega
        subst hpa
        have hall : ∀ d ∈ w, p ≤ d.1 := by
          intro d hd
          have := List.mem_map_of_mem (f := Prod.fst) hd
          rw [h.2, List.mem_range'] at this
          obtain ⟨i, _, hi⟩ := this
          omega
        rw [if_pos (by simpa using hc), List.filter_eq_self.mpr (by simpa using hall), List.map_cons, h.1, h.2]
        rw [show p + (n + 1) - p = n + 1 by omega, List.range'_succ]
      · rw [if_neg (by simpa using hc)]
        have := ih h.2 (by omega)
        rw [Memory.discard] at this
        rw [this]
        congr 1; omega

/-- A write at or past the new start and a discard commute. -/
theorem Memory.discard_write (w : Memory) {k p : Nat} (x : Sample) (h : p ≤ k) :
    Memory.discard p (Memory.write k x w) = Memory.write k x (Memory.discard p w) := by
  induction w with
  | nil => simp [Memory.discard, Memory.write, h]
  | cons c w ih =>
    rw [Memory.write]
    simp only [Memory.discard] at ih ⊢
    split
    · rename_i h1
      have hc : p ≤ c.1 := by omega
      simp [h, hc, Memory.write, h1]
    · split
      · rename_i h1 h2; subst h2; simp [h, Memory.write]
      · rename_i h1 h2
        by_cases hc : p ≤ c.1
        · simp [hc, Memory.write, h1, h2, ih]
        · simp [hc, ih]

/-- No index of `ks` is absent exactly when each is held. -/
theorem firstAbsent_eq_none_iff (w : Memory) (ks : List Nat) :
    firstAbsent w ks = none ↔ ∀ k ∈ ks, (Memory.read w k).isSome := by
  rw [firstAbsent, List.find?_eq_none]
  simp [Option.isSome_iff_ne_none]

/-- An absent index that is found is one of `ks` and is not held. -/
theorem firstAbsent_eq_some {w : Memory} {ks : List Nat} {k : Nat} (h : firstAbsent w ks = some k) :
    k ∈ ks ∧ Memory.read w k = none := by
  rw [firstAbsent] at h
  exact ⟨List.mem_of_find?_eq_some h, by simpa using List.find?_some h⟩

/-- A sample known to be held is the one `sampleAt` gives. -/
theorem Memory.sampleAt_of_read {w : Memory} {k : Nat} {x : Sample} (h : Memory.read w k = some x) :
    Memory.sampleAt w k = x := by rw [Memory.sampleAt, h]; rfl

/-- Writing one index leaves the sample at every other one alone. -/
theorem Memory.sampleAt_write_of_ne (w : Memory) {k j : Nat} (x : Sample) (hj : j ≠ k) :
    Memory.sampleAt (Memory.write k x w) j = Memory.sampleAt w j := by
  rw [Memory.sampleAt, Memory.sampleAt, Memory.read_write_of_ne w x hj]

end Sys2Proof.Machine
end

