-- ==== Sys2Proof/Laws/Meanings.lean ====
section
/-!
SUPPORT. What each meaning can do, said once: if it answers a next state, that state is one of these, with the guard it
was reached under. The meanings that answer the same update in every state need no lemma: they are that update.
-/
namespace Sys2Proof.Machine

/-- START (R98): a command error, a configuration error, or a new session. -/
theorem execStart_next {s t : State} (h : execStart s = .next t) :
    (s.st ≠ .idle ∧ t = { s with cmdErr := true }) ∨
    (s.st = .idle ∧ configError s.params s.cfg0 s.cfg2 ≠ 0 ∧
      t = { s with cfgErr := configError s.params s.cfg0 s.cfg2 }) ∨
    (s.st = .idle ∧ configError s.params s.cfg0 s.cfg2 = 0 ∧ t = s.openSession) := by
  unfold execStart at h
  split at h
  · rename_i h1; cases h; exact .inl ⟨h1, rfl⟩
  · rename_i h1
    split at h
    · rename_i h2; cases h; exact .inr (.inl ⟨not_not.mp h1, h2, rfl⟩)
    · rename_i h2; cases h; exact .inr (.inr ⟨not_not.mp h1, not_not.mp h2, rfl⟩)

/-- A write to CFG0 to CFG2 (R46): ignored with WERR outside IDLE, else stored. -/
theorem State.writeConfig_cases (s s' : State) :
    (s.st ≠ .idle ∧ s.writeConfig s' = { s with werr := true }) ∨ (s.st = .idle ∧ s.writeConfig s' = s') := by
  unfold State.writeConfig
  split
  · rename_i h; exact .inl ⟨h, rfl⟩
  · rename_i h; exact .inr ⟨not_not.mp h, rfl⟩

/-- A write to an offset other than CTRL's (R119): ignored with WERR, or one register is written. -/
theorem execWr_next {addr : BitVec 8} {wdata : Word} {s t : State} (ha : regAt addr ≠ some .ctrl)
    (h : execWr addr wdata s = .next t) :
    t = { s with werr := true } ∨
    (s.st = .idle ∧ regAt addr = some .cfg0 ∧ t = { s with cfg0 := wdata &&& cfg0Mask }) ∨
    (s.st = .idle ∧ regAt addr = some .cfg1 ∧ t = { s with cfg1 := wdata }) ∨
    (s.st = .idle ∧ regAt addr = some .cfg2 ∧ t = { s with cfg2 := wdata &&& cfg2Mask }) ∨
    (regAt addr = some .crcReg ∧ t = { s with crcReg := wdata.setWidth 16 }) ∨
    (regAt addr = some .whtReg ∧ t = { s with whtReg := wdata.setWidth 9 }) := by
  unfold execWr at h
  split at h
  case h_2 h2 => exact absurd h2 ha
  case h_3 h3 =>
    cases h
    rcases State.writeConfig_cases s { s with cfg0 := wdata &&& cfg0Mask } with ⟨_, h⟩ | ⟨hs, h⟩
    · exact .inl h
    · exact .inr (.inl ⟨hs, h3, h⟩)
  case h_4 h3 =>
    cases h
    rcases State.writeConfig_cases s { s with cfg1 := wdata } with ⟨_, h⟩ | ⟨hs, h⟩
    · exact .inl h
    · exact .inr (.inr (.inl ⟨hs, h3, h⟩))
  case h_5 h3 =>
    cases h
    rcases State.writeConfig_cases s { s with cfg2 := wdata &&& cfg2Mask } with ⟨_, h⟩ | ⟨hs, h⟩
    · exact .inl h
    · exact .inr (.inr (.inr (.inl ⟨hs, h3, h⟩)))
  case h_6 h3 => cases h; exact .inr (.inr (.inr (.inr (.inl ⟨h3, rfl⟩))))
  case h_7 h3 => cases h; exact .inr (.inr (.inr (.inr (.inr ⟨h3, rfl⟩))))
  all_goals cases h; exact .inl rfl

/-- SAMPLE (R127, R118): accepted, or kept pending. -/
theorem execSmp_next {sdata : Word} {s t : State} (h : execSmp sdata s = .next t) :
    (∃ x, sampleOperand s.params sdata = some x ∧ s.sampleReady = true ∧ t = s.acceptSample x) ∨
    (s.sampleReady = false ∧ t = s.keepPending (.smp sdata)) := by
  unfold execSmp at h
  split at h
  · cases h
  · rename_i x hx
    split at h
    · rename_i hr; cases h; exact .inl ⟨x, hx, hr, rfl⟩
    · rename_i hr; cases h; exact .inr ⟨by simpa using hr, rfl⟩

/-- EOS (R128, R118). -/
theorem execEos_next {s t : State} (h : execEos s = .next t) :
    (s.eosReady = true ∧ t = { s with eos := true }) ∨ (s.eosReady = false ∧ t = s.keepPending .eos) := by
  unfold execEos at h
  split at h
  · rename_i hr; cases h; exact .inl ⟨hr, rfl⟩
  · rename_i hr; cases h; exact .inr ⟨by simpa using hr, rfl⟩

/-- SRC_ERR (R129). -/
theorem execSrcerr_next {s t : State} (h : execSrcerr s = .next t) :
    (s.st.running = true ∧ t = { s with st := .srcErr, srcErr := true, dBytes := [] }) ∨
    (s.st.running = false ∧ t = s) := by
  unfold execSrcerr at h
  split at h
  · rename_i hr; cases h; exact .inl ⟨hr, rfl⟩
  · rename_i hr; cases h; exact .inr ⟨by simpa using hr, rfl⟩

/-- POP (R130, R118). -/
theorem execPop_next {s t : State} (h : execPop s = .next t) :
    (∃ b rest, s.out = b :: rest ∧ t = { s with out := rest, popped := s.popped ++ [b] }) ∨
    (s.out = [] ∧ t = s.keepPending .pop) := by
  unfold execPop at h
  split at h
  · rename_i ho; cases h; exact .inr ⟨ho, rfl⟩
  · rename_i b rest ho; cases h; exact .inl ⟨b, rest, ho, rfl⟩

/-- SCAN's test (R107): a candidate, or one sample further. -/
theorem State.scanTest_cases (s : State) :
    (patternMatch s.smp s.desc.stride s.withThreshold.th s.pos s.desc.pattern = true ∧
      s.scanTest = { s.withThreshold with thHold := s.withThreshold.th, st := .phase }) ∨
    (patternMatch s.smp s.desc.stride s.withThreshold.th s.pos s.desc.pattern = false ∧
      s.scanTest = s.withThreshold.moveTo (s.pos + 1)) := by
  unfold State.scanTest
  split
  · rename_i h; exact .inl ⟨h, rfl⟩
  · rename_i h; exact .inr ⟨by simpa using h, rfl⟩

/-- SCAN (R107): it holds, or it tests the pattern at `pos` with every sample it reads held. -/
theorem execScan_next {s t : State} (h : execScan s = .next t) :
    (s.scanEnabled = false ∧ t = s) ∨
    (s.scanEnabled = true ∧ s.desc.thsize ≠ 0 ∧ (∀ k ∈ scanReads s, (Memory.read s.smp k).isSome) ∧ t = s.scanTest) := by
  unfold execScan at h
  split at h
  · rename_i hg
    split at h
    · cases h
    · rename_i hz
      split at h
      · cases h
      · rename_i ha; cases h
        exact .inr ⟨hg, hz, (firstAbsent_eq_none_iff _ _).mp ha, rfl⟩
  · rename_i hg; cases h; exact .inl ⟨by simpa using hg, rfl⟩

/-- FINISH (R108). -/
theorem execFinish_next {s t : State} (h : execFinish s = .next t) :
    (s.finishEnabled = false ∧ t = s) ∨ (s.finishEnabled = true ∧ t = { s with st := .done }) := by
  unfold execFinish at h
  split at h
  · rename_i hg; cases h; exact .inr ⟨hg, rfl⟩
  · rename_i hg; cases h; exact .inl ⟨by simpa using hg, rfl⟩

/-- PHASE (R109): it holds, or it chooses a run of the sweep with every sample it reads held. -/
theorem execPhase_next {s t : State} (h : execPhase s = .next t) :
    (s.phaseEnabled = false ∧ t = s) ∨
    (s.phaseEnabled = true ∧ (∀ k ∈ phaseReads s, (Memory.read s.smp k).isSome) ∧
      ∃ a b, chosenRun (phaseSweep s) = some (a, b) ∧
        t = { s with mid := (a + b) / 2, runlen := b - a + 1, st := .extract }) := by
  unfold execPhase at h
  split at h
  · rename_i hg
    split at h
    · cases h
    · rename_i ha
      split at h
      · cases h
      · rename_i a b hr; cases h
        exact .inr ⟨hg, (firstAbsent_eq_none_iff _ _).mp ha, a, b, hr, rfl⟩
  · rename_i hg; cases h; exact .inl ⟨by simpa using hg, rfl⟩

/-- EXTRACT (R111). -/
theorem execExtract_next {s t : State} (h : execExtract s = .next t) :
    (s.extractEnabled = false ∧ t = s) ∨
    (s.extractEnabled = true ∧ (∀ k ∈ candidateIndices s, (Memory.read s.smp k).isSome) ∧
      t = { s with dBytes := candidateData s, st := .parse }) := by
  unfold execExtract at h
  split at h
  · rename_i hg
    split at h
    · cases h
    · rename_i ha; cases h
      exact .inr ⟨hg, (firstAbsent_eq_none_iff _ _).mp ha, rfl⟩
  · rename_i hg; cases h; exact .inl ⟨by simpa using hg, rfl⟩

/-- PARSE (R113): it holds, emits a packet for which there is room, or drops the frame. -/
theorem execParse_next {s t : State} (h : execParse s = .next t) :
    (s.parseEnabled = false ∧ t = s) ∨
    (s.st = .parse ∧ ∃ p, s.parsed = .packet p ∧ 1 + p.payload.length ≤ s.room ∧ t = s.emitPacket p) ∨
    (s.st = .parse ∧ ∃ c, s.parsed = .drop c ∧ t = s.dropFrame c) := by
  unfold execParse at h
  split at h
  · rename_i hg
    rw [State.parseEnabled, Bool.and_eq_true] at hg
    have hst : s.st = .parse := by simpa using hg.1
    split at h
    · rename_i p hp; cases h
      have := hg.2
      rw [hp] at this
      exact .inr (.inl ⟨hst, p, hp, by simpa using this, rfl⟩)
    · rename_i c hc; cases h
      exact .inr (.inr ⟨hst, c, hc, rfl⟩)
  · rename_i hg; cases h; exact .inl ⟨by simpa using hg, rfl⟩

/-- A transaction that stays pending changes nothing but its agent's queue (R118). -/
theorem State.keepPending_eq (i : Instr) (s : State) :
    s.keepPending i = { s with inputs := (s.keepPending i).inputs } := by
  unfold State.keepPending
  split <;> rfl

/-- A command leaves the pending transactions alone. -/
theorem execCommand_inputs {wdata : Word} {s t : State} (h : execCommand wdata s = .next t) : t.inputs = s.inputs := by
  unfold execCommand at h
  split at h
  case h_2 => rcases execStart_next h with ⟨_, rfl⟩ | ⟨_, _, rfl⟩ | ⟨_, _, rfl⟩ <;> rfl
  all_goals cases h; rfl

/-- What an instruction does to the pending transactions: nothing, or it puts its own back at the head (R118). -/
theorem exec_inputs {i : Instr} {s t : State} (h : exec i s = .next t) :
    t.inputs = s.inputs ∨ (((∃ d, i = .smp d) ∨ i = .eos ∨ i = .pop) ∧ t = s.keepPending i) := by
  cases i <;> simp only [exec] at h
  case wr a w =>
    left
    by_cases ha : regAt a = some .ctrl
    · rw [execWr, ha] at h; exact execCommand_inputs h
    · rcases execWr_next ha h with rfl | ⟨_, _, rfl⟩ | ⟨_, _, rfl⟩ | ⟨_, _, rfl⟩ | ⟨_, rfl⟩ | ⟨_, rfl⟩ <;> rfl
  case smp d =>
    rcases execSmp_next h with ⟨x, _, _, rfl⟩ | ⟨_, rfl⟩
    · exact .inl rfl
    · exact .inr ⟨.inl ⟨d, rfl⟩, rfl⟩
  case eos =>
    rcases execEos_next h with ⟨_, rfl⟩ | ⟨_, rfl⟩
    · exact .inl rfl
    · exact .inr ⟨.inr (.inl rfl), rfl⟩
  case pop =>
    rcases execPop_next h with ⟨_, _, _, rfl⟩ | ⟨_, rfl⟩
    · exact .inl rfl
    · exact .inr ⟨.inr (.inr rfl), rfl⟩
  case srcerr => left; rcases execSrcerr_next h with ⟨_, rfl⟩ | ⟨_, rfl⟩ <;> rfl
  case start => left; rcases execStart_next h with ⟨_, rfl⟩ | ⟨_, _, rfl⟩ | ⟨_, _, rfl⟩ <;> rfl
  case scan =>
    left
    rcases execScan_next h with ⟨_, rfl⟩ | ⟨_, _, _, rfl⟩
    · rfl
    · rcases s.scanTest_cases with ⟨_, e⟩ | ⟨_, e⟩ <;> rw [e] <;> rfl
  case finish => left; rcases execFinish_next h with ⟨_, rfl⟩ | ⟨_, rfl⟩ <;> rfl
  case phase => left; rcases execPhase_next h with ⟨_, rfl⟩ | ⟨_, _, _, _, _, rfl⟩ <;> rfl
  case extract => left; rcases execExtract_next h with ⟨_, rfl⟩ | ⟨_, _, rfl⟩ <;> rfl
  case parse => left; rcases execParse_next h with ⟨_, rfl⟩ | ⟨_, _, _, _, rfl⟩ | ⟨_, _, _, rfl⟩ <;> rfl
  case reservedKind => cases h
  all_goals cases h; exact .inl rfl

end Sys2Proof.Machine
end

