-- ==== Sys2Proof/Laws/PerInstr.lean ====
section
/-!
SUPPORT. A family of facts about every instruction as syntax: exactly the internal steps have no record (R61, opcode
table).
-/
namespace Sys2Proof.Laws.HasRecord

/-- An instruction has a record exactly when it is no internal step. -/
def Statement (i : Instr) : Prop := (encode i).isSome = !i.isInternal

theorem reset : Statement .reset := rfl
theorem eos : Statement .eos := rfl
theorem srcerr : Statement .srcerr := rfl
theorem pop : Statement .pop := rfl
theorem nop : Statement .nop := rfl
theorem start : Statement .start := rfl
theorem abort : Statement .abort := rfl
theorem clrerr : Statement .clrerr := rfl
theorem clrcnt : Statement .clrcnt := rfl
theorem reserved5 : Statement .reserved5 := rfl
theorem reserved6 : Statement .reserved6 := rfl
theorem reserved7 : Statement .reserved7 := rfl
theorem crcInit : Statement .crcInit := rfl
theorem whtInit : Statement .whtInit := rfl
theorem whtStep : Statement .whtStep := rfl
theorem crcTest : Statement .crcTest := rfl
theorem reservedE : Statement .reservedE := rfl
theorem reservedF : Statement .reservedF := rfl
theorem scan : Statement .scan := rfl
theorem finish : Statement .finish := rfl
theorem phase : Statement .phase := rfl
theorem extract : Statement .extract := rfl
theorem parse : Statement .parse := rfl
theorem wr (addr : BitVec 8) (wdata : Word) : Statement (.wr addr wdata) := rfl
theorem rd (addr : BitVec 8) : Statement (.rd addr) := rfl
theorem smp (sdata : Word) : Statement (.smp sdata) := rfl
theorem crcByte (arg : Byte) : Statement (.crcByte arg) := rfl
theorem whtXor (arg : Byte) : Statement (.whtXor arg) := rfl
theorem reservedKind (kind : BitVec 4) (rest : BitVec 44) : Statement (.reservedKind kind rest) := rfl

end Sys2Proof.Laws.HasRecord
end

