-- ==== Sys2Proof/Laws/Record.lean ====
section
/-!
SUPPORT. The fields of a record and of a command word built from fields are those fields (R61, R64).
-/
namespace Sys2Proof

@[simp] theorem recordData_mkRecord (kind : BitVec 4) (addr : BitVec 8) (data : Word) :
    recordData (mkRecord kind addr data) = data := by
  unfold recordData mkRecord
  refine BitVec.eq_of_getLsbD_eq fun i hi => ?_
  simp only [BitVec.getLsbD_extractLsb', BitVec.getLsbD_append]
  simp [hi]

@[simp] theorem recordRsv_mkRecord (kind : BitVec 4) (addr : BitVec 8) (data : Word) :
    recordRsv (mkRecord kind addr data) = 0 := by
  unfold recordRsv mkRecord
  refine BitVec.eq_of_getLsbD_eq fun i hi => ?_
  simp only [BitVec.getLsbD_extractLsb', BitVec.getLsbD_append]
  simp [hi]

@[simp] theorem recordAddr_mkRecord (kind : BitVec 4) (addr : BitVec 8) (data : Word) :
    recordAddr (mkRecord kind addr data) = addr := by
  unfold recordAddr mkRecord
  refine BitVec.eq_of_getLsbD_eq fun i hi => ?_
  simp only [BitVec.getLsbD_extractLsb', BitVec.getLsbD_append]
  have h1 : ¬ 36 + i < 32 := by omega
  have h2 : ¬ 36 + i - 32 < 4 := by omega
  have h3 : 36 + i - 32 - 4 = i := by omega
  simp [h1, h2, h3, hi]

@[simp] theorem recordKind_mkRecord (kind : BitVec 4) (addr : BitVec 8) (data : Word) :
    recordKind (mkRecord kind addr data) = kind := by
  unfold recordKind mkRecord
  refine BitVec.eq_of_getLsbD_eq fun i hi => ?_
  simp only [BitVec.getLsbD_extractLsb', BitVec.getLsbD_append]
  have h1 : ¬ 44 + i < 32 := by omega
  have h2 : ¬ 44 + i - 32 < 4 := by omega
  have h3 : ¬ 44 + i - 32 - 4 < 8 := by omega
  have h4 : 44 + i - 32 - 4 - 8 = i := by omega
  simp [h1, h2, h3, h4, hi]

@[simp] theorem commandCode_commandWord (cmd : BitVec 4) (arg : Byte) : commandCode (commandWord cmd arg) = cmd := by
  unfold commandCode commandWord
  refine BitVec.eq_of_getLsbD_eq fun i hi => ?_
  simp only [BitVec.getLsbD_extractLsb', BitVec.getLsbD_append]
  simp [hi]

@[simp] theorem commandArg_commandWord (cmd : BitVec 4) (arg : Byte) : commandArg (commandWord cmd arg) = arg := by
  unfold commandArg commandWord
  refine BitVec.eq_of_getLsbD_eq fun i hi => ?_
  simp only [BitVec.getLsbD_extractLsb', BitVec.getLsbD_append]
  have h1 : ¬ 8 + i < 4 := by omega
  have h2 : ¬ 8 + i - 4 < 4 := by omega
  have h3 : 8 + i - 4 - 4 = i := by omega
  simp [h1, h2, h3, hi]

end Sys2Proof
end

