-- ==== Sys2Proof/Laws/Sync.lean ====
section
/-!
SUPPORT. What the synchronizer's functions read: they give the same answer in two windows that agree on those indices.
-/
namespace Sys2Proof.Machine

/-- The pattern test reads one sample per bit of the pattern (R105). -/
theorem patternMatch_congr {w w' : Memory} {stride : Nat} {t : Int} {b : Nat} {ps : List Bool}
    (h : ∀ j < ps.length, Memory.sampleAt w (b + j * stride) = Memory.sampleAt w' (b + j * stride)) :
    patternMatch w stride t b ps = patternMatch w' stride t b ps := by
  induction ps generalizing b with
  | nil => rfl
  | cons p ps ih =>
    rw [patternMatch, patternMatch, sampleBit, sampleBit]
    have h0 := h 0 (by simp)
    rw [Nat.zero_mul, Nat.add_zero] at h0
    rw [h0, ih fun j hj => ?_]
    have := h (j + 1) (by simpa using hj)
    rwa [Nat.succ_mul, Nat.add_comm (j * stride), ← Nat.add_assoc] at this

/-- The threshold sum reads the `T` samples from `p` on (R103). -/
theorem thresholdSum_congr {w w' : Memory} {p t : Nat}
    (h : ∀ k, p ≤ k → k < p + t → Memory.sampleAt w k = Memory.sampleAt w' k) :
    thresholdSum w p t = thresholdSum w' p t := by
  unfold thresholdSum windowIndices
  congr 1
  refine List.map_congr_left fun k hk => ?_
  obtain ⟨i, hi, rfl⟩ := List.mem_range'.mp hk
  exact h _ (by omega) (by omega)

/-- EXTRACT reads at most `fuel` positions, each from `p` on and below the limit (R111). -/
theorem extractIndices_length_le (p stride limit fuel : Nat) : (extractIndices p stride limit fuel).length ≤ fuel := by
  induction fuel generalizing p with
  | zero => simp [extractIndices]
  | succ fuel ih =>
    rw [extractIndices]
    split
    · simpa using ih (p + stride)
    · simp

theorem mem_extractIndices {p stride limit fuel k : Nat} (h : k ∈ extractIndices p stride limit fuel) :
    p ≤ k ∧ k < limit := by
  induction fuel generalizing p with
  | zero => simp [extractIndices] at h
  | succ fuel ih =>
    rw [extractIndices] at h
    split at h
    · rename_i hp
      rcases List.mem_cons.mp h with rfl | h
      · exact ⟨Nat.le_refl _, hp⟩
      · have := ih h; omega
    · simp at h

/-- The index of a pattern's sample (R105). -/
theorem mem_strideIndices {b stride n k : Nat} : k ∈ strideIndices b stride n ↔ ∃ j < n, b + j * stride = k := by
  simp [strideIndices]

/-- The candidate's bytes are one eighth of the bits EXTRACT samples (R111). -/
theorem candidateBytes_length (s : State) : (candidateBytes s).length = (candidateIndices s).length / 8 := by
  rw [candidateBytes, packBytes_length, List.length_map]

/-- De-whitening does not change the length of the candidate's data (R112). -/
theorem candidateData_length (s : State) : (candidateData s).length = (candidateBytes s).length - s.desc.n / 8 := by
  unfold candidateData
  cases s.desc.white <;> simp

end Sys2Proof.Machine
end

