-- ==== Sys2Proof/Laws/Session.lean ====
section
/-!
SUPPORT. What the invariant gives at once: the sizes of an open session's descriptor, and which samples are held.
-/
namespace Sys2Proof.Machine

/-- The sizes of an open session's descriptor (R93 to R97). -/
structure SessionSizes (s : State) : Prop where
  stride : 1 ≤ s.desc.stride
  thsize : 16 ≤ s.desc.thsize
  windowInPattern : s.desc.thsize ≤ s.desc.n * s.desc.stride
  pattern : s.desc.pattern.length = s.desc.n
  wholeBytes : s.desc.n % 8 = 0
  patternLow : 32 ≤ s.desc.n
  mfb : s.desc.mfb = s.desc.n + 2072
  maxsize : s.desc.maxsize = s.desc.mfb * s.desc.stride
  baseSize : s.desc.baseSize * 8 ≤ s.desc.n + 24
  fits : s.desc.maxsize ≤ s.params.bufCap

theorem SessionOpen.sizes {s : State} (h : SessionOpen s) : SessionSizes s := by
  have ha := accepted_of_configError_eq_zero h.accepted
  have h1 := preambleBytes_bounds (numPreamble s.cfg0)
  have h3 := ha.repeats
  constructor <;> rw [h.desc]
  · exact ha.strideLow
  · calc 16 ≤ 8 * preambleBytes (numPreamble s.cfg0) * 1 := by omega
      _ ≤ _ := Nat.mul_le_mul_left _ ha.strideLow
  · exact thsize_le_window _ _ _
  · exact (patternBits_eq_length _ _).symm
  · simp [buildDescriptor, patternBits]
  · simp only [buildDescriptor, patternBits]; omega
  · rfl
  · rfl
  · simp only [buildDescriptor, patternBits]; split <;> omega
  · exact ha.lookAhead

/-- Under the invariant the window holds exactly `pos <= k < rcv` (R41). -/
theorem State.Inv.read_isSome_iff {s : State} (h : s.Inv) (k : Nat) :
    (Memory.read s.smp k).isSome ↔ s.pos ≤ k ∧ k < s.rcv := by
  rw [Memory.read_isSome_iff, h.window, List.mem_range'_1]; omega

end Sys2Proof.Machine
end

