-- ==== Sys2Proof/Tests/Slice0.lean ====
section
/-!
SUPPORT. Tests. Words, inputs and expected values come from the spec: the tables of 30_encoding.md and the vectors of
95_test_vectors.md (each test names its source). The second part shows, for every statement that has hypotheses, a
concrete state and operands that meet them.
-/
namespace Sys2Proof.Tests

open Sys2Proof Sys2Proof.Machine

-- One kernel evaluation at a time: many at once each take a thread's stack.
set_option Elab.async false

/-! ### Helpers -/

/-- The outcome is a next state of which `f` is true. -/
def succeeds (r : Result) (f : State → Bool) : Bool :=
  match r with
  | .next t => f t
  | .fault _ => false
  | .refused _ => false

theorem exists_next {r : Result} {f : State → Bool} (h : succeeds r f = true) : ∃ t, r = .next t ∧ f t = true := by
  cases r with
  | next t => exact ⟨t, rfl, h⟩
  | fault e => exact absurd h (by simp [succeeds])
  | refused e => exact absurd h (by simp [succeeds])

/-- The outcome is this fault. -/
def isFault (r : Result) (e : Fault) : Bool :=
  match r with
  | .next _ => false
  | .fault f => decide (f = e)
  | .refused _ => false

/-- The outcome is this refusal. -/
def isRefused (r : Result) (e : Refusal) : Bool :=
  match r with
  | .next _ => false
  | .fault _ => false
  | .refused f => decide (f = e)

/-- `s` with the samples `xs` at the indices from 0 on. -/
def withSamples (xs : List Sample) (s : State) : State :=
  { s with smp := (List.range' 0 xs.length).zip xs, rcv := xs.length }

/-- A session of the configuration CFG-A of 95_test_vectors.md, with stride 1. -/
def sessionA : State := ({ State.reset with cfg0 := 0x00021010, cfg1 := 0x00FFD391, cfg2 := 1 } : State).openSession

/-- The stream of vector V-T4: levels -10 and -50, payload 09, its CRC 06 38, then EOS. -/
def searchA : State :=
  { withSamples (idealSamples (-10) (-50) 1 (bitsMsb [0xAA, 0xAA, 0xD3, 0x91, 0x01, 0x09, 0x06, 0x38])) sessionA with
    eos := true }

/-- `searchA` with its candidate held, the phase resolved, and the bytes extracted. -/
def phaseA : State := { searchA with thsum := -480, th := -30, thHold := -30, st := .phase }
def extractA : State := { phaseA with mid := 0, runlen := 1, st := .extract }
def parseA : State := { extractA with dBytes := [0x01, 0x09, 0x06, 0x38], st := .parse }

/-- A beat, and a FIFO full of it. -/
def beatA : Beat := { data := 0x55, sop := false, eop := false }
def fullFifo : List Beat := List.replicate 1024 beatA

/-- A candidate with the whole look-ahead of 2104 samples held. -/
def fullLookAhead : State := { withSamples (List.replicate 2104 0) sessionA with st := .extract }

/-! ### Decoding (30_encoding.md): the words of the opcode table's rows -/

theorem test_decode_transactions :
    decodeTableWord 48 0x000000000000 = some .reset ∧
    decodeTableWord 48 0x1080FFFFFFFF = some (.wr 0x08 0xFFFFFFFF) ∧
    decodeTableWord 48 0x25C000000000 = some (.rd 0x5C) ∧
    decodeTableWord 48 0x3000FFFFFFEC = some (.smp (BitVec.ofInt 32 (-20))) ∧
    decodeTableWord 48 0x400000000000 = some .eos ∧
    decodeTableWord 48 0x500000000000 = some .srcerr ∧
    decodeTableWord 48 0x600000000000 = some .pop := by decide +kernel

/-- CMD is DATA[3:0]; DATA[7:4] and DATA[31:16] are ignored (R64, R65). -/
theorem test_decode_commands :
    decodeTableWord 48 0x100000000000 = some .nop ∧ decodeTableWord 48 0x1000ABCD12F1 = some .start ∧
    decodeTableWord 48 0x100000000002 = some .abort ∧ decodeTableWord 48 0x100000000003 = some .clrerr ∧
    decodeTableWord 48 0x100000000004 = some .clrcnt ∧ decodeTableWord 48 0x100000000005 = some .reserved5 ∧
    decodeTableWord 48 0x100000000006 = some .reserved6 ∧ decodeTableWord 48 0x100000000007 = some .reserved7 ∧
    decodeTableWord 48 0x100000000008 = some .crcInit ∧ decodeTableWord 48 0x1000FFFF31F9 = some (.crcByte 0x31) ∧
    decodeTableWord 48 0x10000000000A = some .whtInit ∧ decodeTableWord 48 0x10000000000B = some .whtStep ∧
    decodeTableWord 48 0x10000000A90C = some (.whtXor 0xA9) ∧ decodeTableWord 48 0x10000000000D = some .crcTest ∧
    decodeTableWord 48 0x10000000000E = some .reservedE ∧ decodeTableWord 48 0x10000000000F = some .reservedF := by
  decide +kernel

/-- Records that are not well formed (R63, V-P14). -/
theorem test_decode_refuses :
    decode 0x700000000000 = .ok (.reservedKind 7 0) ∧ decode 0xF12345678901 = .ok (.reservedKind 0xF 0x12345678901) ∧
    decode 0x100100000000 = .error .rsvNonzero ∧ decode 0x001000000000 = .error .addrNonzero ∧
    decode 0x300100000000 = .error .rsvNonzero ∧ decode 0x301000000000 = .error .addrNonzero ∧
    decode 0x200000000001 = .error .dataNonzero ∧ decode 0x600000000001 = .error .dataNonzero := by decide +kernel

theorem test_encode_words :
    encode (.wr 0x0C 0x00FFD391) = some 0x10C000FFD391 ∧ encode (.crcByte 0xAE) = some 0x10000000AE09 ∧
    encode (.whtXor 0xFD) = some 0x10000000FD0C ∧ encode .pop = some 0x600000000000 ∧ encode .scan = none := by
  decide +kernel

/-- The lines of P1 and P2 assemble to the records the spec prints (R74, R75). -/
theorem test_assembler :
    assemble [.wr 0x08 0x00021010, .cmd 0x9 0x31, .smp [-20], .popMany 2] =
      [0x108000021010, 0x100000003109, 0x3000FFFFFFEC, 0x600000000000, 0x600000000000] ∧
    assembleLine (.bytes 100 (-100) 1 [0xA0]) =
      [0x300000000064, 0x3000FFFFFF9C, 0x300000000064, 0x3000FFFFFF9C, 0x3000FFFFFF9C, 0x3000FFFFFF9C, 0x3000FFFFFF9C,
        0x3000FFFFFF9C] ∧
    cfgWord .cfg0 [(.syncMode, 1), (.lengthConfig, 1), (.crcEn, 1)] = 0x00021010 := by decide +kernel

/-! ### Well-formedness, with an ill-formed term for each check -/

theorem test_wellFormed_wr_needs_an_offset :
    (Instr.wr 0 5).wellFormed Params.exampleValues = false ∧ (Instr.wr 0x06 5).wellFormed Params.exampleValues = true := by
  decide

theorem test_wellFormed_smp_is_sign_extended :
    (Instr.smp 0x00008000).wellFormed Params.exampleValues = false ∧
    (Instr.smp 0xFFFF8000).wellFormed Params.exampleValues = true := by decide

theorem test_wellFormed_refuses_reserved_kinds :
    (Instr.reservedKind 7 0).wellFormed Params.exampleValues = false := by decide

/-! ### Register transactions -/

/-- V-D13, and WERR in SEARCH (V-P1). -/
theorem test_wr :
    succeeds (exec (.wr 0x08 0xFFFFFFFF) State.reset) (fun t => t.cfg0 == 0x001F3377) = true ∧
    succeeds (exec (.wr 0x0C 0x00112233) sessionA)
      (fun t => t.cfg1 == 0x00FFD391 && t.statusWord == 0x00001001) = true := by decide +kernel

/-- V-K4, V-P4, and a write to the last offset below CTRL's word. -/
theorem test_wr_special :
    succeeds (exec (.wr 0x44 0x12345) State.reset) (fun t => t.readReg .crcReg == 0x2345) = true ∧
    succeeds (exec (.wr 0x06 0xFFFFFFFF) State.reset) (fun t => decide (t = { State.reset with werr := true })) = true ∧
    succeeds (exec (.wr 0x1C 7) searchA) (fun t => t.werr && t.pos == 0) = true := by decide +kernel

/-- V-D1's STATUS in SEARCH, DESC0 and DESC1 of CFG-A with stride 1 (base_size 7, n 32, MFB 2104). -/
theorem test_rd :
    succeeds (exec (.rd 0x04) sessionA) (fun t => t.rdata == 0x00000001) = true ∧
    succeeds (exec (.rd 0x14) sessionA) (fun t => t.rdata == 0x00070202) = true ∧
    succeeds (exec (.rd 0x18) sessionA) (fun t => t.rdata == 0x08380020) = true ∧
    succeeds (exec (.rd 0x20) phaseA) (fun t => t.rdata == 0xFFFFFE20) = true ∧
    succeeds (exec (.rd 0x24) phaseA) (fun t => t.rdata == 0xFFFFFFE2) = true := by decide +kernel

/-- V-P4 and V-P11: offsets that name no register read 0, and so does CTRL. -/
theorem test_rd_reserved :
    succeeds (exec (.rd 0x06) { sessionA with rdata := 7 }) (fun t => t.rdata == 0) = true ∧
    succeeds (exec (.rd 0x5C) { sessionA with rdata := 7 }) (fun t => t.rdata == 0) = true ∧
    succeeds (exec (.rd 0x00) { sessionA with rdata := 7 }) (fun t => t.rdata == 0) = true := by decide +kernel

/-! ### Commands -/

/-- V-D1 and V-D2: STATUS, DESC0 and DESC1 after START. -/
theorem test_start :
    succeeds (exec .start { State.reset with cfg0 := 0x00021010, cfg1 := 0x00FFD391, cfg2 := 2 })
      (fun t => t.statusWord == 1 && t.desc0 == 0x00070202 && t.desc1 == 0x08380020) = true ∧
    succeeds (exec .start { State.reset with cfg0 := 0x00021031, cfg1 := 0x00FFD391, cfg2 := 1 })
      (fun t => t.statusWord == 1 && t.desc0 == 0x000A0403 && t.desc1 == 0x08500038) = true := by decide +kernel

/-- V-D4 to V-D12: the code of the first failing check. -/
theorem test_start_refused :
    configError Params.exampleValues 0x00020010 2 = 2 ∧ configError Params.exampleValues 0x00121310 2 = 1 ∧
    configError Params.exampleValues 0x000C1010 1 = 3 ∧ configError Params.exampleValues 0x000A3010 1 = 2 ∧
    configError Params.exampleValues 0x00021000 2 = 6 ∧ configError Params.exampleValues 0x00021040 2 = 6 ∧
    configError Params.exampleValues 0x00021010 0 = 7 ∧ configError Params.exampleValues 0x00021010 17 = 8 ∧
    configError { Params.exampleValues with bufCap := 1000 } 0x00021010 1 = 9 := by decide +kernel

/-- V-P13, V-P5, V-P6, V-P10 and V-P3. -/
theorem test_session_commands :
    succeeds (exec .nop searchA) (fun t => decide (t = searchA)) = true ∧
    succeeds (exec .abort { searchA with werr := true, cmdErr := true })
      (fun t => t.statusWord == 0x00003000 && t.desc0 == 0 && t.rcv == 0) = true ∧
    succeeds (exec .clrerr { State.reset with werr := true, cmdErr := true }) (fun t => t.statusWord == 0) = true ∧
    succeeds (exec .clrcnt { State.reset with pktCount := 1, dropCrc := 1, lastDrop := 0x203 })
      (fun t => t.pktCount == 0 && t.dropCrc == 0 && t.lastDrop == 0x203) = true := by decide +kernel

/-- R126's example, for each reserved code. -/
theorem test_reserved_codes :
    ([.reserved5, .reserved6, .reserved7, .reservedE, .reservedF] : List Instr).all (fun i =>
      succeeds (exec i sessionA) (fun t => t.statusWord == 0x00002001)) = true := by decide +kernel

/-- Examples of R85 to R87 (V-K1 to V-K3 on the last byte). -/
theorem test_crc_commands :
    succeeds (exec .crcInit { State.reset with crcReg := 0x1234 }) (fun t => t.crcReg == 0xFFFF) = true ∧
    succeeds (exec (.crcByte 0x31) State.reset) (fun t => t.crcReg == 0x7DA7) = true ∧
    succeeds (exec .crcTest { State.reset with crcReg := 0xAEE7, codecOut := 7 }) (fun t => t.codecOut == 0) = true ∧
    succeeds (exec .crcTest { State.reset with crcReg := 0 }) (fun t => t.codecOut == 1) = true := by decide +kernel

/-- Examples of R88 to R90 (V-K5 to V-K7). -/
theorem test_wht_commands :
    succeeds (exec .whtInit { State.reset with whtReg := 5 }) (fun t => t.whtReg == 0x1FF) = true ∧
    succeeds (exec .whtStep State.reset) (fun t => t.whtReg == 0x1E1) = true ∧
    succeeds (exec (.whtXor 0xFD) State.reset) (fun t => t.codecOut == 0x02 && t.whtReg == 0x1E1) = true ∧
    succeeds (exec (.whtXor 0xA9) { State.reset with whtReg := 0x1E1 })
      (fun t => t.codecOut == 0x48 && t.whtReg == 0x01D) = true := by decide +kernel

/-! ### Stream transactions and RESET -/

/-- A sample is stored at index `rcv`; in IDLE it is not accepted and stays pending (V-P12). -/
theorem test_smp :
    succeeds (exec (.smp 0xFFFFFF9C) sessionA) (fun t => t.rcv == 1 && t.smp == [(0, -100)]) = true ∧
    succeeds (exec (.smp 1) State.reset) (fun t => t.rcv == 0 && t.inputs.source == [0x300000000001]) = true := by
  decide +kernel

theorem test_eos : succeeds (exec .eos sessionA) (fun t => t.statusWord == 0x00000009) = true := by decide +kernel

/-- V-P7, and V-P8 in SRCERR. -/
theorem test_srcerr :
    succeeds (exec .srcerr sessionA) (fun t => t.statusWord == 0x00000016) = true ∧
    succeeds (exec .srcerr { sessionA with st := .srcErr, srcErr := true }) (fun t => t.statusWord == 0x00000016) = true := by
  decide +kernel

/-- The first and the last pop of P1. -/
theorem test_pop :
    succeeds (exec .pop { sessionA with out := packetBeats { address := none, payload := [1, 2, 3] } })
      (fun t => decide (t.popped.map Beat.response = [0x103]) && t.out.length == 3) = true ∧
    succeeds (exec .pop { sessionA with out := [⟨0x03, false, true⟩] })
      (fun t => decide (t.popped.map Beat.response = [0x203]) && !t.outValid) = true := by decide +kernel

theorem test_reset :
    succeeds (exec .reset { parseA with crcReg := 0, whtReg := 0, pktCount := 9 })
      (fun t => decide (t = State.reset)) = true := by decide +kernel

theorem test_reservedKind_refused : isRefused (exec (.reservedKind 7 0) sessionA) (.reservedKind 7) = true := by
  decide +kernel

/-! ### Functions of the codec and the parser -/

/-- V-W5, V-W8, V-C2, V-C3, V-C5. -/
theorem test_codec_functions :
    (List.range 16).map whitening =
      [0xFF, 0xE1, 0x1D, 0x9A, 0xED, 0x85, 0x33, 0x24, 0xEA, 0x7A, 0xD2, 0x39, 0x70, 0x97, 0x57, 0x0A] ∧
    dewhiten [0x02, 0x48, 0x69, 0x3F, 0x5B] = [0xFD, 0xA9, 0x74, 0xA5, 0xB6] ∧
    crc16 [0x03, 0x01, 0x02, 0x03] = 0x303A ∧ crc16 [0x00] = 0xFD02 ∧ crc16 [0xFF] = 0xFF00 ∧ crc16 [] = 0xFFFF := by
  decide +kernel

/-- Rows of 42_parser.md's table: success, CRC failure, LEN, SHORT, empty. -/
theorem test_parser :
    parseFrame 255 true [0x03, 0x01, 0x02, 0x03, 0x30, 0x3A] = .packet { address := none, payload := [1, 2, 3] } ∧
    parseFrame 255 true [0x02, 0x49, 0x69, 0x3F, 0x5B] = .drop .crc ∧
    parseFrame 2 true [0x03, 0x01, 0x02, 0x03, 0x30, 0x3A] = .drop .len ∧
    parseFrame 255 true [0x03, 0x01, 0x02, 0x03, 0x30] = .drop .short ∧
    parseFrame 255 true [] = .drop .short := by decide +kernel

/-! ### Internal steps -/

/-- V-T4: THSUM -480, THRESH -30, a match at 0. And V-S9: samples equal to the threshold do not match. -/
theorem test_scan :
    succeeds (exec .scan searchA)
      (fun t => t.st == .phase && t.thsum == -480 && t.th == -30 && t.thHold == -30 && t.pos == 0) = true ∧
    succeeds (exec .scan { withSamples (List.replicate 32 5) sessionA with eos := true })
      (fun t => t.st == .search && t.thsum == 80 && t.th == 5 && t.pos == 1 && t.smp.length == 31) = true := by
  decide +kernel

/-- R108: fewer samples than one pattern window, after EOS. -/
theorem test_finish :
    succeeds (exec .finish { withSamples (List.replicate 31 5) sessionA with eos := true })
      (fun t => t.statusWord == 0x0000000D && t.pos == 0 && t.thsum == 0) = true := by decide +kernel

/-- V-S3 (with CFG-A and S = 4): each bit sent as `0, v, v, v`; the candidate at 1 has m = T T T F, so PHASE reads
0x00030001. -/
theorem test_phase :
    succeeds (exec .phase
      { withSamples ((bitsMsb [0xAA, 0xAA, 0xD3, 0x91, 0x01]).flatMap (fun b =>
          [0, bitLevel 100 (-100) b, bitLevel 100 (-100) b, bitLevel 100 (-100) b]))
          ({ State.reset with cfg0 := 0x00021010, cfg1 := 0x00FFD391, cfg2 := 4 } : State).openSession with
        eos := true, st := .phase, pos := 1 })
      (fun t => t.st == .extract && t.readReg .phase == 0x00030001) = true := by decide +kernel

/-- The bytes of V-T4 after the sync word. -/
theorem test_extract :
    succeeds (exec .extract extractA) (fun t => t.st == .parse && t.dBytes == [0x01, 0x09, 0x06, 0x38]) = true := by
  decide +kernel

/-- V-T4's packet, and V-S5's drop with cause LEN (here with PACKET_LENGTH 0). -/
theorem test_parse :
    succeeds (exec .parse parseA)
      (fun t => t.st == .search && t.pos == 64 && t.out.map Beat.response == [0x101, 0x209] && t.pktCount == 1) = true ∧
    succeeds (exec .parse { parseA with desc := { parseA.desc with pktlen := 0 } })
      (fun t => t.pos == 56 && t.out == [] && t.dropLen == 1 && t.lastDrop == 0x00000101) = true := by decide +kernel

/-- A state no run reaches: SCAN would read samples the window does not hold (93_implementation_defined.md I12). -/
theorem test_scan_faults_without_samples :
    isFault (exec .scan { sessionA with rcv := 32 }) (.sampleAbsent 0) = true := by decide +kernel

/-- The step runs a placed record, and an undecided turn serves the register host before the block. -/
theorem test_step :
    succeeds (step (State.reset.withFetchWord 48 0x100000003109)) (fun t => t.crcReg == 0x7DA7) = true ∧
    succeeds (step ({ searchA with inputs := { Inputs.none with host := [0x100000000002] } } : State))
      (fun t => t.st == .idle) = true ∧
    succeeds (step searchA) (fun t => t.st == .phase) = true := by decide +kernel

/-- The source's order holds (R55): in IDLE its SRC_ERR does not go before the sample that waits, at a decided turn or
at an undecided one. -/
theorem test_srcerr_waits_behind_earlier_sample :
    (let s := State.reset.offerProgram 0 [0x300000000001, 0x500000000000]
     s.turns = [.agent .source, .agent .source] ∧
     succeeds (step s) (fun t => t.inputs.source == [0x300000000001, 0x500000000000]) = true) ∧
    (let s : State := { sessionA with inputs := { Inputs.none with source := [0x300000000001, 0x500000000000] } }
     succeeds (step s) (fun t => t.rcv == 1 && t.st == .search) = true) := by decide +kernel

/-- R141's examples: an ABORT and a sample in one cycle, an SRC_ERR in the cycle of a PARSE; and RESET over a register
transaction. -/
theorem test_cycle_order :
    cycleSequence [0x300000000001, 0x100000000002] = [0x100000000002, 0x300000000001] ∧
    cycleSequence [0x108000021010, 0x600000000000, 0x000000000000] = [0x000000000000, 0x600000000000] ∧
    succeeds (step (sessionA.offerCycle [0x300000000001, 0x100000000002])) (fun t => succeeds (step t) (fun u =>
      u.st == .idle && u.rcv == 0 && u.inputs.source == [0x300000000001])) = true ∧
    succeeds (step (parseA.offerCycle [0x500000000000])) (fun t => succeeds (step t) (fun u =>
      u.st == .srcErr && u.out == [] && u.pktCount == 0)) = true := by decide +kernel

/-- The same SRC_ERR in the cycle of a PARSE, with a beat pending already: it comes first, no packet is emitted,
and the beat stays pending. -/
theorem test_cycle_order_pending_beat :
    (let s : State := { parseA with eos := false, inputs := { Inputs.none with source := [0x300000000001] } }
     (s.offerCycle [0x500000000000]).turns = [.agent .source, .agent .source, .block] ∧
     succeeds (step (s.offerCycle [0x500000000000])) (fun t => succeeds (step t) (fun u => succeeds (step u) (fun v =>
       v.st == .srcErr && v.out == [] && v.rcv == 64 && v.inputs.source == [0x300000000001]))) = true) := by
  decide +kernel

/-! ### Witnesses: states and operands that meet the hypotheses of the statements

Each theorem `test_witness_<Name>` is about the statement `Obligations.<Name>`. -/

/-- The clauses of `State.Inv` for a state of a session, as one check. -/
def invCheck (s : State) : Bool :=
  s.params.legal && decide (s.smp.map Prod.fst = List.range' s.pos (s.rcv - s.pos))
  && s.smp.all (fun c => sampleInRange s.params.sampleW c.2)
  && decide (s.occ ≤ s.params.bufCap) && decide (s.out.length ≤ s.params.outFifoCap)
  && decide (s.cfg0 &&& ~~~cfg0Mask = 0) && decide (s.cfg2 &&& ~~~cfg2Mask = 0)
  && decide (s.lastDrop &&& ~~~(0x0000FF03 : Word) = 0) && decide (s.st ≠ .idle)
  && decide (configError s.params s.cfg0 s.cfg2 = 0) && decide (s.desc = buildDescriptor s.cfg0 s.cfg1 s.cfg2)
  && decide (s.desc0 = Descriptor.word0 s.desc) && decide (s.desc1 = Descriptor.word1 s.desc) && decide (s.cfgErr = 0)
  && decide (s.mid < s.desc.stride) && decide (s.runlen ≤ s.desc.stride)
  && decide (s.srcErr = true ↔ s.st = .srcErr) && decide (s.st = .done → s.eos = true)
  && decide (s.th = floorDiv s.thsum s.desc.thsize)
  && (decide (¬(s.st = .phase ∨ s.st = .extract ∨ s.st = .parse)) || s.patternHeld)
  && (decide (¬(s.st = .phase ∨ s.st = .extract ∨ s.st = .parse)) || decide (s.thHold = s.th))
  && decide (s.st = .phase → s.thsum = thresholdSum s.smp s.pos s.desc.thsize ∧
      patternMatch s.smp s.desc.stride s.thHold s.pos s.desc.pattern = true)
  && (decide (¬(s.st = .extract ∨ s.st = .parse)) || s.lookAheadHeld)
  && decide (s.dBytes.length ≤ 259) && decide (s.st ≠ .parse → s.dBytes = []) && decide (s.dBytes.length ≤ s.occ)
  && decide (s.eos = false → s.pos ≤ s.rcv)

theorem inv_of_invCheck {s : State} (h : invCheck s = true) : s.Inv := by
  simp only [invCheck, Bool.and_eq_true, Bool.or_eq_true, decide_eq_true_eq, List.all_eq_true] at h
  obtain ⟨⟨⟨⟨⟨⟨⟨⟨⟨⟨⟨⟨⟨⟨⟨⟨⟨⟨⟨⟨⟨⟨⟨⟨⟨⟨h1, h2⟩, h3⟩, h4⟩, h5⟩, h6⟩, h7⟩, h8⟩, h9⟩, h10⟩, h11⟩, h12⟩, h13⟩, h14⟩, h15⟩, h16⟩,
    h17⟩, h18⟩, h19⟩, h20⟩, h21⟩, h22⟩, h23⟩, h24⟩, h25⟩, h26⟩, h27⟩ := h
  exact
    { params := h1, window := h2, samples := h3, occupancy := h4, fifo := h5
      cfgErr := by rw [h14]; decide
      cfg0 := h6, cfg2 := h7, lastDrop := h8
      idle := fun hi => absurd hi h9
      session := fun _ =>
        { accepted := h10, desc := h11, desc0 := h12, desc1 := h13, cfgErr := h14, mid := h15, runlen := h16 }
      srcErr := h17, done := h18, threshold := h19
      candidate := fun hc =>
        { window := h20.resolve_left (fun hn => hn hc)
          threshold := h21.resolve_left (fun hn => hn hc)
          matched := h22
          lookAhead := fun hp => h23.resolve_left (fun hn => hn (hc.resolve_left hp)) }
      data := h24, dataParse := h25, dataHeld := h26, cursor := h27 }

theorem test_searchA_inv : searchA.Inv := inv_of_invCheck (by decide +kernel)
theorem test_phaseA_inv : phaseA.Inv := inv_of_invCheck (by decide +kernel)
theorem test_extractA_inv : extractA.Inv := inv_of_invCheck (by decide +kernel)
theorem test_parseA_inv : parseA.Inv := inv_of_invCheck (by decide +kernel)
theorem test_fullLookAhead_inv : fullLookAhead.Inv := inv_of_invCheck (by decide +kernel)

/-- `searchA` before end-of-stream, with a beat to pop. -/
def openA : State := { searchA with eos := false, out := [beatA] }

/-- `parseA` with a full FIFO: its packet has to wait. -/
def waitingA : State := { parseA with out := fullFifo }

theorem test_openA_inv : openA.Inv := inv_of_invCheck (by decide +kernel)
theorem test_waitingA_inv : waitingA.Inv := inv_of_invCheck (by decide +kernel)

theorem test_witness_DecodeOfEncode :
    (Instr.smp 0xFFFF8000).wellFormed Params.exampleValues = true ∧
    encode (.smp 0xFFFF8000) = some 0x3000FFFF8000 := by decide +kernel

theorem test_witness_EncodeOfDecode : decode 0x1000ABCD31F9 = .ok (.crcByte 0x31) := by decide +kernel

/-- The first clause has no hypothesis; the second, for a record of KIND 0x7, and the third, for an ABORT. -/
theorem test_witness_RecordsRefusedExactlyIfIllFormed :
    (∃ s : State, s.turns = [.agent .host] ∧ s.inputs.queue .host = [0x700000000000] ∧
      ¬ RecordWellFormed s.params 0x700000000000) ∧
    ∃ s : State, s.turns = [.agent .host] ∧ s.inputs.queue .host = [0x100000000002] ∧
      RecordWellFormed s.params 0x100000000002 :=
  ⟨⟨{ State.reset with turns := [.agent .host], inputs := { Inputs.none with host := [0x700000000000] } }, rfl, rfl,
      fun h => absurd h.kind (by decide)⟩,
    ⟨{ State.reset with turns := [.agent .host], inputs := { Inputs.none with host := [0x100000000002] } }, rfl, rfl,
      ⟨by decide, by decide, by decide, by decide, by decide⟩⟩⟩

/-- Both ends of the range for SAMPLE_W = 16, and the ends for SAMPLE_W = 2 and 32. -/
theorem test_witness_SampleOperandIsSignedInRange :
    Params.exampleValues.legal = true ∧ sampleInRange 16 (-32768) = true ∧ sampleInRange 16 32767 = true ∧
    sampleOperand Params.exampleValues 0xFFFF8000 = some (-32768) ∧
    sampleOperand Params.exampleValues 0x00007FFF = some 32767 ∧
    ({ Params.exampleValues with sampleW := 2 } : Params).legal = true ∧ sampleInRange 2 (-2) = true ∧
    ({ Params.exampleValues with sampleW := 32 } : Params).legal = true ∧
    sampleInRange 32 (-2147483648) = true := by decide +kernel

theorem test_witness_StepRunsDecodedInstruction :
    ∃ s : State, s.turns = [.agent .source] ∧ s.inputs.queue .source = [0x300000000064] ∧
      decode 0x300000000064 = .ok (.smp 100) ∧ (Instr.smp 100).wellFormed s.params = true :=
  ⟨{ sessionA with turns := [.agent .source], inputs := { Inputs.none with source := [0x300000000064] } }, rfl, rfl,
    by decide +kernel, by decide⟩

/-- One state where a step is enabled and one where none is. -/
theorem test_witness_BlockTurnRunsEnabledStep :
    ({ searchA with turns := [.block] } : State).blockInstr = some .scan ∧
    ({ sessionA with turns := [.block] } : State).blockInstr = none := by decide +kernel

theorem test_witness_FetchWordRunsItsInstruction : decodeTableWord 48 0x400000000000 = some .eos := by decide +kernel

/-- The first agent, the last one, and none; and a source that issued a sample before its SRC_ERR. -/
theorem test_witness_UndecidedTurnsFollowCycleOrder :
    agentReady { sessionA with inputs := { Inputs.none with host := [0] } } .host = true ∧
    (let s : State := { waitingA with inputs := { Inputs.none with source := [0x400000000000], sink := [0x600000000000] } }
     s.turns = [] ∧ (∀ a ∈ [Agent.host, .source], agentReady s a = false) ∧ agentReady s .sink = true) ∧
    sessionA.turns = [] ∧ agentReady sessionA .host = false ∧ agentReady sessionA .source = false ∧
    agentReady sessionA .sink = false ∧
    (let s : State := { sessionA with inputs := { Inputs.none with source := [0x300000000064, 0x500000000000] } }
     s.inputs.queue .host = [] ∧ s.inputs.queue .sink = [] ∧ (s.inputs.queue .source).all (fun r => recordAgent r == .source) = true ∧
     succeeds (step s) (fun t => t.rcv == 1 && t.inputs.queue .source == [0x500000000000]) = true) := by
  decide +kernel

/-- Each step is the enabled one somewhere; a waiting PARSE is not enabled. -/
theorem test_witness_InternalStepGuards :
    searchA.blockInstr = some .scan ∧
    (withSamples (List.replicate 31 5) { sessionA with eos := true }).blockInstr = some .finish ∧
    phaseA.blockInstr = some .phase ∧ extractA.blockInstr = some .extract ∧ parseA.blockInstr = some .parse ∧
    parseA.parsed = .packet { address := none, payload := [9] } ∧
    ({ parseA with dBytes := [] } : State).parsed = .drop .short ∧ waitingA.blockInstr = none ∧
    Instr.scan.isInternal = true ∧ parseA.blockInstr ≠ some .scan := by decide +kernel

/-- The clauses of the read and of the write table meet at these offsets, and each takes its own. -/
theorem test_witness_register_offsets :
    regAt 0x00 = some .ctrl ∧ regAt 0x01 = none ∧ regAt 0x04 = some .status ∧ regAt 0x10 = some .cfg2 ∧
    regAt 0x14 = some .desc0 ∧ regAt 0x40 = some .lastDrop ∧ regAt 0x44 = some .crcReg ∧ regAt 0x48 = some .whtReg ∧
    regAt 0x4C = some .codecOut ∧ regAt 0x58 = some .param2 ∧ regAt 0x5B = none ∧ regAt 0x5C = none ∧
    regAt 0xFC = none := by decide

theorem test_witness_ConfigurationLockedOutsideIdle :
    sessionA.st ≠ .idle ∧ succeeds (exec (.wr 0x10 7) sessionA) (fun t => t.werr && t.cfg2 == 1) = true := by
  decide +kernel

theorem test_witness_DewhitenXorsTheSequence :
    lfsrState 0 = 0x1FF ∧ ∀ k, lfsrState (k + 1) = lfsrNext (lfsrState k) := ⟨rfl, fun _ => rfl⟩

theorem test_witness_CrcDetectsOneChangedByte :
    (0x48 : Byte) ≠ 0x49 ∧ crc16 ([0x02] ++ 0x48 :: [0x69, 0x3F, 0x5B]) = 0 := by decide +kernel

/-- Two states that differ in the test registers, and an internal step. -/
theorem test_witness_FramePathAndCodecAreSeparate :
    searchA.withoutCodec = ({ searchA with crcReg := 0, whtReg := 5, rdata := 9 } : State).withoutCodec ∧
    Instr.scan.isInternal = true ∧ (∃ t, exec .scan searchA = .next t) := by
  refine ⟨rfl, rfl, ?_⟩
  obtain ⟨t, ht, -⟩ := exists_next (r := exec .scan searchA) (f := fun _ => true) (by decide +kernel)
  exact ⟨t, ht⟩

/-- NUM_PREAMBLE 0 and 7, with rep 1 and with rep 2. -/
theorem test_witness_DescriptorSizes :
    ((0x00001010 : Word).extractLsb' 0 3).toNat = 0 ∧ ((0x00001010 : Word).extractLsb' 4 3).toNat % 4 = 1 ∧
    ((0x00001020 : Word).extractLsb' 4 3).toNat % 4 = 2 ∧
    ((0x00021037 : Word).extractLsb' 0 3).toNat = 7 ∧ ((0x00021037 : Word).extractLsb' 4 3).toNat % 4 = 3 := by decide

/-- The lookups at the first and the last entry, and the fields of a word in which every field differs. -/
theorem test_witness_ConfigErrorIsFirstFailingCheck :
    ([2, 3, 4, 6, 8, 12, 16, 24] : List Nat)[((0x00021037 : Word).extractLsb' 0 3).toNat]? = some 24 ∧
    ([0, 1, 1, 2] : List Nat)[((0x00021037 : Word).extractLsb' 4 3).toNat % 4]? = some 2 ∧
    ([2, 3, 4, 6, 8, 12, 16, 24] : List Nat)[((0x00001000 : Word).extractLsb' 0 3).toNat]? = some 2 ∧
    ([0, 1, 1, 2] : List Nat)[((0x00001000 : Word).extractLsb' 4 3).toNat % 4]? = some 0 := by decide

/-- The smallest stride and the largest, with the largest frame. -/
theorem test_witness_SampleCountSizes :
    configError Params.exampleValues 0x00001010 1 = 0 ∧ configError Params.exampleValues 0x00021037 16 = 0 := by
  decide +kernel

/-- Each branch of START; the numbers of the accepted configuration are those of program P1. -/
theorem test_witness_StartEffect :
    (let s : State := { State.reset with cfg0 := 0x00021010, cfg1 := 0x00FFD391, cfg2 := 2 }
     s.st = .idle ∧ configError s.params s.cfg0 s.cfg2 = 0 ∧
      ([2, 3, 4, 6, 8, 12, 16, 24] : List Nat)[(s.cfg0.extractLsb' 0 3).toNat]? = some 2 ∧
      ([0, 1, 1, 2] : List Nat)[(s.cfg0.extractLsb' 4 3).toNat % 4]? = some 1 ∧
      32 = 8 * (2 + 2 * 1) ∧ 2104 = 32 + (2 + 255 + 2) * 8 ∧
      7 = 2 + 2 * 1 + 1 + (if s.cfg0.getLsbD 17 then 2 else 0) ∧ 2 = (s.cfg2.extractLsb' 0 16).toNat) ∧
    sessionA.st ≠ .idle ∧ State.reset.st = .idle ∧
    configError State.reset.params State.reset.cfg0 State.reset.cfg2 ≠ 0 ∧
    configError sessionA.params sessionA.cfg0 sessionA.cfg2 = 0 := by decide +kernel

/-- An accepted sample, the last one the window has room for, one past a cursor, and the three reasons to wait. -/
theorem test_witness_SampleEffect :
    sampleOperand sessionA.params 0xFFFF8000 = some (-32768) ∧
    sessionA.st.running = true ∧ sessionA.eos = false ∧ sessionA.rcv - sessionA.pos < sessionA.params.bufCap ∧
    ({ sessionA with rcv := 36735 } : State).rcv - sessionA.pos < sessionA.params.bufCap ∧
    sessionA.params.bufCap ≤ ({ sessionA with rcv := 36736 } : State).rcv - sessionA.pos ∧
    ({ sessionA with pos := 1 } : State).rcv < ({ sessionA with pos := 1 } : State).pos ∧
    State.reset.st.running = false ∧ searchA.eos = true := by decide +kernel

theorem test_witness_EosEffect :
    openA.st.running = true ∧ openA.eos = false ∧ State.reset.st.running = false ∧ searchA.eos = true := by
  decide +kernel

theorem test_witness_SourceErrorEffect :
    searchA.st = .search ∧ phaseA.st = .phase ∧ extractA.st = .extract ∧ parseA.st = .parse ∧
    State.reset.st = .idle := by decide +kernel

theorem test_witness_PopEffect : openA.out = [beatA] ∧ searchA.out = [] := by decide +kernel

theorem test_witness_MalformedInstructionsAreRefused :
    ((0x00008000 : Word).setWidth State.reset.params.sampleW).signExtend 32 ≠ 0x00008000 := by decide

theorem test_witness_ThresholdIsFloorMean :
    0 < searchA.desc.thsize ∧ searchA.withThreshold.thsum = -480 ∧ searchA.withThreshold.th = -30 := by decide +kernel

/-- Every sample from the cursor on is held in the witness states of SCAN, PHASE and EXTRACT. -/
theorem test_searchA_held : ∀ k, 0 ≤ k → k < 64 → (Memory.read searchA.smp k).isSome = true := by
  have h : ∀ k < 64, (Memory.read searchA.smp k).isSome = true := by decide +kernel
  exact fun k _ hk => h k hk

/-- A match, and a mismatch: the same samples one further along. -/
theorem test_witness_ScanEffect :
    (searchA.st = .search ∧ searchA.pos + searchA.desc.n * searchA.desc.stride ≤ searchA.rcv ∧
      0 < searchA.desc.thsize ∧ searchA.desc.thsize ≤ searchA.desc.n * searchA.desc.stride ∧
      patternMatch searchA.smp searchA.desc.stride (-30) searchA.pos searchA.desc.pattern = true) ∧
    (let s : State := { searchA with pos := 1, smp := searchA.smp.tail }
     s.pos + s.desc.n * s.desc.stride ≤ s.rcv ∧ (∀ k < 63, (Memory.read s.smp (k + 1)).isSome = true) ∧
      patternMatch s.smp s.desc.stride (floorDiv (thresholdSum s.smp 1 16) 16) 1 s.desc.pattern = false) := by
  decide +kernel

theorem test_witness_FinishEffect :
    let s : State := withSamples (List.replicate 31 5) { sessionA with eos := true }
    s.st = .search ∧ s.eos = true ∧ s.rcv < s.pos + s.desc.n * s.desc.stride := by
  decide +kernel

theorem test_witness_PhaseEffect :
    phaseA.st = .phase ∧ phaseA.eos = true ∧ 0 < phaseA.desc.stride ∧
      phaseA.pos + phaseA.desc.n * phaseA.desc.stride ≤ phaseA.rcv ∧ phaseA.smp = searchA.smp ∧
      patternMatch phaseA.smp phaseA.desc.stride phaseA.thHold phaseA.pos phaseA.desc.pattern = true := by
  decide +kernel

theorem test_witness_ChosenRunIsLongestThenLowest :
    chosenRun [true, true, false, true, true] = some (0, 1) ∧ chosenRun [false, false] = none := by decide

theorem test_witness_ExtractEffect :
    extractA.st = .extract ∧ extractA.smp = searchA.smp ∧ extractA.pos = 0 ∧ extractA.rcv = 64 := by decide +kernel

theorem test_witness_PackingUndoesMsbExpansion :
    ([true, false, true, false, true, false, true] : List Bool).length < 8 := by decide

theorem test_witness_FullLookAheadGives259Bytes :
    fullLookAhead.Inv ∧ fullLookAhead.st = .extract ∧
    fullLookAhead.pos + fullLookAhead.desc.maxsize ≤ fullLookAhead.rcv :=
  ⟨test_fullLookAhead_inv, by decide +kernel, by decide +kernel⟩

/-- The clauses of the parser at the values where they meet: `L` one above PACKET_LENGTH and at it, one byte too few and
enough, a residue that is not 0 and one that is. -/
theorem test_witness_ParserOutcomes :
    parseFrame 2 true [0x03, 0x01, 0x02, 0x03, 0x30, 0x3A] = .drop .len ∧
    parseFrame 3 true [0x03, 0x01, 0x02, 0x03, 0x30] = .drop .short ∧
    parseFrame 3 true [0x03, 0x01, 0x02, 0x03, 0x30, 0x3B] = .drop .crc ∧
    parseFrame 3 true [0x03, 0x01, 0x02, 0x03, 0x30, 0x3A] = .packet { address := none, payload := [1, 2, 3] } ∧
    parseFrame 3 false [0x03, 0x01, 0x02, 0x03] = .packet { address := none, payload := [1, 2, 3] } := by decide +kernel

theorem test_witness_FrameParsesToItsPayload :
    ([0x09] : List Byte).length ≤ 255 ∧ (List.replicate 255 0 : List Byte).length ≤ 255 := by decide +kernel

theorem test_witness_CorruptedFrameIsDropped :
    (0x48 : Byte) ≠ 0x49 ∧ (([] : List Byte) ++ 0x48 :: [0x69]).length ≤ 2 := by decide

theorem test_witness_PacketBeatsLayout :
    packetBeats { address := none, payload := [] } = [⟨0, true, true⟩] ∧
    packetBeats { address := none, payload := [7, 8] } = [⟨2, true, false⟩, ⟨7, false, false⟩, ⟨8, false, true⟩] := by
  decide

/-- A packet with the least room it needs, and a drop of each cause. -/
theorem test_witness_ParseEffect :
    parseA.st = .parse ∧
    parseFrame parseA.desc.pktlen parseA.desc.crcEn parseA.dBytes = .packet { address := none, payload := [9] } ∧
    1 + 1 ≤ parseA.params.outFifoCap - (List.replicate 1022 beatA).length ∧
    parseFrame 0 true [0x01, 0x09, 0x06, 0x38] = .drop .len ∧ parseFrame 255 true [] = .drop .short ∧
    parseFrame 255 true [0x01, 0x09, 0x06, 0x39] = .drop .crc := by decide +kernel

theorem test_witness_StepKeepsInvariant : searchA.Inv ∧ ∃ t, step searchA = .next t ∧ (t.st == .phase) = true :=
  ⟨test_searchA_inv, exists_next (by decide +kernel)⟩

theorem test_witness_StepKeepsParameters : ∃ t, step searchA = .next t ∧ (t.st == .phase) = true :=
  exists_next (by decide +kernel)

/-- A state with the invariant whose next record is refused. The other clause is `test_witness_StepKeepsInvariant`. -/
theorem test_witness_InvariantStepNeverFaults :
    ({ searchA with turns := [.agent .host], inputs := { Inputs.none with host := [0x700000000000] } } : State).Inv :=
  inv_of_invCheck (by decide +kernel)

theorem test_witness_StepKeepsWindowCanonical : Memory.wf searchA.smp ∧ ∃ t, step searchA = .next t :=
  ⟨by decide +kernel,
    let ⟨t, h, _⟩ := exists_next (r := step searchA) (f := fun _ => true) (by decide +kernel); ⟨t, h⟩⟩

/-- A session without samples accepts one; a PARSE that waits for FIFO room. -/
theorem test_witness_WaitingBlockAcceptsSamples :
    (sessionA.Inv ∧ sessionA.st.running = true ∧ sessionA.blockInstr = none ∧ sessionA.sampleReady = true) ∧
    waitingA.Inv ∧ waitingA.st.running = true ∧ waitingA.blockInstr = none ∧ waitingA.sampleReady = false :=
  ⟨⟨inv_of_invCheck (by decide +kernel), by decide +kernel, by decide +kernel, by decide +kernel⟩,
    test_waitingA_inv, by decide +kernel, by decide +kernel, by decide +kernel⟩

/-- A SCAN that commutes with a sample, with the end of the stream and with a pop. -/
theorem test_witness_InternalStepsCommuteWithStreams :
    openA.Inv ∧ openA.blockInstr = some .scan ∧ (∃ t, exec .scan openA = .next t) ∧ openA.sampleReady = true ∧
    openA.eosReady = true ∧ openA.out = [beatA] :=
  ⟨test_openA_inv, by decide +kernel,
    let ⟨t, h, _⟩ := exists_next (r := exec .scan openA) (f := fun _ => true) (by decide +kernel); ⟨t, h⟩,
    by decide +kernel, by decide +kernel, rfl⟩

theorem test_witness_RunAfterEosReachesDone :
    searchA.Inv ∧ searchA.eos = true ∧ searchA.st.running = true ∧ searchA.inputs = Inputs.none ∧ searchA.turns = [] ∧
    searchA.out.length + (searchA.rcv - searchA.pos) ≤ searchA.params.outFifoCap :=
  ⟨test_searchA_inv, by decide +kernel, by decide +kernel, rfl, rfl, by decide +kernel⟩

theorem test_witness_IdealFrameDecodesToItsPacket :
    (let s : State := { searchA with turns := [.block, .block, .block, .block] }
     s.Inv ∧ s.st = .search ∧ (-50 : Sample) < -10 ∧ ([0x09] : List Byte).length ≤ s.desc.pktlen ∧
      holdsFrom s (idealSamples (-10) (-50) s.desc.stride (bitsMsb (frameBytes s.cfg0 s.cfg1 [0x09]))) ∧
      s.lookAheadHeld = true ∧ 1 + 1 ≤ s.room) := by
  refine ⟨inv_of_invCheck (by decide +kernel), by decide +kernel, by decide, by decide +kernel, ?_, by decide +kernel,
    by decide +kernel⟩
  unfold holdsFrom
  decide +kernel

/-- START in IDLE with a configuration it accepts, in IDLE with one it refuses, and in a session with the cursor at 64;
RESET and ABORT there; a step that moves the cursor by one, and one that skips a frame. -/
theorem test_witness_CursorMovesOnlyForward :
    (let s : State := { State.reset with cfg0 := 0x00021010, cfg1 := 0x00FFD391, cfg2 := 1 }
     s.st = .idle ∧ configError s.params s.cfg0 s.cfg2 = 0) ∧
    configError State.reset.params State.reset.cfg0 State.reset.cfg2 ≠ 0 ∧
    succeeds (exec .start State.reset) (fun t => t.pos == 0) = true ∧
    (let s : State := { sessionA with pos := 64 }
     s.st ≠ .idle ∧ succeeds (exec .start s) (fun t => t.pos == 64) = true ∧
      succeeds (exec .reset s) (fun t => t.pos == 0) = true ∧ succeeds (exec .abort s) (fun t => t.pos == 0) = true) ∧
    succeeds (exec .scan (withSamples (List.replicate 32 5) sessionA)) (fun t => t.pos == 1) = true ∧
    succeeds (exec .parse parseA) (fun t => t.pos == (7 + 1) * 8) = true := by decide +kernel

/-- Each outcome of PARSE in the statement: it emits, drops with a FrameError, drops with a ChecksumError. -/
theorem test_witness_CountersCountParseOutcomes :
    parseA.blockInstr = some .parse ∧ ({ parseA with dBytes := [1, 9, 6, 0] } : State).blockInstr = some .parse ∧
    ({ parseA with dBytes := [1] } : State).blockInstr = some .parse ∧
    succeeds (exec .parse parseA) (fun t => t.pktCount == 1) = true ∧
    succeeds (exec .parse { parseA with dBytes := [1] }) (fun t => t.dropLen == 1) = true ∧
    succeeds (exec .parse { parseA with dBytes := [1, 9, 6, 0] }) (fun t => t.dropCrc == 1) = true := by decide +kernel

theorem test_witness_PortErrorsAreSticky :
    (Instr.wr 0x06 5).wellFormed State.reset.params = true ∧
    succeeds (exec (.wr 0x06 5) State.reset) (fun t => t.werr) = true ∧
    succeeds (exec .reserved5 { State.reset with werr := true }) (fun t => t.werr && t.cmdErr) = true ∧
    succeeds (exec .start sessionA) (fun t => t.cmdErr) = true := by decide +kernel

theorem test_witness_RunEndIsFinal : ({ searchA with st := .done } : State).runEnded := ⟨.inl rfl, rfl⟩

end Sys2Proof.Tests
end

section
/-!
PROOFS. The block's turn (R7, R55): where a turn is decided, the fetch is that turn's.
-/
namespace Sys2Proof.Machine

/-- The turns are no part of what enables an internal step (R107 to R113). -/
@[simp] theorem State.blockInstr_withTurns (s : State) (ts : List Turn) :
    ({ s with turns := ts } : State).blockInstr = s.blockInstr := rfl

/-- Where a turn is decided, the next move is that turn's, in the state with it taken. -/
theorem fetch_of_turns_cons {s : State} {t : Turn} {ts : List Turn} (h : s.turns = t :: ts) :
    fetch s = fetchTurn t { s with turns := ts } := by
  simp only [fetch, nextTurn, h]

theorem fetchTurn_block_of_some {s : State} {i : Instr} (h : s.blockInstr = some i) :
    fetchTurn .block s = .run i s := by
  simp only [fetchTurn, h]

theorem fetchTurn_block_of_none {s : State} (h : s.blockInstr = none) : fetchTurn .block s = .wait s := by
  simp only [fetchTurn, h]

theorem step_of_fetch_run {s s' : State} {i : Instr} (h : fetch s = .run i s') : step s = exec i s' := by
  simp only [step, h]

theorem step_of_fetch_wait {s s' : State} (h : fetch s = .wait s') : step s = .next s' := by
  simp only [step, h]

/-- Settles O8: the decided turn is fetched, and the internal step enabled with that turn taken is the one enabled
before. -/
theorem blockTurnRunsEnabledStep : Obligations.BlockTurnRunsEnabledStep := by
  intro s ts hturns
  have hfetch : fetch s = fetchTurn .block { s with turns := ts } := fetch_of_turns_cons hturns
  constructor
  · intro i hi
    exact step_of_fetch_run (hfetch.trans (fetchTurn_block_of_some (by simpa using hi)))
  · intro hnone
    exact step_of_fetch_wait (hfetch.trans (fetchTurn_block_of_none (by simpa using hnone)))

end Sys2Proof.Machine
end

section
/-!
PROOFS. What an instruction can do to the state, said once for all of them: `Effect` lists the outcomes with the guard
each was reached under, and `effect_of_exec` ties the list to `exec`. What every instruction keeps is then one case
for each outcome.
-/
namespace Sys2Proof.Machine

/-! ### The part of the state that the sessions and the counters are made of -/

/-- The state without what the ports and the codec test registers hold: WERR and CMDERR, the test registers, the last
read response, the beats taken, the pending transactions and the turns. -/
def State.withoutPorts (s : State) : State :=
  { s with
    werr := false, cmdErr := false, crcReg := 0, whtReg := 0, codecOut := 0, rdata := 0, popped := []
    inputs := Inputs.none, turns := [] }

/-- A transaction that stays pending changes its agent's queue only (R118). -/
@[simp] theorem State.withoutPorts_keepPending (i : Instr) (s : State) :
    (s.keepPending i).withoutPorts = s.withoutPorts := by
  rw [State.keepPending_eq]; rfl

/-! ### The outcomes -/

/-- The outcomes of an instruction that is no write to CTRL, with the guard of each. -/
inductive Effect (s : State) : Instr → State → Prop
  /-- Nothing but the ports and the codec test registers changes: what is held, ignored, read, or only tested. -/
  | quiet {i : Instr} {t : State} (same : t.withoutPorts = s.withoutPorts) : Effect s i t
  /-- R153. -/
  | reset : Effect s .reset s.resetBlock
  /-- A write to CFG0, CFG1 or CFG2 in IDLE (R119). -/
  | config {a : BitVec 8} {w c0 c1 c2 : Word} (idle : s.st = .idle)
      (masked0 : c0 = s.cfg0 ∨ c0 = w &&& cfg0Mask) (masked2 : c2 = s.cfg2 ∨ c2 = w &&& cfg2Mask) :
      Effect s (.wr a w) { s with cfg0 := c0, cfg1 := c1, cfg2 := c2 }
  /-- START with a configuration it refuses (R98, R133). -/
  | startRefused (idle : s.st = .idle) (refused : configError s.params s.cfg0 s.cfg2 ≠ 0) :
      Effect s .start { s with cfgErr := configError s.params s.cfg0 s.cfg2 }
  /-- START that opens a session (R98). -/
  | startOpens (idle : s.st = .idle) (accepted : configError s.params s.cfg0 s.cfg2 = 0) :
      Effect s .start s.openSession
  /-- R123. -/
  | abort : Effect s .abort s.closeSession
  /-- R124. -/
  | clrerr : Effect s .clrerr s.clearErrors
  /-- R125. -/
  | clrcnt : Effect s .clrcnt { s with pktCount := 0, dropLen := 0, dropCrc := 0 }
  /-- An accepted sample (R127). -/
  | sample {d : Word} {x : Sample} (operand : sampleOperand s.params d = some x) (ready : s.sampleReady = true) :
      Effect s (.smp d) (s.acceptSample x)
  /-- An accepted end of stream (R128). -/
  | eos (ready : s.eosReady = true) : Effect s .eos { s with eos := true }
  /-- A source error in a running state (R129). -/
  | srcerr (running : s.st.running = true) : Effect s .srcerr { s with st := .srcErr, srcErr := true, dBytes := [] }
  /-- A beat is taken (R130). -/
  | pop {b : Beat} {rest : List Beat} (head : s.out = b :: rest) :
      Effect s .pop { s with out := rest, popped := s.popped ++ [b] }
  /-- SCAN finds the pattern (R107). -/
  | scanMatch (enabled : s.scanEnabled = true)
      (hit : patternMatch s.smp s.desc.stride s.withThreshold.th s.pos s.desc.pattern = true) :
      Effect s .scan { s.withThreshold with thHold := s.withThreshold.th, st := .phase }
  /-- SCAN does not find it (R107). -/
  | scanMismatch (enabled : s.scanEnabled = true)
      (miss : patternMatch s.smp s.desc.stride s.withThreshold.th s.pos s.desc.pattern = false) :
      Effect s .scan (s.withThreshold.moveTo (s.pos + 1))
  /-- R108. -/
  | finish (enabled : s.finishEnabled = true) : Effect s .finish { s with st := .done }
  /-- R109. -/
  | phase {a b : Nat} (enabled : s.phaseEnabled = true) (chosen : chosenRun (phaseSweep s) = some (a, b)) :
      Effect s .phase { s with mid := (a + b) / 2, runlen := b - a + 1, st := .extract }
  /-- R111. -/
  | extract (enabled : s.extractEnabled = true) : Effect s .extract { s with dBytes := candidateData s, st := .parse }
  /-- PARSE emits a packet (R113). -/
  | emit {p : Packet} (parse : s.st = .parse) (parsed : s.parsed = .packet p) (room : 1 + p.payload.length ≤ s.room) :
      Effect s .parse (s.emitPacket p)
  /-- PARSE drops a frame (R113). -/
  | drop {c : DropCause} (parse : s.st = .parse) (parsed : s.parsed = .drop c) : Effect s .parse (s.dropFrame c)

/-- An instruction that holds, or only waits, changes nothing that counts. -/
theorem Effect.refl (i : Instr) (s : State) : Effect s i s := .quiet rfl

/-- A write to an offset other than CTRL's has one of the listed outcomes (R119). -/
theorem effect_of_execWr {addr : BitVec 8} {w : Word} {s t : State} (ha : regAt addr ≠ some .ctrl)
    (h : execWr addr w s = .next t) : Effect s (.wr addr w) t := by
  rcases execWr_next ha h with rfl | ⟨hs, _, rfl⟩ | ⟨hs, _, rfl⟩ | ⟨hs, _, rfl⟩ | ⟨_, rfl⟩ | ⟨_, rfl⟩
  · exact .quiet rfl
  · exact .config hs (.inr rfl) (.inl rfl)
  · exact .config hs (.inl rfl) (.inl rfl)
  · exact .config hs (.inl rfl) (.inr rfl)
  · exact .quiet rfl
  · exact .quiet rfl

/-- Every instruction but a write to CTRL has one of the listed outcomes. -/
theorem effect_of_exec {i : Instr} {s t : State} (hi : ∀ a w, i = .wr a w → regAt a ≠ some .ctrl)
    (h : exec i s = .next t) : Effect s i t := by
  cases i <;> simp only [exec] at h
  case reset => cases h; exact .reset
  case wr a w => exact effect_of_execWr (hi a w rfl) h
  case smp d =>
    rcases execSmp_next h with ⟨x, hx, hr, rfl⟩ | ⟨_, rfl⟩
    · exact .sample hx hr
    · exact .quiet (State.withoutPorts_keepPending _ _)
  case eos =>
    rcases execEos_next h with ⟨hr, rfl⟩ | ⟨_, rfl⟩
    · exact .eos hr
    · exact .quiet (State.withoutPorts_keepPending _ _)
  case srcerr =>
    rcases execSrcerr_next h with ⟨hr, rfl⟩ | ⟨_, rfl⟩
    · exact .srcerr hr
    · exact .refl _ _
  case pop =>
    rcases execPop_next h with ⟨b, rest, ho, rfl⟩ | ⟨_, rfl⟩
    · exact .pop ho
    · exact .quiet (State.withoutPorts_keepPending _ _)
  case start =>
    rcases execStart_next h with ⟨_, rfl⟩ | ⟨hs, hc, rfl⟩ | ⟨hs, hc, rfl⟩
    · exact .quiet rfl
    · exact .startRefused hs hc
    · exact .startOpens hs hc
  case abort => cases h; exact .abort
  case clrerr => cases h; exact .clrerr
  case clrcnt => cases h; exact .clrcnt
  case scan =>
    rcases execScan_next h with ⟨_, rfl⟩ | ⟨he, _, _, rfl⟩
    · exact .refl _ _
    · rcases s.scanTest_cases with ⟨hm, e⟩ | ⟨hm, e⟩ <;> rw [e]
      · exact .scanMatch he hm
      · exact .scanMismatch he hm
  case finish =>
    rcases execFinish_next h with ⟨_, rfl⟩ | ⟨he, rfl⟩
    · exact .refl _ _
    · exact .finish he
  case phase =>
    rcases execPhase_next h with ⟨_, rfl⟩ | ⟨he, _, a, b, hr, rfl⟩
    · exact .refl _ _
    · exact .phase he hr
  case extract =>
    rcases execExtract_next h with ⟨_, rfl⟩ | ⟨he, _, rfl⟩
    · exact .refl _ _
    · exact .extract he
  case parse =>
    rcases execParse_next h with ⟨_, rfl⟩ | ⟨hs, p, hp, hr, rfl⟩ | ⟨hs, c, hc, rfl⟩
    · exact .refl _ _
    · exact .emit hs hp hr
    · exact .drop hs hc
  case reservedKind => cases h
  all_goals cases h; exact .quiet rfl

/-! ### A write to CTRL is a command -/

/-- CTRL is the register at offset 0 and nowhere else (R19). -/
theorem regAt_ctrl {a : BitVec 8} (h : regAt a = some .ctrl) : a = 0 := by
  unfold regAt at h
  split at h
  case h_1 h0 => exact BitVec.eq_of_toNat_eq h0
  all_goals cases h

/-- A well-formed instruction is no write to CTRL (R62). -/
theorem regAt_ne_ctrl_of_wellFormed {p : Params} {i : Instr} (hi : i.wellFormed p = true) (a : BitVec 8) (w : Word)
    (e : i = .wr a w) : regAt a ≠ some .ctrl := by
  subst e
  intro hc
  simp [Instr.wellFormed, regAt_ctrl hc] at hi

/-- A write to CTRL runs the command its word decodes to (R65, R121). -/
theorem execCommand_eq_exec (w : Word) (s : State) : execCommand w s = exec (decodeCommand w) s := by
  unfold execCommand decodeCommand
  generalize (commandCode w).toNat = code
  match code with
  | 0 | 1 | 2 | 3 | 4 | 5 | 6 | 7 | 8 | 9 | 10 | 11 | 12 | 13 | 14 => rfl
  | _ + 15 => rfl

/-- A command is no register write. -/
theorem decodeCommand_ne_wr (w : Word) (a : BitVec 8) (w' : Word) : decodeCommand w ≠ .wr a w' := by
  unfold decodeCommand
  split <;> simp

/-- Whatever runs, it has a listed outcome: its own, or its command's where it writes CTRL. -/
theorem exists_effect_of_exec {i : Instr} {s t : State} (h : exec i s = .next t) : ∃ j, Effect s j t := by
  by_cases hi : ∀ a w, i = .wr a w → regAt a ≠ some .ctrl
  · exact ⟨i, effect_of_exec hi h⟩
  · push Not at hi
    obtain ⟨a, w, rfl, ha⟩ := hi
    have hcmd : execCommand w s = .next t := by simpa only [exec, execWr, ha] using h
    exact ⟨_, effect_of_exec (fun a' w' e => absurd e (decodeCommand_ne_wr w a' w')) (execCommand_eq_exec w s ▸ hcmd)⟩

/-- Whatever a step does, it is the outcome of an instruction, after a fetch that changes `inputs` and `turns` only. -/
theorem effect_of_step {s t : State} (h : step s = .next t) :
    ∃ (q : Inputs) (ts : List Turn) (j : Instr), Effect { s with inputs := q, turns := ts } j t := by
  rcases step_cases s with ⟨i, q, ts, e⟩ | ⟨q, ts, e⟩ | ⟨_, e⟩ <;> rw [e] at h
  · obtain ⟨j, hj⟩ := exists_effect_of_exec h
    exact ⟨q, ts, j, hj⟩
  · cases h; exact ⟨q, ts, .nop, .refl _ _⟩
  · cases h

end Sys2Proof.Machine
end

section
/-!
PROOFS. The window's canonical form (log entry 13), the cursor (R37) and the counters (R30): one case for each outcome
of an instruction.
-/
namespace Sys2Proof.Machine

/-! ### What the quiet outcomes keep -/

theorem smp_eq_of_withoutPorts {s t : State} (h : t.withoutPorts = s.withoutPorts) : t.smp = s.smp :=
  (congrArg State.smp h :)

theorem pos_eq_of_withoutPorts {s t : State} (h : t.withoutPorts = s.withoutPorts) : t.pos = s.pos :=
  (congrArg State.pos h :)

theorem pktCount_eq_of_withoutPorts {s t : State} (h : t.withoutPorts = s.withoutPorts) : t.pktCount = s.pktCount :=
  (congrArg State.pktCount h :)

theorem dropLen_eq_of_withoutPorts {s t : State} (h : t.withoutPorts = s.withoutPorts) : t.dropLen = s.dropLen :=
  (congrArg State.dropLen h :)

theorem dropCrc_eq_of_withoutPorts {s t : State} (h : t.withoutPorts = s.withoutPorts) : t.dropCrc = s.dropCrc :=
  (congrArg State.dropCrc h :)

/-! ### The window's canonical form -/

/-- Accepting a sample keeps the canonical form: it is stored, or discarded at once (R41). -/
theorem Memory.wf_acceptSample {s : State} (x : Sample) (h : Memory.wf s.smp) : Memory.wf (s.acceptSample x).smp := by
  rw [State.acceptSample_smp]
  split
  · exact Memory.write_wf _ _ h
  · exact h

/-- Only a sample, a move of the cursor and the end of a session touch the window. -/
theorem Effect.window_wf {i : Instr} {s t : State} (e : Effect s i t) (h : Memory.wf s.smp) : Memory.wf t.smp := by
  cases e with
  | quiet same => rw [smp_eq_of_withoutPorts same]; exact h
  | sample _ _ => exact Memory.wf_acceptSample _ h
  | scanMismatch | emit | drop => exact Memory.discard_wf _ h
  | reset | startOpens | abort => exact Memory.wf_reset
  | config | startRefused | clrerr | clrcnt | eos | srcerr | pop | scanMatch | finish | phase | extract => exact h

/-- Settles O52: whatever a step does is one of the listed outcomes, and each keeps the form. -/
theorem stepKeepsWindowCanonical : Obligations.StepKeepsWindowCanonical := by
  intro s t hwf hstep
  obtain ⟨q, ts, j, e⟩ := effect_of_step hstep
  exact e.window_wf hwf

/-! ### The cursor (R37) -/

/-- Where the cursor moves without an end or a beginning of a session: SCAN's mismatch, and PARSE's two outcomes. -/
theorem Effect.pos_cases {i : Instr} {s t : State} (e : Effect s i t) (hr : i ≠ .reset) (ha : i ≠ .abort)
    (hs : i ≠ .start) :
    t.pos = s.pos ∨
    (i = .scan ∧ patternMatch s.smp s.desc.stride s.withThreshold.th s.pos s.desc.pattern = false ∧
      t.pos = s.pos + 1) ∨
    (i = .parse ∧ ∃ skipBits, t.pos = s.pos + skipBits * s.desc.stride ∧
      ((∃ c, s.parsed = .drop c ∧ skipBits = s.desc.baseSize * 8) ∨
        ∃ p, s.parsed = .packet p ∧ skipBits = (s.desc.baseSize + p.payload.length) * 8)) := by
  cases e with
  | quiet same => exact .inl (pos_eq_of_withoutPorts same)
  | scanMismatch _ miss => exact .inr (.inl ⟨rfl, miss, rfl⟩)
  | @emit p _ parsed _ => exact .inr (.inr ⟨rfl, _, State.emitPacket_pos p s, .inr ⟨p, parsed, rfl⟩⟩)
  | @drop c _ parsed => exact .inr (.inr ⟨rfl, _, State.dropFrame_pos c s, .inl ⟨c, parsed, rfl⟩⟩)
  | reset => exact absurd rfl hr
  | abort => exact absurd rfl ha
  | startOpens | startRefused => exact absurd rfl hs
  | config | clrerr | clrcnt | sample | eos | srcerr | pop | scanMatch | finish | phase | extract => exact .inl rfl

/-- START leaves the cursor where it opens no session (R98). -/
theorem execStart_pos_of_not_opens {s t : State} (hno : s.st ≠ .idle ∨ configError s.params s.cfg0 s.cfg2 ≠ 0)
    (h : execStart s = .next t) : t.pos = s.pos := by
  rcases execStart_next h with ⟨_, rfl⟩ | ⟨_, _, rfl⟩ | ⟨hidle, hcfg, rfl⟩
  · rfl
  · rfl
  · exact absurd hidle (hno.resolve_right (not_not.mpr hcfg))

/-- START that opens a session puts the cursor to 0 (R98). -/
theorem execStart_pos_of_opens {s t : State} (hidle : s.st = .idle) (hcfg : configError s.params s.cfg0 s.cfg2 = 0)
    (h : execStart s = .next t) : t.pos = 0 := by
  rcases execStart_next h with ⟨hne, _⟩ | ⟨_, hne, _⟩ | ⟨_, _, rfl⟩
  · exact absurd hidle hne
  · exact absurd hcfg hne
  · rfl

/-- Within a session the cursor never decreases (R37). -/
theorem exec_pos_le {i : Instr} {s t : State} (hi : i.wellFormed s.params = true) (hst : s.st ≠ .idle)
    (hr : i ≠ .reset) (ha : i ≠ .abort) (h : exec i s = .next t) : s.pos ≤ t.pos := by
  by_cases hs : i = .start
  · subst hs
    exact (execStart_pos_of_not_opens (.inl hst) h).ge
  · rcases (effect_of_exec (regAt_ne_ctrl_of_wellFormed hi) h).pos_cases hr ha hs with
      e | ⟨_, _, e⟩ | ⟨_, _, e, _⟩ <;> rw [e]
    · exact Nat.le_succ _
    · exact Nat.le_add_right _ _

/-- Settles O57: START by its three outcomes, every other instruction by the listed ones. -/
theorem cursorMovesOnlyForward : Obligations.CursorMovesOnlyForward := by
  refine ⟨rfl, ?reset, ?abort, ?opens, ?leaves, ?moves, ?forward⟩
  case reset => intro s t h; cases h; rfl
  case abort => intro s t h; cases h; rfl
  case opens => exact fun s t hidle hcfg h => execStart_pos_of_opens hidle hcfg h
  case leaves => exact fun s t hno h => execStart_pos_of_not_opens hno h
  case moves =>
    exact fun i s t hi hr ha hs h => (effect_of_exec (regAt_ne_ctrl_of_wellFormed hi) h).pos_cases hr ha hs
  case forward => exact fun i s t hi hst hr ha h => exec_pos_le hi hst hr ha h

/-! ### The counters (R30) -/

/-- Only PARSE counts, and only RESET and CLRCNT clear. -/
theorem Effect.counters_eq {i : Instr} {s t : State} (e : Effect s i t) (hr : i ≠ .reset) (hc : i ≠ .clrcnt)
    (hp : i ≠ .parse) : t.pktCount = s.pktCount ∧ t.dropLen = s.dropLen ∧ t.dropCrc = s.dropCrc := by
  cases e with
  | quiet same =>
    exact ⟨pktCount_eq_of_withoutPorts same, dropLen_eq_of_withoutPorts same, dropCrc_eq_of_withoutPorts same⟩
  | reset => exact absurd rfl hr
  | clrcnt => exact absurd rfl hc
  | emit | drop => exact absurd rfl hp
  | config | startRefused | startOpens | abort | clrerr | sample | eos | srcerr | pop | scanMatch | scanMismatch
  | finish | phase | extract => exact ⟨rfl, rfl, rfl⟩

/-- The internal step that a block's turn runs has its guard: PARSE's. -/
theorem parseEnabled_of_blockInstr {s : State} (h : s.blockInstr = some .parse) : s.parseEnabled = true := by
  unfold State.blockInstr at h
  grind

/-- A packet emitted adds beats to the FIFO (R70, R113). -/
theorem State.emitPacket_out_length_gt (p : Packet) (s : State) : s.out.length < (s.emitPacket p).out.length := by
  rw [State.emitPacket_out, List.length_append, packetBeats_length]; omega

/-- Settles O58: PARSE by its outcomes, every other instruction by the listed ones. -/
theorem countersCountParseOutcomes : Obligations.CountersCountParseOutcomes := by
  refine ⟨?others, ?clear, ?parse⟩
  case others =>
    exact fun i s t hi hr hc hp h => (effect_of_exec (regAt_ne_ctrl_of_wellFormed hi) h).counters_eq hr hc hp
  case clear => rintro i s t (rfl | rfl) h <;> cases h <;> exact ⟨rfl, rfl, rfl⟩
  case parse =>
    intro s t henabled h
    rcases execParse_next h with ⟨hoff, _⟩ | ⟨_, p, _, _, rfl⟩ | ⟨_, c, hc, rfl⟩
    · rw [parseEnabled_of_blockInstr henabled] at hoff; cases hoff
    · exact .inl ⟨s.emitPacket_out_length_gt p, rfl, rfl, rfl⟩
    · cases c with
      | len => exact .inr (.inl ⟨rfl, .inl hc, rfl, rfl, rfl⟩)
      | short => exact .inr (.inl ⟨rfl, .inr hc, rfl, rfl, rfl⟩)
      | crc => exact .inr (.inr ⟨rfl, hc, rfl, rfl, rfl⟩)

end Sys2Proof.Machine
end

section
/-!
PROOFS. The bounds the invariant's clauses rest on: the range of a sample (R69), the chosen run (R110), the bits
EXTRACT samples (R111), the payload's length (R100), LAST_DROP's bits (R31), and how far PARSE moves (R113).
-/
namespace Sys2Proof.Machine

/-! ### The sample operand (R63, R69) -/

/-- A two's-complement value of `w` bits is a sample of width `w` (R69). -/
theorem sampleInRange_toInt {w : Nat} (b : BitVec w) : sampleInRange w b.toInt = true := by
  rw [sampleInRange, Bool.and_eq_true, decide_eq_true_eq, decide_eq_true_eq]
  exact ⟨b.le_toInt, b.toInt_lt⟩

/-- Sign-extended DATA carries a sample in range. -/
theorem sampleOperand_inRange {p : Params} {d : Word} {x : Sample} (hp : p.legal = true)
    (h : sampleOperand p d = some x) : sampleInRange p.sampleW x = true := by
  have hw : p.sampleW ≤ 32 := by
    simp only [Params.legal, Bool.and_eq_true, decide_eq_true_eq] at hp
    obtain ⟨⟨⟨⟨_, hw⟩, _⟩, _⟩, _⟩ := hp
    exact hw
  unfold sampleOperand at h
  split at h
  · rename_i hext
    cases h
    rw [← hext, BitVec.toInt_signExtend_of_le hw]
    exact sampleInRange_toInt _
  · cases h

/-! ### The chosen run (R110) -/

/-- Every run listed lies inside the offsets swept. -/
theorem runsFrom_bound {m : List Bool} {i len : Nat} (hlen : len ≤ i) {r : Nat × Nat} (hr : r ∈ runsFrom i len m) :
    0 < r.2 ∧ r.1 + r.2 ≤ i + m.length := by
  induction m generalizing i len with
  | nil =>
    rw [runsFrom] at hr
    split at hr
    · cases hr
    · rw [List.mem_singleton.mp hr, List.length_nil]; dsimp only; omega
  | cons b m ih =>
    rw [List.length_cons]
    cases b with
    | true =>
      rw [runsFrom] at hr
      have := ih (by omega) hr
      omega
    | false =>
      rw [runsFrom] at hr
      split at hr
      · have := ih (by omega) hr
        omega
      · rcases List.mem_cons.mp hr with rfl | hr
        · dsimp only; omega
        · have := ih (by omega) hr
          omega

/-- The longest run is one of the runs. -/
theorem longestRun_mem {rs : List (Nat × Nat)} {r : Nat × Nat} (h : longestRun rs = some r) : r ∈ rs := by
  induction rs generalizing r with
  | nil => cases h
  | cons q rs ih =>
    rw [longestRun] at h
    split at h
    · cases h; exact List.mem_cons_self
    · rename_i q' hq
      split at h
      · cases h; exact List.mem_cons_of_mem _ (ih hq)
      · cases h; exact List.mem_cons_self

/-- The chosen run `[a, b]` is a non-empty range of offsets (R110). -/
theorem chosenRun_bound {m : List Bool} {a b : Nat} (h : chosenRun m = some (a, b)) : a ≤ b ∧ b < m.length := by
  unfold chosenRun at h
  split at h
  · cases h
  · rename_i a' len hr
    cases h
    have := runsFrom_bound (Nat.le_refl 0) (longestRun_mem hr)
    dsimp only at this
    omega

@[simp] theorem phaseSweep_length (s : State) : (phaseSweep s).length = s.desc.stride := by simp [phaseSweep]

/-! ### The candidate's data (R111) -/

/-- With a stride of at least 1, EXTRACT reads no more positions than there are indices before the limit. -/
theorem extractIndices_length_le_sub {p stride limit fuel : Nat} (hs : 1 ≤ stride) :
    (extractIndices p stride limit fuel).length ≤ limit - p := by
  induction fuel generalizing p with
  | zero => exact Nat.zero_le _
  | succ fuel ih =>
    rw [extractIndices]
    split
    · have := ih (p := p + stride)
      rw [List.length_cons]; omega
    · exact Nat.zero_le _

/-- EXTRACT samples no more bits than the window holds (R111). -/
theorem candidateIndices_length_le_occ {s : State} (hs : 1 ≤ s.desc.stride) :
    (candidateIndices s).length ≤ s.occ := by
  have h : (candidateIndices s).length ≤ s.lookAheadEnd - (s.pos + s.mid) := extractIndices_length_le_sub hs
  simp only [State.lookAheadEnd, State.occ] at h ⊢
  omega

/-- `D` is never longer than the window it was sampled from (R111). -/
theorem candidateData_length_le_occ {s : State} (hs : 1 ≤ s.desc.stride) : (candidateData s).length ≤ s.occ := by
  have h := candidateIndices_length_le_occ hs
  rw [candidateData_length, candidateBytes_length]; omega

/-- `D` is at most 2 + 255 + 2 bytes long (R36, R96). -/
theorem candidateData_length_le {s : State} (h : SessionSizes s) : (candidateData s).length ≤ 259 := by
  have hbits : (candidateIndices s).length ≤ s.desc.mfb := extractIndices_length_le _ _ _ _
  rw [h.mfb] at hbits
  rw [candidateData_length, candidateBytes_length]; omega

/-! ### PARSE (R100, R113) -/

/-- A payload is as long as its length byte says, or shorter (R100). -/
theorem parseFrame_payload_length_le {pktlen : Nat} {crcOn : Bool} {d : List Byte} {p : Packet}
    (h : parseFrame pktlen crcOn d = .packet p) : p.payload.length ≤ 255 := by
  cases d with
  | nil => cases h
  | cons b rest =>
    rw [parseFrame] at h
    split at h; · cases h
    split at h; · cases h
    split at h; · cases h
    cases h
    have hb := b.isLt
    have ht := rest.length_take_le b.toNat
    dsimp only
    omega

/-- A frame of at most 258 bytes after the pattern ends inside the look-ahead (R97, R113). -/
theorem skip_le_maxsize {s : State} (h : SessionSizes s) {len : Nat} (hl : len ≤ 255) :
    (s.desc.baseSize + len) * 8 * s.desc.stride ≤ s.desc.maxsize := by
  have hbase := h.baseSize
  rw [h.maxsize, h.mfb]
  exact Nat.mul_le_mul_right _ (by omega)

/-- LAST_DROP's byte of LEN stays in bits 15 to 8 (R31). -/
theorem shiftedByte_reserved (b : Byte) : (b.setWidth 32 <<< 8) &&& ~~~(0x0000FF03 : Word) = 0 := by
  refine BitVec.eq_of_getLsbD_eq fun i hi => ?_
  simp only [BitVec.getLsbD_and, BitVec.getLsbD_shiftLeft, BitVec.getLsbD_setWidth]
  by_cases hlow : i < 8
  · simp [hlow]
  · by_cases hhigh : i < 16
    · interval_cases i <;> simp_all
    · rw [b.getLsbD_of_ge (i - 8) (by omega)]; simp

/-- LAST_DROP's reserved bits are 0 after a drop (R19, R31). -/
theorem lastDrop_reserved (c : DropCause) (b : Byte) :
    (c.code ||| (b.setWidth 32 <<< 8)) &&& ~~~(0x0000FF03 : Word) = 0 := by
  have hcode : c.code &&& ~~~(0x0000FF03 : Word) = 0 := by cases c <;> decide
  rw [BitVec.and_or_distrib_right, hcode, shiftedByte_reserved]
  rfl

/-- A word masked by a register's fields has its reserved bits 0 (R19). -/
theorem masked_reserved (w m : Word) : (w &&& m) &&& ~~~m = 0 := by
  rw [BitVec.and_assoc, BitVec.and_not_self]
  exact BitVec.and_zero

/-! ### The window when a sample comes (R41, R127) -/

/-- A sample stored behind consecutive indices continues them. -/
theorem Memory.write_range {w : Memory} {a n : Nat} (x : Sample) (h : w.map Prod.fst = List.range' a n) :
    Memory.write (a + n) x w = w ++ [(a + n, x)] := by
  refine Memory.write_of_forall_lt x fun c hc => ?_
  have hmem : c.1 ∈ List.range' a n := h ▸ List.mem_map_of_mem hc
  exact (List.mem_range'_1.mp hmem).2

end Sys2Proof.Machine
end

section
/-!
PROOFS. The invariant of the block's state (R18 to R42): one lemma for each update of the state, each with the guard it
is made under, and then one case for each outcome of an instruction.
-/
namespace Sys2Proof.Machine

/-! ### What the guards say -/

theorem St.ne_idle_of_running {st : St} (h : st.running = true) : st ≠ .idle := by
  rintro rfl; cases h

/-- `s_ready` for a SAMPLE (R118, R127). -/
theorem State.sampleReady_iff {s : State} :
    s.sampleReady = true ↔ s.st.running = true ∧ s.eos = false ∧ s.occ < s.params.bufCap := by
  simp [State.sampleReady, and_assoc]

/-- `s_ready` for an EOS (R118, R128). -/
theorem State.eosReady_iff {s : State} : s.eosReady = true ↔ s.st.running = true ∧ s.eos = false := by
  simp [State.eosReady]

/-- SCAN's guard (R107). -/
theorem State.scanEnabled_iff {s : State} : s.scanEnabled = true ↔ s.st = .search ∧ s.patternHeld = true := by
  simp [State.scanEnabled]

theorem State.patternHeld_iff {s : State} : s.patternHeld = true ↔ s.pos + s.desc.n * s.desc.stride ≤ s.rcv := by
  simp [State.patternHeld]

theorem State.lookAheadHeld_iff {s : State} :
    s.lookAheadHeld = true ↔ s.pos + s.desc.maxsize ≤ s.rcv ∨ s.eos = true := by
  simp [State.lookAheadHeld]

/-- An open session's descriptor has the sizes of R97. -/
theorem State.Inv.sizes {s : State} (h : s.Inv) (hst : s.st ≠ .idle) : SessionSizes s := (h.session hst).sizes

/-! ### Updates outside a session -/

/-- The invariant says nothing of the ports and the codec test registers. -/
theorem State.inv_withoutPorts_iff {s : State} : s.withoutPorts.Inv ↔ s.Inv where
  mp h :=
    { h with
      idle := fun hst => { h.idle hst with }
      session := fun hst => { h.session hst with }
      candidate := fun hst => { h.candidate hst with } }
  mpr h :=
    { h with
      idle := fun hst => { h.idle hst with }
      session := fun hst => { h.session hst with }
      candidate := fun hst => { h.candidate hst with } }

theorem State.Inv.of_withoutPorts_eq {s t : State} (h : s.Inv) (e : t.withoutPorts = s.withoutPorts) : t.Inv :=
  State.inv_withoutPorts_iff.mp (e ▸ State.inv_withoutPorts_iff.mpr h)

/-- An idle state with its session clear has the invariant. -/
theorem State.inv_of_idle {s : State} (params : s.params.legal = true) (idle : s.st = .idle) (clear : SessionClear s)
    (srcErr : s.srcErr = false) (cfgErr : s.cfgErr.toNat ≤ 9) (cfg0 : s.cfg0 &&& ~~~cfg0Mask = 0)
    (cfg2 : s.cfg2 &&& ~~~cfg2Mask = 0) (lastDrop : s.lastDrop &&& ~~~(0x0000FF03 : Word) = 0) : s.Inv where
  params := params
  window := by rw [clear.smp, clear.rcv, clear.pos]; rfl
  samples c hc := by rw [clear.smp] at hc; cases hc
  occupancy := by rw [State.occ, clear.rcv, Nat.zero_sub]; exact Nat.zero_le _
  fifo := by rw [clear.out]; exact Nat.zero_le _
  cfgErr := cfgErr
  cfg0 := cfg0
  cfg2 := cfg2
  lastDrop := lastDrop
  idle _ := clear
  session hst := absurd idle hst
  srcErr := by simp [srcErr, idle]
  done hst := by rw [idle] at hst; cases hst
  threshold := by rw [clear.th, clear.thsum, clear.desc]; rfl
  candidate hst := by simp [idle] at hst
  data := by rw [clear.dBytes]; exact Nat.zero_le _
  dataParse _ := clear.dBytes
  dataHeld := by rw [clear.dBytes]; exact Nat.zero_le _
  cursor _ := by rw [clear.pos]; exact Nat.zero_le _

/-- RESET (R153). -/
theorem State.Inv.resetBlock {s : State} (h : s.Inv) : s.resetBlock.Inv :=
  State.inv_of_idle h.params rfl (by constructor <;> rfl) rfl (Nat.zero_le _) BitVec.zero_and BitVec.zero_and
    BitVec.zero_and

/-- ABORT (R123). -/
theorem State.Inv.closeSession {s : State} (h : s.Inv) : s.closeSession.Inv :=
  State.inv_of_idle h.params rfl (by constructor <;> rfl) rfl (Nat.zero_le _) h.cfg0 h.cfg2 h.lastDrop

/-- A write to the configuration in IDLE stores its fields only (R46, R119). -/
theorem State.Inv.config {s : State} {c0 c1 c2 : Word} (h : s.Inv) (hst : s.st = .idle)
    (h0 : c0 &&& ~~~cfg0Mask = 0) (h2 : c2 &&& ~~~cfg2Mask = 0) :
    ({ s with cfg0 := c0, cfg1 := c1, cfg2 := c2 } : State).Inv :=
  State.inv_of_idle h.params hst { h.idle hst with } (by simpa [hst] using h.srcErr) h.cfgErr h0 h2 h.lastDrop

/-- A START refused leaves its code (R98). -/
theorem State.Inv.startRefused {s : State} (h : s.Inv) (hst : s.st = .idle) :
    ({ s with cfgErr := configError s.params s.cfg0 s.cfg2 } : State).Inv :=
  State.inv_of_idle h.params hst { h.idle hst with } (by simpa [hst] using h.srcErr) (configError_le_nine _ _ _)
    h.cfg0 h.cfg2 h.lastDrop

/-- CLRERR (R124). -/
theorem State.Inv.clearErrors {s : State} (h : s.Inv) : s.clearErrors.Inv :=
  { h with
    cfgErr := Nat.zero_le _
    lastDrop := BitVec.zero_and
    idle := fun hst => { h.idle hst with }
    session := fun hst => { h.session hst with cfgErr := rfl }
    candidate := fun hst => { h.candidate hst with } }

/-- CLRCNT (R125). -/
theorem State.Inv.clearCounters {s : State} (h : s.Inv) :
    ({ s with pktCount := 0, dropLen := 0, dropCrc := 0 } : State).Inv :=
  { h with
    idle := fun hst => { h.idle hst with }
    session := fun hst => { h.session hst with }
    candidate := fun hst => { h.candidate hst with } }

/-! ### A session opens (R98) -/

/-- What START latches is the session's (R35, R98). -/
theorem sessionOpen_openSession {s : State} (haccepted : configError s.params s.cfg0 s.cfg2 = 0) :
    SessionOpen s.openSession where
  accepted := haccepted
  desc := rfl
  desc0 := rfl
  desc1 := rfl
  cfgErr := rfl
  mid := (accepted_of_configError_eq_zero haccepted).strideLow
  runlen := Nat.zero_le _

/-- START with an accepted configuration (R98). -/
theorem State.Inv.openSession {s : State} (h : s.Inv) (haccepted : configError s.params s.cfg0 s.cfg2 = 0) :
    s.openSession.Inv where
  params := h.params
  window := rfl
  samples c hc := by cases hc
  occupancy := Nat.zero_le _
  fifo := Nat.zero_le _
  cfgErr := Nat.zero_le _
  cfg0 := h.cfg0
  cfg2 := h.cfg2
  lastDrop := h.lastDrop
  idle hst := by cases hst
  session _ := sessionOpen_openSession haccepted
  srcErr := by simp
  done hst := by cases hst
  threshold := (Int.zero_fdiv _).symm
  candidate hst := by simp at hst
  data := Nat.zero_le _
  dataParse _ := rfl
  dataHeld := Nat.zero_le _
  cursor _ := Nat.le_refl _

/-! ### The streams (R127 to R130) -/

/-- An accepted sample joins the window behind the others (R41, R127). -/
theorem State.Inv.acceptSample_smp_eq {s : State} (h : s.Inv) (x : Sample) (hle : s.pos ≤ s.rcv) :
    (s.acceptSample x).smp = s.smp ++ [(s.rcv, x)] := by
  have hw := Memory.write_range x h.window
  rw [Nat.add_sub_cancel' hle] at hw
  rw [State.acceptSample_smp, if_pos hle, hw]

/-- A new sample changes none of those a candidate's tests have read (R103, R105). -/
theorem CandidateHeld.acceptSample {s : State} (hc : CandidateHeld s) (hs : SessionSizes s) (x : Sample) :
    CandidateHeld (s.acceptSample x) := by
  have hwin := State.patternHeld_iff.mp hc.window
  have hold : ∀ k < s.rcv, Memory.sampleAt (s.acceptSample x).smp k = Memory.sampleAt s.smp k := by
    intro k hk
    rw [State.acceptSample_smp]
    split
    · exact Memory.sampleAt_write_of_ne _ _ (Nat.ne_of_lt hk)
    · rfl
  have hsum : thresholdSum (s.acceptSample x).smp s.pos s.desc.thsize = thresholdSum s.smp s.pos s.desc.thsize :=
    thresholdSum_congr fun k _ hk => hold k (by have := hs.windowInPattern; omega)
  have hpat : patternMatch (s.acceptSample x).smp s.desc.stride s.thHold s.pos s.desc.pattern =
      patternMatch s.smp s.desc.stride s.thHold s.pos s.desc.pattern := by
    refine patternMatch_congr fun j hj => hold _ ?_
    rw [hs.pattern] at hj
    have := Nat.mul_lt_mul_of_pos_right hj hs.stride
    omega
  exact
    { window := State.patternHeld_iff.mpr (Nat.le_succ_of_le hwin)
      threshold := hc.threshold
      matched := fun hst => ⟨(hc.matched hst).1.trans hsum.symm, hpat.trans (hc.matched hst).2⟩
      lookAhead := fun hst =>
        State.lookAheadHeld_iff.mpr ((State.lookAheadHeld_iff.mp (hc.lookAhead hst)).imp_left Nat.le_succ_of_le) }

/-- SAMPLE (R127). -/
theorem State.Inv.acceptSample {s : State} {x : Sample} (h : s.Inv) (hready : s.sampleReady = true)
    (hx : sampleInRange s.params.sampleW x = true) : (s.acceptSample x).Inv := by
  obtain ⟨hrun, heos, hocc⟩ := State.sampleReady_iff.mp hready
  have hst : s.st ≠ .idle := St.ne_idle_of_running hrun
  have hle : s.pos ≤ s.rcv := h.cursor heos
  rw [State.occ] at hocc
  exact
    { h with
      window := by
        rw [h.acceptSample_smp_eq x hle, List.map_append, h.window, State.acceptSample_pos, State.acceptSample_rcv,
          Nat.succ_sub hle, List.range'_1_concat, Nat.add_sub_cancel' hle]
        rfl
      samples := by
        intro c hc
        rw [h.acceptSample_smp_eq x hle] at hc
        rcases List.mem_append.mp hc with hc | hc
        · exact h.samples c hc
        · rw [List.mem_singleton.mp hc]; exact hx
      occupancy := by
        rw [State.occ, State.acceptSample_pos, State.acceptSample_rcv, State.acceptSample_params]; omega
      idle := fun e => absurd e hst
      session := fun e => { h.session e with }
      candidate := fun e => (h.candidate e).acceptSample (h.sizes hst) x
      dataHeld := by
        have := h.dataHeld
        rw [State.occ] at this ⊢
        rw [State.acceptSample_dBytes, State.acceptSample_pos, State.acceptSample_rcv]; omega
      cursor := fun _ => Nat.le_succ_of_le hle }

/-- EOS (R128). -/
theorem State.Inv.withEos {s : State} (h : s.Inv) (hready : s.eosReady = true) :
    ({ s with eos := true } : State).Inv :=
  have hst : s.st ≠ .idle := St.ne_idle_of_running (State.eosReady_iff.mp hready).1
  { h with
    idle := fun e => absurd e hst
    session := fun e => { h.session e with }
    done := fun _ => rfl
    candidate := fun e => { h.candidate e with lookAhead := fun _ => State.lookAheadHeld_iff.mpr (.inr rfl) }
    cursor := fun e => by cases e }

/-- SRC_ERR in a running state discards the candidate in flight (R129, R136). -/
theorem State.Inv.sourceError {s : State} (h : s.Inv) (hrun : s.st.running = true) :
    ({ s with st := .srcErr, srcErr := true, dBytes := [] } : State).Inv :=
  { h with
    idle := fun e => by cases e
    session := fun _ => { h.session (St.ne_idle_of_running hrun) with }
    srcErr := by simp
    done := fun e => by cases e
    candidate := fun e => by simp at e
    data := Nat.zero_le _
    dataParse := fun _ => rfl
    dataHeld := Nat.zero_le _ }

/-- POP (R130). -/
theorem State.Inv.pop {s : State} {b : Beat} {rest : List Beat} (h : s.Inv) (hout : s.out = b :: rest) :
    ({ s with out := rest, popped := s.popped ++ [b] } : State).Inv :=
  { h with
    fifo := by have := h.fifo; rw [hout] at this; exact Nat.le_of_succ_le this
    idle := fun e => by rw [(h.idle e).out] at hout; cases hout
    session := fun e => { h.session e with }
    candidate := fun e => { h.candidate e with } }

/-! ### SCAN and FINISH (R107, R108) -/

/-- The threshold SCAN computes is the floor mean (R103, R106). -/
theorem State.Inv.withThreshold {s : State} (h : s.Inv) (hst : s.st = .search) : s.withThreshold.Inv :=
  { h with
    idle := fun e => by rw [State.withThreshold_st, hst] at e; cases e
    session := fun e => { h.session e with }
    threshold := rfl
    candidate := fun e => by simp [hst] at e }

/-- The cursor moves forward in SEARCH (R41, R107, R113). -/
theorem State.Inv.moveTo {s : State} {p : Nat} (h : s.Inv) (hst : s.st = .search) (hp : s.pos ≤ p)
    (hrcv : s.eos = false → p ≤ s.rcv) : (s.moveTo p).Inv :=
  have hd : s.dBytes = [] := h.dataParse (by rw [hst]; decide)
  { h with
    window := by
      show (Memory.discard p s.smp).map Prod.fst = List.range' p (s.rcv - p)
      rw [Memory.discard_range h.window hp]
      congr 1; omega
    samples := fun c hc => h.samples c (List.mem_of_mem_filter hc)
    occupancy := Nat.le_trans (Nat.sub_le_sub_left hp _) h.occupancy
    idle := fun e => by rw [State.moveTo_st, hst] at e; cases e
    session := fun e => { h.session e with }
    candidate := fun e => by simp [hst] at e
    dataHeld := by rw [State.moveTo_dBytes, hd]; exact Nat.zero_le _
    cursor := hrcv }

/-- SCAN without a match (R107). -/
theorem State.Inv.scanMismatch {s : State} (h : s.Inv) (henabled : s.scanEnabled = true) :
    (s.withThreshold.moveTo (s.pos + 1)).Inv := by
  obtain ⟨hst, hheld⟩ := State.scanEnabled_iff.mp henabled
  have hwin := State.patternHeld_iff.mp hheld
  have hsizes := h.sizes (by rw [hst]; decide)
  have hT := hsizes.thsize
  have hTn := hsizes.windowInPattern
  exact (h.withThreshold hst).moveTo hst (Nat.le_succ _) fun _ => by rw [State.withThreshold_rcv]; omega

/-- SCAN with a match (R107). -/
theorem State.Inv.scanMatch {s : State} (h : s.Inv) (henabled : s.scanEnabled = true)
    (hit : patternMatch s.smp s.desc.stride s.withThreshold.th s.pos s.desc.pattern = true) :
    ({ s.withThreshold with thHold := s.withThreshold.th, st := .phase } : State).Inv :=
  have ⟨hst, hheld⟩ := State.scanEnabled_iff.mp henabled
  have hscan := h.withThreshold hst
  have hne : s.withThreshold.st ≠ .idle := by rw [State.withThreshold_st, hst]; decide
  { hscan with
    idle := fun e => by cases e
    session := fun _ => { hscan.session hne with }
    srcErr := by simpa [hst] using h.srcErr
    done := fun e => by cases e
    candidate := fun _ =>
      { window := hheld
        threshold := rfl
        matched := fun _ => ⟨rfl, hit⟩
        lookAhead := fun e => absurd rfl e }
    dataParse := fun _ => h.dataParse (by rw [hst]; decide) }

/-- FINISH (R108). -/
theorem State.Inv.finish {s : State} (h : s.Inv) (henabled : s.finishEnabled = true) :
    ({ s with st := .done } : State).Inv :=
  have ⟨⟨hst, heos⟩, _⟩ : (s.st = .search ∧ s.eos = true) ∧ s.patternHeld = false := by
    simpa [State.finishEnabled] using henabled
  have hne : s.st ≠ .idle := by rw [hst]; decide
  { h with
    idle := fun e => by cases e
    session := fun _ => { h.session hne with }
    srcErr := by simpa [hst] using h.srcErr
    done := fun _ => heos
    candidate := fun e => by simp at e
    dataParse := fun _ => h.dataParse (by rw [hst]; decide) }

/-! ### PHASE and EXTRACT (R109, R111) -/

/-- PHASE: the chosen run lies in the sweep, so `mid` is an offset (R28, R110). -/
theorem State.Inv.phase {s : State} {a b : Nat} (h : s.Inv) (henabled : s.phaseEnabled = true)
    (hrun : chosenRun (phaseSweep s) = some (a, b)) :
    ({ s with mid := (a + b) / 2, runlen := b - a + 1, st := .extract } : State).Inv :=
  have ⟨hst, hahead⟩ : s.st = .phase ∧ s.lookAheadHeld = true := by simpa [State.phaseEnabled] using henabled
  have ⟨hab, hb⟩ := chosenRun_bound hrun
  have hne : s.st ≠ .idle := by rw [hst]; decide
  have hcand := h.candidate (.inl hst)
  { h with
    idle := fun e => by cases e
    session := fun _ =>
      { h.session hne with
        mid := by rw [phaseSweep_length] at hb; show (a + b) / 2 < s.desc.stride; omega
        runlen := by rw [phaseSweep_length] at hb; show b - a + 1 ≤ s.desc.stride; omega }
    srcErr := by simpa [hst] using h.srcErr
    done := fun e => by cases e
    candidate := fun _ => { hcand with matched := fun e => (by cases e), lookAhead := fun _ => hahead }
    dataParse := fun _ => h.dataParse (by rw [hst]; decide) }

/-- EXTRACT: the candidate's bytes are sampled from the window (R111). -/
theorem State.Inv.extract {s : State} (h : s.Inv) (henabled : s.extractEnabled = true) :
    ({ s with dBytes := candidateData s, st := .parse } : State).Inv :=
  have hst : s.st = .extract := by simpa [State.extractEnabled] using henabled
  have hne : s.st ≠ .idle := by rw [hst]; decide
  have hsizes := h.sizes hne
  have hcand := h.candidate (.inr (.inl hst))
  { h with
    idle := fun e => by cases e
    session := fun _ => { h.session hne with }
    srcErr := by simpa [hst] using h.srcErr
    done := fun e => by cases e
    candidate := fun _ =>
      { hcand with
        matched := fun e => (by cases e)
        lookAhead := fun _ => hcand.lookAhead (by rw [hst]; decide) }
    data := candidateData_length_le hsizes
    dataParse := fun e => absurd rfl e
    dataHeld := candidateData_length_le_occ hsizes.stride }

/-! ### PARSE (R113) -/

/-- PARSE leaves the candidate for SEARCH and moves past at most the look-ahead (R97, R113). -/
theorem State.Inv.skipFrame {s : State} {skipBits : Nat} (h : s.Inv) (hst : s.st = .parse)
    (hskip : skipBits * s.desc.stride ≤ s.desc.maxsize) : (s.skipFrame skipBits).Inv :=
  have hne : s.st ≠ .idle := by rw [hst]; decide
  have hsearch : ({ s with dBytes := [], st := .search } : State).Inv :=
    { h with
      idle := fun e => by cases e
      session := fun _ => { h.session hne with }
      srcErr := by simpa [hst] using h.srcErr
      done := fun e => by cases e
      candidate := fun e => by simp at e
      data := Nat.zero_le _
      dataParse := fun _ => rfl
      dataHeld := Nat.zero_le _ }
  have hahead := State.lookAheadHeld_iff.mp ((h.candidate (.inr (.inr hst))).lookAhead (by rw [hst]; decide))
  hsearch.moveTo rfl (Nat.le_add_right _ _) fun (heos : s.eos = false) => by
    rw [heos] at hahead
    show s.pos + skipBits * s.desc.stride ≤ s.rcv
    have := hahead.resolve_right (by decide)
    omega

/-- A packet enters the FIFO where there is room (R38, R43). -/
theorem State.Inv.emit {s : State} {beats : List Beat} (h : s.Inv) (hst : s.st = .parse)
    (hroom : s.out.length + beats.length ≤ s.params.outFifoCap) : (s.emit beats).Inv :=
  { h with
    fifo := by show (s.out ++ beats).length ≤ _; rw [List.length_append]; exact hroom
    idle := fun (e : s.st = .idle) => by rw [hst] at e; cases e
    session := fun e => { h.session e with }
    candidate := fun e => { h.candidate e with } }

/-- PARSE emits (R113). -/
theorem State.Inv.emitPacket {s : State} {p : Packet} (h : s.Inv) (hst : s.st = .parse)
    (hparsed : s.parsed = .packet p) (hroom : 1 + p.payload.length ≤ s.room) : (s.emitPacket p).Inv := by
  have hsizes := h.sizes (by rw [hst]; decide)
  rw [State.room] at hroom
  exact (h.emit hst (by rw [packetBeats_length]; omega)).skipFrame hst
    (skip_le_maxsize hsizes (parseFrame_payload_length_le hparsed))

/-- A drop is recorded in LAST_DROP's fields (R31). -/
theorem State.Inv.recordDrop {s : State} (h : s.Inv) (c : DropCause) : (s.recordDrop c).Inv :=
  { h with
    lastDrop := lastDrop_reserved c _
    idle := fun e => { h.idle e with }
    session := fun e => { h.session e with }
    candidate := fun e => { h.candidate e with } }

/-- PARSE drops (R113). -/
theorem State.Inv.dropFrame {s : State} (h : s.Inv) (hst : s.st = .parse) (c : DropCause) : (s.dropFrame c).Inv :=
  (h.recordDrop c).skipFrame hst (skip_le_maxsize (len := 0) (h.sizes (by rw [hst]; decide)) (Nat.zero_le _))

/-! ### Every step -/

/-- The reserved bits of a configuration word stay 0, whether it is kept or written (R19, R119). -/
theorem reserved_of_kept_or_masked {c c' w m : Word} (hc : c &&& ~~~m = 0) (h : c' = c ∨ c' = w &&& m) :
    c' &&& ~~~m = 0 := by
  rcases h with rfl | rfl
  · exact hc
  · exact masked_reserved w m

/-- Every outcome of an instruction keeps the invariant. -/
theorem Effect.inv {i : Instr} {s t : State} (e : Effect s i t) (h : s.Inv) : t.Inv := by
  cases e with
  | quiet same => exact h.of_withoutPorts_eq same
  | reset => exact h.resetBlock
  | config idle masked0 masked2 =>
    exact h.config idle (reserved_of_kept_or_masked h.cfg0 masked0) (reserved_of_kept_or_masked h.cfg2 masked2)
  | startRefused idle _ => exact h.startRefused idle
  | startOpens _ accepted => exact h.openSession accepted
  | abort => exact h.closeSession
  | clrerr => exact h.clearErrors
  | clrcnt => exact h.clearCounters
  | sample operand ready => exact h.acceptSample ready (sampleOperand_inRange h.params operand)
  | eos ready => exact h.withEos ready
  | srcerr running => exact h.sourceError running
  | pop head => exact h.pop head
  | scanMatch enabled hit => exact h.scanMatch enabled hit
  | scanMismatch enabled _ => exact h.scanMismatch enabled
  | finish enabled => exact h.finish enabled
  | phase enabled chosen => exact h.phase enabled chosen
  | extract enabled => exact h.extract enabled
  | emit parse parsed room => exact h.emitPacket parse parsed room
  | drop parse _ => exact h.dropFrame parse _

/-- Settles O48: the fetch changes nothing the invariant speaks of, and each outcome of an instruction keeps it. -/
theorem stepKeepsInvariant : Obligations.StepKeepsInvariant := by
  intro s t h hstep
  obtain ⟨q, ts, j, e⟩ := effect_of_step hstep
  exact e.inv (h.of_withoutPorts_eq rfl)

end Sys2Proof.Machine
end

section
/-!
PROOFS. An agent's turn (R7, R55): the fetch takes the first record of the agent's queue, and the step runs what it
decodes to.
-/
namespace Sys2Proof.Machine

/-- The fetch of an agent with something pending takes its first record and leaves the rest (R55). -/
theorem fetchTurn_agent_of_queue_cons {s : State} {a : Agent} {r : Record} {rest : List Record} {i : Instr}
    (hqueue : s.inputs.queue a = r :: rest) (hdecode : decode r = .ok i) :
    fetchTurn (.agent a) s = .run i { s with inputs := s.inputs.setQueue a rest } := by
  simp only [fetchTurn, hqueue, hdecode, State.takeFrom, List.tail_cons]

/-- An agent's decided turn runs its first record, well-formed for the parameters or not: `smp` itself refuses one that
is not (log entry 9). -/
theorem step_of_agent_turn {s : State} {a : Agent} {ts : List Turn} {r : Record} {rest : List Record} {i : Instr}
    (hturns : s.turns = .agent a :: ts) (hqueue : s.inputs.queue a = r :: rest) (hdecode : decode r = .ok i) :
    step s = exec i { s with turns := ts, inputs := s.inputs.setQueue a rest } :=
  step_of_fetch_run ((fetch_of_turns_cons hturns).trans
    (fetchTurn_agent_of_queue_cons (s := { s with turns := ts }) hqueue hdecode))

/-- Settles O7: the decided turn is fetched, and the record it takes is the one decoded. -/
theorem stepRunsDecodedInstruction : Obligations.StepRunsDecodedInstruction :=
  fun _ _ _ _ _ _ hturns hqueue hdecode _ => step_of_agent_turn hturns hqueue hdecode

end Sys2Proof.Machine
end

section
/-!
PROOFS. The configuration lock (R46): the three registers are written in IDLE only, and RESET alone clears them.
-/
namespace Sys2Proof.Machine

/-- Outside IDLE a configuration write is ignored (R46). -/
theorem State.writeConfig_of_ne_idle {s : State} (s' : State) (hst : s.st ≠ .idle) :
    s.writeConfig s' = { s with werr := true } := by
  rcases s.writeConfig_cases s' with ⟨_, e⟩ | ⟨hidle, _⟩
  · exact e
  · exact absurd hidle hst

/-- The part of the state that R46 locks. -/
theorem config_eq_of_withoutPorts {s t : State} (h : t.withoutPorts = s.withoutPorts) :
    t.cfg0 = s.cfg0 ∧ t.cfg1 = s.cfg1 ∧ t.cfg2 = s.cfg2 :=
  ⟨(congrArg State.cfg0 h :), (congrArg State.cfg1 h :), (congrArg State.cfg2 h :)⟩

/-- The only outcomes that write the configuration are RESET's and a register write's in IDLE. -/
theorem Effect.config_eq {i : Instr} {s t : State} (e : Effect s i t) (hr : i ≠ .reset) (hst : s.st ≠ .idle) :
    t.cfg0 = s.cfg0 ∧ t.cfg1 = s.cfg1 ∧ t.cfg2 = s.cfg2 := by
  cases e with
  | quiet same => exact config_eq_of_withoutPorts same
  | reset => exact absurd rfl hr
  | config idle => exact absurd idle hst
  | startRefused | startOpens | abort | clrerr | clrcnt | sample | eos | srcerr | pop | scanMatch | scanMismatch
  | finish | phase | extract | emit | drop => exact ⟨rfl, rfl, rfl⟩

/-- A write to CTRL as a term runs its command (R121; log entry 10). -/
theorem exec_wr_of_ctrl {a : BitVec 8} (ha : regAt a = some .ctrl) (w : Word) (s : State) :
    exec (.wr a w) s = exec (decodeCommand w) s := by
  rw [← execCommand_eq_exec]
  simp only [exec, execWr, ha]

/-- No command is RESET, which has a record kind of its own (R62, R65). -/
theorem decodeCommand_ne_reset (w : Word) : decodeCommand w ≠ .reset := by
  unfold decodeCommand
  split <;> simp

/-- Outside IDLE no instruction but RESET changes the configuration, a write to CTRL among them (R46). -/
theorem exec_config_eq {i : Instr} {s t : State} (hr : i ≠ .reset) (hst : s.st ≠ .idle) (h : exec i s = .next t) :
    t.cfg0 = s.cfg0 ∧ t.cfg1 = s.cfg1 ∧ t.cfg2 = s.cfg2 := by
  by_cases hi : ∀ a w, i = .wr a w → regAt a ≠ some .ctrl
  · exact (effect_of_exec hi h).config_eq hr hst
  · push Not at hi
    obtain ⟨a, w, rfl, ha⟩ := hi
    rw [exec_wr_of_ctrl ha] at h
    exact (effect_of_exec (fun a' w' e => absurd e (decodeCommand_ne_wr w a' w')) h).config_eq
      (decodeCommand_ne_reset w) hst

/-- Settles O14: each of the three offsets goes through `writeConfig`, and no other outcome touches the registers. -/
theorem configurationLockedOutsideIdle : Obligations.ConfigurationLockedOutsideIdle := by
  intro s hst
  refine ⟨?ignored, fun i t hr h => exec_config_eq hr hst h⟩
  rintro a w (rfl | rfl | rfl)
  all_goals exact congrArg Host.Outcome.next (State.writeConfig_of_ne_idle _ hst)

end Sys2Proof.Machine
end

section
/-!
PROOFS. Packing is a left inverse of the MSB-first expansion (R15, R47, R111).
-/
namespace Sys2Proof.Machine

/-- A byte is its own bits packed, bit 7 first (R15). -/
@[simp] theorem packMsb_byteBits (b : Byte) : packMsb (byteBits b) = b := by
  revert b; decide

/-- The first 8 bits are the first byte (R111). -/
theorem packBytes_byteBits_append (b : Byte) (e : List Bool) : packBytes (byteBits b ++ e) = b :: packBytes e :=
  congrArg (· :: packBytes e) (packMsb_byteBits b)

/-- Fewer than 8 bits are no byte (R111). -/
theorem packBytes_of_length_lt {e : List Bool} (h : e.length < 8) : packBytes e = [] := by
  rw [← List.length_eq_zero_iff, packBytes_length]
  exact Nat.div_eq_of_lt h

/-- Settles O41, by induction on the bytes: the tail alone packs to nothing, and each byte in front is packed first. -/
theorem packingUndoesMsbExpansion : Obligations.PackingUndoesMsbExpansion := by
  intro bs tail htail
  induction bs with
  | nil => exact packBytes_of_length_lt htail
  | cons b bs ih => rw [bitsMsb_cons, List.append_assoc, packBytes_byteBits_append, ih]

end Sys2Proof.Machine
end

section
/-!
PROOFS. Backpressure does not deadlock the block (R42, R138): a block that waits in SEARCH or PHASE waits for samples,
and what it waits for fits in the window.
-/
namespace Sys2Proof.Machine

/-- The block waits exactly where every guard is off (R107 to R113). -/
theorem State.blockInstr_eq_none_iff {s : State} :
    s.blockInstr = none ↔ s.scanEnabled = false ∧ s.finishEnabled = false ∧ s.phaseEnabled = false ∧
      s.extractEnabled = false ∧ s.parseEnabled = false := by
  unfold State.blockInstr
  grind

/-- A SEARCH that waits has neither a pattern window nor the end of the stream (R107, R108). -/
theorem State.waits_in_search {s : State} (hst : s.st = .search) (hwait : s.blockInstr = none) :
    s.rcv < s.pos + s.desc.n * s.desc.stride ∧ s.eos = false := by
  obtain ⟨hscan, hfinish, _, _, _⟩ := State.blockInstr_eq_none_iff.mp hwait
  have hheld : s.patternHeld = false := by simpa [State.scanEnabled, hst] using hscan
  exact ⟨by simpa [State.patternHeld] using hheld, by simpa [State.finishEnabled, hst, hheld] using hfinish⟩

/-- A PHASE that waits has neither the look-ahead nor the end of the stream (R109). -/
theorem State.waits_in_phase {s : State} (hst : s.st = .phase) (hwait : s.blockInstr = none) :
    s.rcv < s.pos + s.desc.maxsize ∧ s.eos = false := by
  obtain ⟨_, _, hphase, _, _⟩ := State.blockInstr_eq_none_iff.mp hwait
  simpa [State.phaseEnabled, State.lookAheadHeld, hst] using hphase

/-- EXTRACT never waits (R111). -/
theorem State.not_waits_in_extract {s : State} (hst : s.st = .extract) : s.blockInstr ≠ none := by
  intro hwait
  obtain ⟨_, _, _, hextract, _⟩ := State.blockInstr_eq_none_iff.mp hwait
  simp [State.extractEnabled, hst] at hextract

/-- A PARSE that waits holds a packet without FIFO room (R113). -/
theorem State.waits_in_parse {s : State} (hst : s.st = .parse) (hwait : s.blockInstr = none) :
    ∃ p, s.parsed = .packet p ∧ s.room < 1 + p.payload.length := by
  obtain ⟨_, _, _, _, hparse⟩ := State.blockInstr_eq_none_iff.mp hwait
  cases hp : s.parsed with
  | packet p => exact ⟨p, rfl, by simpa [State.parseEnabled, hst, hp] using hparse⟩
  | drop c => simp [State.parseEnabled, hst, hp] at hparse

/-- The pattern window is part of the look-ahead (R96, R97). -/
theorem SessionSizes.pattern_le_maxsize {s : State} (h : SessionSizes s) : s.desc.n * s.desc.stride ≤ s.desc.maxsize := by
  rw [h.maxsize, h.mfb]
  exact Nat.mul_le_mul_right _ (Nat.le_add_right _ _)

/-- A session that lacks part of its look-ahead has room for a sample, since START has checked that the whole look-ahead
fits the window (R42, R92). -/
theorem State.sampleReady_of_lookAhead_missing {s : State} (h : SessionSizes s) (hrun : s.st.running = true)
    (hmissing : s.rcv < s.pos + s.desc.maxsize) (heos : s.eos = false) : s.sampleReady = true := by
  have hfits := h.fits
  have hocc : s.occ < s.params.bufCap := by
    have hpositive : 0 < s.desc.maxsize := by
      rw [h.maxsize, h.mfb]
      exact Nat.mul_pos (by omega) h.stride
    rw [State.occ]; omega
  exact State.sampleReady_iff.mpr ⟨hrun, heos, hocc⟩

/-- Settles O53, by the four running states. -/
theorem waitingBlockAcceptsSamples : Obligations.WaitingBlockAcceptsSamples := by
  intro s hinv hrun hwait
  have hsizes : SessionSizes s := hinv.sizes (St.ne_idle_of_running hrun)
  cases hst : s.st with
  | search =>
    obtain ⟨hmissing, heos⟩ := State.waits_in_search hst hwait
    exact .inl (State.sampleReady_of_lookAhead_missing hsizes hrun
      (by have := hsizes.pattern_le_maxsize; omega) heos)
  | phase =>
    obtain ⟨hmissing, heos⟩ := State.waits_in_phase hst hwait
    exact .inl (State.sampleReady_of_lookAhead_missing hsizes hrun hmissing heos)
  | extract => exact absurd hwait (State.not_waits_in_extract hst)
  | parse => exact .inr ⟨rfl, State.waits_in_parse hst hwait⟩
  | idle | done | srcErr => rw [hst] at hrun; cases hrun

end Sys2Proof.Machine
end

section
/-!
PROOFS. A record that decodes to an instruction without ignored bits is that instruction's encoding (R61 to R63), and so
is every record that can stay pending (R118).
-/
namespace Sys2Proof

/-- A record with RSV 0 is made of its other three fields (R61). -/
theorem mkRecord_fields {r : Record} (hrsv : recordRsv r = 0) :
    mkRecord (recordKind r) (recordAddr r) (recordData r) = r := by
  have hsplit : recordKind r ++ recordAddr r ++ recordRsv r ++ recordData r = r := by
    refine BitVec.eq_of_getLsbD_eq fun i hi => ?_
    simp only [recordKind, recordAddr, recordRsv, recordData, BitVec.getLsbD_append, BitVec.getLsbD_extractLsb']
    grind
  rw [mkRecord]
  rw [hrsv] at hsplit
  exact hsplit

/-- A record that must be bare has its ADDR and DATA 0 (R63). -/
theorem bareRecord_eq_ok {r : Record} {i j : Instr} (h : bareRecord r i = .ok j) :
    recordAddr r = 0 ∧ recordData r = 0 ∧ j = i := by
  unfold bareRecord at h
  split at h
  · cases h
  · rename_i haddr
    split at h
    · cases h
    · rename_i hdata
      cases h
      exact ⟨not_not.mp haddr, not_not.mp hdata, rfl⟩

/-- A record that decodes is of a reserved KIND, or has RSV 0 and is read by its KIND (R63). -/
theorem decode_eq_ok {r : Record} {i : Instr} (h : decode r = .ok i) :
    (∃ kind rest, i = .reservedKind kind rest) ∨
    ((recordKind r).toNat ≤ 6 ∧ recordRsv r = 0 ∧ decodeKind r = .ok i) := by
  unfold decode at h
  split at h
  · cases h; exact .inl ⟨_, _, rfl⟩
  · split at h
    · cases h
    · rename_i hkind hrsv
      exact .inr ⟨by omega, not_not.mp hrsv, h⟩

/-- A record that is bare but for its KIND is the one the encoder gives a transaction of that KIND (R62, R63). -/
theorem encode_of_bareRecord {r : Record} {i j : Instr} {kind : BitVec 4} (hrsv : recordRsv r = 0)
    (hkind : (recordKind r).toNat = kind.toNat) (hencode : encode i = some (mkRecord kind 0 0))
    (h : bareRecord r i = .ok j) : encode j = some r := by
  obtain ⟨haddr, hdata, rfl⟩ := bareRecord_eq_ok h
  have hr := mkRecord_fields hrsv
  rw [haddr, hdata, BitVec.eq_of_toNat_eq hkind] at hr
  rw [hencode, hr]

/-- A record that is no command has no ignored bit: it is the one the encoder gives its instruction (R62, R64). -/
theorem encode_of_decodeKind {r : Record} {i : Instr} (hrsv : recordRsv r = 0) (hkind : (recordKind r).toNat ≤ 6)
    (hcommand : recordKind r ≠ 1 ∨ recordAddr r ≠ 0) (h : decodeKind r = .ok i) : encode i = some r := by
  have hr := mkRecord_fields hrsv
  unfold decodeKind at h
  split at h
  case h_1 hk => exact encode_of_bareRecord (kind := 0) hrsv hk rfl h
  case h_2 hk =>
    have hone : recordKind r = 1 := BitVec.eq_of_toNat_eq hk
    rw [if_neg (hcommand.resolve_left (not_not.mpr hone))] at h
    cases h
    rw [hone] at hr
    exact congrArg some hr
  case h_3 hk =>
    split at h
    · cases h
    · rename_i hdata
      cases h
      rw [not_not.mp hdata, BitVec.eq_of_toNat_eq (y := 2) hk] at hr
      exact congrArg some hr
  case h_4 hk =>
    split at h
    · cases h
    · rename_i haddr
      cases h
      rw [not_not.mp haddr, BitVec.eq_of_toNat_eq (y := 3) hk] at hr
      exact congrArg some hr
  case h_5 hk => exact encode_of_bareRecord (kind := 4) hrsv hk rfl h
  case h_6 hk => exact encode_of_bareRecord (kind := 5) hrsv hk rfl h
  case h_7 =>
    have hk : (recordKind r).toNat = 6 := by grind
    exact encode_of_bareRecord (kind := 6) hrsv hk rfl h

/-- No command can stay pending: each is accepted in every state (R118). -/
theorem decodeCommand_not_pending (w : Word) :
    ¬ ((∃ d, decodeCommand w = .smp d) ∨ decodeCommand w = .eos ∨ decodeCommand w = .pop) := by
  unfold decodeCommand
  split <;> simp

/-- A transaction that can stay pending is put back as the very record it was issued as (R118). -/
theorem encode_of_decode_pending {r : Record} {i : Instr} (hdecode : decode r = .ok i)
    (hi : (∃ d, i = .smp d) ∨ i = .eos ∨ i = .pop) : encode i = some r := by
  rcases decode_eq_ok hdecode with ⟨kind, rest, rfl⟩ | ⟨hkind, hrsv, hread⟩
  · simp at hi
  · refine encode_of_decodeKind hrsv hkind ?_ hread
    by_contra! hcommand
    obtain ⟨hone, haddr⟩ := hcommand
    simp only [decodeKind, hone, haddr] at hread
    cases hread
    exact decodeCommand_not_pending _ hi

end Sys2Proof
end

section
/-!
PROOFS. The order of moves (R55, R141): the default turn, each agent's own order, and the two cycles with one event.
-/
namespace Sys2Proof.Machine

/-! ### What a step does to the queues -/

/-- The block's turn runs an internal step (R107 to R113). -/
theorem isInternal_of_blockInstr {s : State} {i : Instr} (h : s.blockInstr = some i) : i.isInternal = true := by
  unfold State.blockInstr at h
  repeat' split at h
  all_goals cases h <;> rfl

/-- Internal steps leave the pending transactions alone. -/
theorem exec_inputs_of_isInternal {i : Instr} {s t : State} (hi : i.isInternal = true) (h : exec i s = .next t) :
    t.inputs = s.inputs := by
  rcases exec_inputs h with e | ⟨⟨_, rfl⟩ | rfl | rfl, _⟩
  · exact e
  all_goals cases hi

/-- A transaction put back where its agent's queue has just lost it leaves the queues as they were (R118). -/
theorem State.keepPending_takeFrom_inputs {s : State} {a : Agent} {r : Record} {rest : List Record} {i : Instr}
    (hqueue : s.inputs.queue a = r :: rest) (hencode : encode i = some r) (hagent : recordAgent r = a) :
    ((s.takeFrom a).keepPending i).inputs = s.inputs := by
  simp only [State.keepPending, hencode, State.offerFirst_inputs, State.takeFrom_inputs, hagent,
    Inputs.queue_setQueue_self, Inputs.setQueue_setQueue, hqueue, List.tail_cons]
  rw [← hqueue, Inputs.setQueue_queue]

/-- An agent's transaction is taken from its queue, or stays pending as its first one (R55, R118). -/
theorem exec_takeFrom_inputs {s t : State} {a : Agent} {r : Record} {rest : List Record} {i : Instr}
    (hqueue : s.inputs.queue a = r :: rest) (hagent : recordAgent r = a) (hdecode : decode r = .ok i)
    (h : exec i (s.takeFrom a) = .next t) : t.inputs = s.inputs ∨ t.inputs = s.inputs.setQueue a rest := by
  rcases exec_inputs h with e | ⟨hi, rfl⟩
  · right; rw [e, State.takeFrom_inputs, hqueue, List.tail_cons]
  · left; exact State.keepPending_takeFrom_inputs hqueue (encode_of_decode_pending hdecode hi) hagent

/-- A step leaves the queues as they are, or takes the first transaction of one (R55). -/
theorem step_inputs {s t : State} (hown : s.inputs.ownRecords) (h : step s = .next t) :
    t.inputs = s.inputs ∨
    ∃ a r rest, s.inputs.queue a = r :: rest ∧ t.inputs = s.inputs.setQueue a rest := by
  unfold step fetch at h
  rcases fetchTurn_cases (nextTurn s).1 { s with turns := (nextTurn s).2 } with
    ⟨_, i, hi, e⟩ | ⟨_, _, e⟩ | ⟨_, _, _, e⟩ | ⟨a, r, rest, i, _, hqueue, hdecode, e⟩ | ⟨_, _, _, _, _, _, _, e⟩ <;>
    rw [e] at h
  · exact .inl (exec_inputs_of_isInternal (s := { s with turns := (nextTurn s).2 }) (isInternal_of_blockInstr hi) h)
  · cases h; exact .inl rfl
  · cases h; exact .inl rfl
  · have hmem : r ∈ s.inputs.queue a := List.mem_of_mem_head? (congrArg List.head? hqueue)
    have hagent : recordAgent r = a := hown a r hmem
    exact (exec_takeFrom_inputs hqueue hagent hdecode h).imp_right fun e => ⟨a, r, rest, hqueue, e⟩
  · cases h

/-- Taking the first transaction of one queue keeps every queue its agent's own (R7). -/
theorem Inputs.ownRecords.setQueue_tail {q : Inputs} {a : Agent} {r : Record} {rest : List Record}
    (h : q.ownRecords) (hqueue : q.queue a = r :: rest) : (q.setQueue a rest).ownRecords := by
  intro b r' hr'
  by_cases hb : b = a
  · subst hb
    rw [Inputs.queue_setQueue_self] at hr'
    exact h b r' (hqueue ▸ List.mem_cons_of_mem r hr')
  · rw [Inputs.queue_setQueue_of_ne q rest hb] at hr'
    exact h b r' hr'

/-- In every step each agent's own transactions keep the order it issued them (R55). -/
theorem step_keeps_agent_order {s t : State} (hown : s.inputs.ownRecords) (h : step s = .next t) :
    t.inputs.ownRecords ∧
    ∃ a, (∀ b, b ≠ a → t.inputs.queue b = s.inputs.queue b) ∧
      (t.inputs.queue a = s.inputs.queue a ∨ ∃ r, s.inputs.queue a = r :: t.inputs.queue a) := by
  rcases step_inputs hown h with e | ⟨a, r, rest, hqueue, e⟩ <;> rw [e]
  · exact ⟨hown, .host, fun _ _ => rfl, .inl rfl⟩
  · refine ⟨hown.setQueue_tail hqueue, a, fun b hb => Inputs.queue_setQueue_of_ne _ _ hb, .inr ⟨r, ?_⟩⟩
    rw [hqueue, Inputs.queue_setQueue_self]

/-! ### Undecided turns (R141; log entry 1) -/

/-- Where no turn is decided, the step is that of the default turn. -/
theorem step_of_turns_nil {s : State} (h : s.turns = []) : step s = step { s with turns := [defaultTurn s] } := by
  simp only [step, fetch, nextTurn, h]

/-- The default turn is the first agent's whose next transaction can happen. -/
theorem defaultTurn_of_first_ready {s : State} {pre post : List Agent} {a : Agent}
    (horder : agentOrder = pre ++ a :: post) (hpre : ∀ b ∈ pre, agentReady s b = false)
    (ha : agentReady s a = true) : defaultTurn s = .agent a := by
  have hfind : agentOrder.find? (agentReady s) = some a :=
    List.find?_eq_some_iff_append.mpr ⟨ha, pre, post, horder, fun b hb => by simp [hpre b hb]⟩
  simp only [defaultTurn, hfind]

/-- Where no agent's next transaction can happen the default turn is the block's. -/
theorem defaultTurn_of_none_ready {s : State} (h : ∀ a, agentReady s a = false) : defaultTurn s = .block := by
  have hfind : agentOrder.find? (agentReady s) = none := List.find?_eq_none.mpr fun a _ => by simp [h a]
  simp only [defaultTurn, hfind]

/-! ### Cycles with one event (R141, R118; log entries 1 and 2) -/

/-- A record offered first, with its agent's turn next, runs at once and leaves the queues as they were. -/
theorem step_of_offerFirst {s : State} {r : Record} {ts : List Turn} {i : Instr} (hdecode : decode r = .ok i) :
    step { s.offerFirst r with turns := .agent (recordAgent r) :: ts } = exec i { s with turns := ts } := by
  rw [step_of_agent_turn rfl (Inputs.queue_setQueue_self _ _ _) hdecode]
  simp [State.offerFirst]

/-- A cycle whose only new record is RESET: RESET comes first, and the register transactions wait (R152). -/
theorem offerCycle_of_rst {s : State} {r : Record} (hport : recordPort r = .rst) :
    s.offerCycle [r] = { s.offerFirst r with
      turns := .agent (recordAgent r) :: (s.cycleTurn .source ++ s.cycleTurn .sink ++ [.block] ++ s.turns) } := by
  simp [State.offerCycle, cycleSequence, portOrder, recordAgent, portAgent, hport]

/-- A cycle whose only new record is SRC_ERR, with no register transaction pending: SRC_ERR comes first (R118). -/
theorem offerCycle_of_srcErr {s : State} {r : Record} (hport : recordPort r = .srcErr) (hhost : s.inputs.host = []) :
    s.offerCycle [r] = { s.offerFirst r with
      turns := .agent (recordAgent r) :: (s.cycleTurn .source ++ s.cycleTurn .sink ++ [.block] ++ s.turns) } := by
  have hnone : s.cycleTurn .host = [] := if_pos hhost
  simp [State.offerCycle, cycleSequence, portOrder, recordAgent, portAgent, hport, hnone]

/-- Settles O10: the default turn, the queues of every step, and the two cycles. -/
theorem undecidedTurnsFollowCycleOrder : Obligations.UndecidedTurnsFollowCycleOrder := by
  refine ⟨?undecided, ?order, ?reset, ?cycleReset, ?cycleSrcErr⟩
  case undecided =>
    intro s hturns
    refine ⟨fun pre post a horder hpre ha => ?_, fun hnone => ?_⟩
    · rw [step_of_turns_nil hturns, defaultTurn_of_first_ready horder hpre ha]
    · rw [step_of_turns_nil hturns, defaultTurn_of_none_ready hnone]
  case order => exact fun s t hown h => step_keeps_agent_order hown h
  case reset => intro a r hr; cases a <;> cases hr
  case cycleReset =>
    intro s
    rw [offerCycle_of_rst rfl]
    exact step_of_offerFirst rfl
  case cycleSrcErr =>
    intro s hhost
    rw [offerCycle_of_srcErr rfl hhost]
    exact step_of_offerFirst rfl

end Sys2Proof.Machine
end

section
/-!
PROOFS. The encoder and the decoder undo each other (R61 to R65): a record made from fields is read by them, and a
record that decodes has, on the bits that count, its instruction's encoding.
-/
namespace Sys2Proof

/-! ### From the instruction to its record -/

/-- A record made from fields is read by its KIND alone, its RSV being 0 (R63). -/
theorem decode_mkRecord {kind : BitVec 4} (addr : BitVec 8) (data : Word) (h : kind.toNat ≤ 6) :
    decode (mkRecord kind addr data) = decodeKind (mkRecord kind addr data) := by
  have hkind : ¬ 7 ≤ kind.toNat := by omega
  simp [decode, hkind]

/-- A write to CTRL is the command of its DATA (R62, R65). -/
theorem decode_ctrlWrite (w : Word) : decode (mkRecord 1 0 w) = .ok (decodeCommand w) := by
  rw [decode_mkRecord _ _ (by decide)]
  simp [decodeKind]

/-- A write to another offset is a REG_WRITE (R62). -/
theorem decode_registerWrite {addr : BitVec 8} (w : Word) (h : addr ≠ 0) :
    decode (mkRecord 1 addr w) = .ok (.wr addr w) := by
  rw [decode_mkRecord _ _ (by decide)]
  simp only [decodeKind, recordKind_mkRecord, recordAddr_mkRecord, recordData_mkRecord, if_neg h]
  rfl

theorem decode_registerRead (addr : BitVec 8) : decode (mkRecord 2 addr 0) = .ok (.rd addr) := by
  rw [decode_mkRecord _ _ (by decide)]
  simp [decodeKind]

theorem decode_sample (d : Word) : decode (mkRecord 3 0 d) = .ok (.smp d) := by
  rw [decode_mkRecord _ _ (by decide)]
  simp [decodeKind]

/-- The command of a word is the row of R65 for its CMD, with its ARG where the row has one. -/
theorem decodeCommand_eq {w : Word} {cmd : BitVec 4} {arg : Byte} (hcmd : commandCode w = cmd)
    (harg : commandArg w = arg) :
    decodeCommand w =
      if cmd = 0x0 then .nop else if cmd = 0x1 then .start else if cmd = 0x2 then .abort
      else if cmd = 0x3 then .clrerr else if cmd = 0x4 then .clrcnt else if cmd = 0x5 then .reserved5
      else if cmd = 0x6 then .reserved6 else if cmd = 0x7 then .reserved7 else if cmd = 0x8 then .crcInit
      else if cmd = 0x9 then .crcByte arg else if cmd = 0xA then .whtInit else if cmd = 0xB then .whtStep
      else if cmd = 0xC then .whtXor arg else if cmd = 0xD then .crcTest else if cmd = 0xE then .reservedE
      else .reservedF := by
  unfold decodeCommand
  rw [hcmd, harg]
  obtain ⟨⟨code, hcode⟩⟩ := cmd
  interval_cases code <;> rfl

/-- The record of a command is the one of its CMD and ARG (R65). -/
theorem decode_commandRecord {cmd : BitVec 4} {arg : Byte} {i : Instr}
    (h : decodeCommand (commandWord cmd arg) = i) : decode (commandRecord cmd arg) = .ok i := by
  rw [commandRecord, decode_ctrlWrite, h]

/-- Settles O1, by the constructors: each port transaction by its KIND, each command by its CMD. -/
theorem decodeOfEncode : Obligations.DecodeOfEncode := by
  intro p i r hwf hencode
  cases i <;> cases hencode
  case wr addr w => exact decode_registerWrite w (by simpa [Instr.wellFormed] using hwf)
  case rd addr => exact decode_registerRead addr
  case smp d => exact decode_sample d
  case reservedKind => cases hwf
  case reset | eos | srcerr | pop => rfl
  all_goals exact decode_commandRecord (decodeCommand_eq (commandCode_commandWord _ _) (commandArg_commandWord _ _))

/-- CMD is DATA[3:0] (R64). -/
theorem commandCode_append (high : BitVec 16) (arg : Byte) (low cmd : BitVec 4) :
    commandCode (high ++ arg ++ low ++ cmd) = cmd := by
  refine BitVec.eq_of_getLsbD_eq fun i hi => ?_
  simp only [commandCode, BitVec.getLsbD_extractLsb', BitVec.getLsbD_append]
  grind

/-- ARG is DATA[15:8] (R64). -/
theorem commandArg_append (high : BitVec 16) (arg : Byte) (low cmd : BitVec 4) :
    commandArg (high ++ arg ++ low ++ cmd) = arg := by
  refine BitVec.eq_of_getLsbD_eq fun i hi => ?_
  simp only [commandArg, BitVec.getLsbD_extractLsb', BitVec.getLsbD_append]
  grind

/-- Settles O5: any DATA with these fields is read by its CMD and its ARG. -/
theorem commandWordFields : Obligations.CommandWordFields := by
  intro cmd low arg high
  rw [decode_ctrlWrite, decodeCommand_eq (commandCode_append high arg low cmd) (commandArg_append high arg low cmd)]

/-! ### From the record to its instruction -/

/-- A command word is its CMD, its ARG and the two ignored fields (R64). -/
theorem exists_commandWord_append (w : Word) :
    ∃ (high : BitVec 16) (low : BitVec 4), w = high ++ commandArg w ++ low ++ commandCode w := by
  refine ⟨w.extractLsb' 16 16, w.extractLsb' 4 4, BitVec.eq_of_getLsbD_eq fun i hi => ?_⟩
  simp only [commandArg, commandCode, BitVec.getLsbD_extractLsb', BitVec.getLsbD_append]
  grind

/-- Clearing the ignored fields, and the bits of ARG outside `m`, leaves the word of CMD and the masked ARG (R64). -/
theorem commandWord_masked (w : Word) (m : Byte) :
    w &&& (0#16 ++ m ++ 0#4 ++ 0xF#4) = commandWord (commandCode w) (commandArg w &&& m) := by
  obtain ⟨high, low, hw⟩ := exists_commandWord_append w
  have hcode : commandCode w &&& 0xF#4 = commandCode w := BitVec.and_allOnes
  have hand : (high ++ commandArg w ++ low ++ commandCode w) &&& (0#16 ++ m ++ 0#4 ++ 0xF#4) =
      0#16 ++ (commandArg w &&& m) ++ 0#4 ++ commandCode w := by
    rw [BitVec.and_append, BitVec.and_append, BitVec.and_append, BitVec.and_zero, BitVec.and_zero, hcode]
  exact (congrArg (· &&& _) hw).trans hand

/-- Masking the DATA of a record (R61). -/
theorem mkRecord_and_data (kind : BitVec 4) (addr : BitVec 8) (w m : Word) :
    mkRecord kind addr w &&& (0xFFFF#16 ++ m) = mkRecord kind addr (w &&& m) := by
  have hall : ((kind ++ addr ++ 0#4) &&& 0xFFFF#16) = kind ++ addr ++ 0#4 := BitVec.and_allOnes
  rw [mkRecord, BitVec.and_append, hall, mkRecord]

/-- A write to CTRL with its DATA masked is the record of CMD and the masked ARG (R64, R65). -/
theorem ctrlWrite_masked (w : Word) (m : Byte) :
    mkRecord 1 0 w &&& (0xFFFF#16 ++ (0#16 ++ m ++ 0#4 ++ 0xF#4)) =
      commandRecord (commandCode w) (commandArg w &&& m) := by
  rw [mkRecord_and_data, commandWord_masked, commandRecord]

/-- The record of the command a word stands for is that word's write to CTRL with the ignored bits 0 (R64). -/
theorem encode_decodeCommand (w : Word) :
    encode (decodeCommand w) = some (mkRecord 1 0 w &&& significantBits (decodeCommand w)) := by
  have hplain : mkRecord 1 0 w &&& 0xFFFF0000000F = commandRecord (commandCode w) 0 :=
    (ctrlWrite_masked w 0).trans (congrArg _ BitVec.and_zero)
  have harg : mkRecord 1 0 w &&& 0xFFFF0000FF0F = commandRecord (commandCode w) (commandArg w) :=
    (ctrlWrite_masked w 0xFF).trans (congrArg _ BitVec.and_allOnes)
  rw [decodeCommand_eq rfl rfl]
  generalize commandCode w = cmd at *
  obtain ⟨⟨code, hcode⟩⟩ := cmd
  match code, hcode with
  | 9, _ | 12, _ => exact congrArg some harg.symm
  | 0, _ | 1, _ | 2, _ | 3, _ | 4, _ | 5, _ | 6, _ | 7, _ | 8, _ | 10, _ | 11, _ | 13, _ | 14, _ | 15, _ =>
    exact congrArg some hplain.symm
  | _ + 16, h => omega

/-- A record of a reserved KIND is that KIND and the other 44 bits (R61). -/
theorem recordKind_append_rest (r : Record) : recordKind r ++ r.extractLsb' 0 44 = r := by
  refine BitVec.eq_of_getLsbD_eq fun i hi => ?_
  simp only [recordKind, BitVec.getLsbD_append, BitVec.getLsbD_extractLsb']
  grind

/-- Only a write to CTRL has ignored bits (R64). -/
theorem significantBits_of_encode {i : Instr} {r : Record} (h : encode i = some r)
    (hctrl : recordKind r ≠ 1 ∨ recordAddr r ≠ 0) : significantBits i = BitVec.allOnes 48 := by
  cases i <;> cases h
  case reset | wr | rd | smp | eos | srcerr | pop | reservedKind => rfl
  all_goals simp [commandRecord] at hctrl

/-- A record that decodes is of a reserved KIND, with its other 44 bits, or has RSV 0 and is read by its KIND (R63). -/
theorem decode_eq_ok_fields {r : Record} {i : Instr} (h : decode r = .ok i) :
    (7 ≤ (recordKind r).toNat ∧ i = .reservedKind (recordKind r) (r.extractLsb' 0 44)) ∨
    ((recordKind r).toNat ≤ 6 ∧ recordRsv r = 0 ∧ decodeKind r = .ok i) := by
  unfold decode at h
  split at h
  · rename_i hkind
    cases h
    exact .inl ⟨hkind, rfl⟩
  · split at h
    · cases h
    · rename_i hkind hrsv
      exact .inr ⟨by omega, not_not.mp hrsv, h⟩

/-- A record that decodes and is no write to CTRL is the one the encoder gives its instruction (R61 to R63). -/
theorem encode_of_decode_of_not_ctrl {r : Record} {i : Instr} (h : decode r = .ok i)
    (hctrl : recordKind r ≠ 1 ∨ recordAddr r ≠ 0) : encode i = some r := by
  rcases decode_eq_ok_fields h with ⟨_, rfl⟩ | ⟨hkind, hrsv, hread⟩
  · exact congrArg some (recordKind_append_rest r)
  · exact encode_of_decodeKind hrsv hkind hctrl hread

/-- A record of KIND 1 and ADDR 0 that decodes is the write to CTRL of its DATA (R62, R63). -/
theorem mkRecord_ctrl_of_decode {r : Record} {i : Instr} (h : decode r = .ok i) (hkind : recordKind r = 1)
    (haddr : recordAddr r = 0) : mkRecord 1 0 (recordData r) = r := by
  rcases decode_eq_ok_fields h with ⟨hreserved, _⟩ | ⟨_, hrsv, _⟩
  · rw [hkind] at hreserved
    exact absurd hreserved (by decide)
  · have hr := mkRecord_fields hrsv
    rwa [hkind, haddr] at hr

/-- What the encoder gives the instruction of a record: the record, its ignored bits 0 (R64; log entry 10). -/
theorem encode_of_decode {r : Record} {i : Instr} (h : decode r = .ok i) :
    encode i = some (r &&& significantBits i) := by
  by_cases hctrl : recordKind r ≠ 1 ∨ recordAddr r ≠ 0
  · have hencode := encode_of_decode_of_not_ctrl h hctrl
    rw [significantBits_of_encode hencode hctrl, BitVec.and_allOnes, hencode]
  · push Not at hctrl
    obtain ⟨hkind, haddr⟩ := hctrl
    have hr := mkRecord_ctrl_of_decode h hkind haddr
    have hi : Except.ok (ε := DecodeError) (decodeCommand (recordData r)) = .ok i := by
      rw [← decode_ctrlWrite, hr, h]
    cases hi
    rw [encode_decodeCommand, hr]

/-- Settles O2: the encoding is the record with its ignored bits cleared. -/
theorem encodeOfDecode : Obligations.EncodeOfDecode := by
  intro r i h
  refine ⟨_, encode_of_decode h, ?_, ?_⟩
  · rw [BitVec.and_assoc, BitVec.and_self]
  · rw [BitVec.and_assoc, BitVec.and_not_self]
    exact BitVec.and_zero

/-- Settles O4: each record by evaluation of the decoder. -/
theorem programRecordsDecode : Obligations.ProgramRecordsDecode := by
  unfold Obligations.ProgramRecordsDecode
  decide

end Sys2Proof
end

section
/-!
PROOFS. Well-formed records (R63): what decodes to a well-formed instruction, what an agent's turn does with a record
that is well formed or not, and the sample operand (R69).
-/
namespace Sys2Proof.Machine

/-! ### Which records are well formed -/

/-- The KINDs that are not reserved (R62). -/
theorem kind_cases {kind : BitVec 4} (h : kind.toNat ≤ 6) :
    kind = 0 ∨ kind = 1 ∨ kind = 2 ∨ kind = 3 ∨ kind = 4 ∨ kind = 5 ∨ kind = 6 := by
  revert kind; decide

/-- A command is well formed for all parameters (R65). -/
theorem wellFormed_decodeCommand (p : Params) (w : Word) : (decodeCommand w).wellFormed p = true := by
  unfold decodeCommand
  split <;> rfl

/-- A record that must be bare, and is, decodes to its transaction (R62, R63). -/
theorem exists_decode_bare (p : Params) {kind : BitVec 4} (h : kind = 0 ∨ kind = 4 ∨ kind = 5 ∨ kind = 6) :
    ∃ i, decode (mkRecord kind 0 0) = .ok i ∧ i.wellFormed p = true := by
  rcases h with rfl | rfl | rfl | rfl <;> exact ⟨_, rfl, rfl⟩

/-- A REG_WRITE with whatever ADDR and DATA decodes: to a command or to a write (R62, R65). -/
theorem exists_decode_write (p : Params) (addr : BitVec 8) (w : Word) :
    ∃ i, decode (mkRecord 1 addr w) = .ok i ∧ i.wellFormed p = true := by
  by_cases haddr : addr = 0
  · subst haddr
    exact ⟨_, decode_ctrlWrite w, wellFormed_decodeCommand p w⟩
  · exact ⟨_, decode_registerWrite w haddr, by simpa [Instr.wellFormed] using haddr⟩

/-- A well-formed record decodes to a well-formed instruction, KIND by KIND (R62, R63). -/
theorem RecordWellFormed.decodes {p : Params} {r : Record} (h : RecordWellFormed p r) :
    ∃ i, decode r = .ok i ∧ i.wellFormed p = true := by
  obtain ⟨hkind, hrsv, haddr, hdata, hsample⟩ := h
  rw [← mkRecord_fields hrsv]
  generalize recordKind r = kind at *
  generalize recordAddr r = addr at *
  generalize recordData r = data at *
  have hbare (hk : kind = 0 ∨ kind = 4 ∨ kind = 5 ∨ kind = 6) :
      ∃ i, decode (mkRecord kind addr data) = .ok i ∧ i.wellFormed p = true := by
    rw [haddr (by grind) (by grind), hdata (by grind)]
    exact exists_decode_bare p hk
  rcases kind_cases hkind with rfl | rfl | rfl | rfl | rfl | rfl | rfl
  · exact hbare (by decide)
  · exact exists_decode_write p addr data
  · rw [hdata (by decide)]
    exact ⟨_, decode_registerRead addr, rfl⟩
  · rw [haddr (by decide) (by decide)]
    exact ⟨_, decode_sample data, by simpa [Instr.wellFormed] using hsample rfl⟩
  · exact hbare (by decide)
  · exact hbare (by decide)
  · exact hbare (by decide)

/-- The record of a well-formed instruction is well formed (R63). -/
theorem recordWellFormed_of_encode {p : Params} {r : Record} {i : Instr} (hi : i.wellFormed p = true)
    (h : encode i = some r) : RecordWellFormed p r := by
  cases i <;> cases h
  case smp d =>
    exact ⟨by simp, by simp, by simp, by simp, fun _ => by simpa [Instr.wellFormed] using hi⟩
  case reservedKind => cases hi
  all_goals constructor <;> simp [commandRecord]

/-- A record that decodes to a well-formed instruction is well formed (R63). -/
theorem recordWellFormed_of_decode {p : Params} {r : Record} {i : Instr} (h : decode r = .ok i)
    (hi : i.wellFormed p = true) : RecordWellFormed p r := by
  by_cases hctrl : recordKind r ≠ 1 ∨ recordAddr r ≠ 0
  · exact recordWellFormed_of_encode hi (encode_of_decode_of_not_ctrl h hctrl)
  · push Not at hctrl
    obtain ⟨hkind, haddr⟩ := hctrl
    rw [← mkRecord_ctrl_of_decode h hkind haddr]
    constructor <;> simp

/-! ### An agent's turn with a record -/

/-- Where the record does not decode, the decided turn refuses it (R63). -/
theorem step_refuses_of_decode_error {s : State} {a : Agent} {ts : List Turn} {r : Record} {rest : List Record}
    {e : DecodeError} (hturns : s.turns = .agent a :: ts) (hqueue : s.inputs.queue a = r :: rest)
    (hdecode : decode r = .error e) : step s = .refused (.illFormed e) := by
  simp only [step, fetch_of_turns_cons hturns, fetchTurn, hqueue, hdecode]

/-- A reserved KIND is refused in every state (R63, R73). -/
theorem exec_reservedKind (kind : BitVec 4) (rest : BitVec 44) (s : State) :
    exec (.reservedKind kind rest) s = .refused (.reservedKind kind) := rfl

/-- A SAMPLE that is not sign-extended is refused in every state (R63; log entry 9). -/
theorem exec_smp_of_not_signExtended {s : State} {d : Word}
    (h : (d.setWidth s.params.sampleW).signExtend 32 ≠ d) :
    exec (.smp d) s = .refused (.sampleNotSignExtended d) := by
  have hnone : sampleOperand s.params d = none := if_neg h
  simp only [exec, execSmp, hnone]

/-- Settles O33: the two meanings that refuse. -/
theorem malformedInstructionsAreRefused : Obligations.MalformedInstructionsAreRefused :=
  fun s => ⟨fun kind rest => exec_reservedKind kind rest s, fun _ h => exec_smp_of_not_signExtended h⟩

/-- No record decodes to a register write at CTRL's offset: that is a command (R62; log entry 10). -/
theorem ne_wr_zero_of_decode {r : Record} {i : Instr} (h : decode r = .ok i) (w : Word) : i ≠ .wr 0 w := by
  rintro rfl
  by_cases hctrl : recordKind r ≠ 1 ∨ recordAddr r ≠ 0
  · have hencode := encode_of_decode_of_not_ctrl h hctrl
    cases hencode
    simp at hctrl
  · push Not at hctrl
    obtain ⟨hkind, haddr⟩ := hctrl
    rw [← mkRecord_ctrl_of_decode h hkind haddr, decode_ctrlWrite, Except.ok.injEq] at h
    exact decodeCommand_ne_wr _ _ _ h

/-- What a record decodes to is refused where it is not well formed (R63). -/
theorem exec_refuses_of_not_wellFormed {r : Record} {i : Instr} {s : State} (h : decode r = .ok i)
    (hi : i.wellFormed s.params = false) : ∃ why, exec i s = .refused why := by
  cases i
  case wr addr w =>
    have haddr : addr = 0 := by simpa [Instr.wellFormed] using hi
    exact absurd (haddr ▸ rfl) (ne_wr_zero_of_decode h w)
  case smp d => exact ⟨_, exec_smp_of_not_signExtended (by simpa [Instr.wellFormed] using hi)⟩
  case reservedKind kind rest => exact ⟨_, exec_reservedKind kind rest s⟩
  all_goals cases hi

/-- A register write always answers a next state (R119). -/
theorem exists_next_execWr {addr : BitVec 8} (w : Word) (s : State) (h : regAt addr ≠ some .ctrl) :
    ∃ t, execWr addr w s = .next t := by
  unfold execWr
  split
  case h_2 hctrl => exact absurd hctrl h
  all_goals exact ⟨_, rfl⟩

/-- A well-formed transaction or command is never refused and never a fault: it happens, has no effect, or stays
pending (R63, R118, R138). -/
theorem exists_next_exec {i : Instr} {s : State} (hi : i.wellFormed s.params = true) (hrecord : i.isInternal = false) :
    ∃ t, exec i s = .next t := by
  cases i
  case wr addr w => exact exists_next_execWr w s (regAt_ne_ctrl_of_wellFormed hi addr w rfl)
  case smp d =>
    have hext : (d.setWidth s.params.sampleW).signExtend 32 = d := by simpa [Instr.wellFormed] using hi
    have hsome : sampleOperand s.params d = some d.toInt := if_pos hext
    simp only [exec, execSmp, hsome]
    split <;> exact ⟨_, rfl⟩
  case start =>
    simp only [exec, execStart]
    split
    · exact ⟨_, rfl⟩
    · split <;> exact ⟨_, rfl⟩
  case eos => simp only [exec, execEos]; split <;> exact ⟨_, rfl⟩
  case srcerr => simp only [exec, execSrcerr]; split <;> exact ⟨_, rfl⟩
  case pop => simp only [exec, execPop]; split <;> exact ⟨_, rfl⟩
  case reservedKind => cases hi
  case scan | finish | phase | extract | parse => cases hrecord
  all_goals exact ⟨_, rfl⟩

/-- No record stands for an internal step (R61). -/
theorem isInternal_of_decode {r : Record} {i : Instr} (h : decode r = .ok i) : i.isInternal = false := by
  have hencode := encode_of_decode h
  cases i
  case scan | finish | phase | extract | parse => cases hencode
  all_goals rfl

/-- Settles O3: the records that decode to a well-formed instruction, and the decided turn of an agent whose first
record is, or is not, one of them. -/
theorem recordsRefusedExactlyIfIllFormed : Obligations.RecordsRefusedExactlyIfIllFormed := by
  refine ⟨fun p r => ⟨fun h => h.decodes, fun ⟨i, h, hi⟩ => recordWellFormed_of_decode h hi⟩, ?refused, ?next⟩
  case refused =>
    intro s a ts r rest hturns hqueue hill
    cases hdecode : decode r with
    | error e => exact ⟨_, step_refuses_of_decode_error hturns hqueue hdecode⟩
    | ok i =>
      rw [step_of_agent_turn hturns hqueue hdecode]
      refine exec_refuses_of_not_wellFormed hdecode ?_
      exact Bool.eq_false_iff.mpr fun hi => hill (recordWellFormed_of_decode hdecode hi)
  case next =>
    intro s a ts r rest hturns hqueue hwell
    obtain ⟨i, hdecode, hi⟩ := hwell.decodes
    rw [step_of_agent_turn hturns hqueue hdecode]
    exact exists_next_exec hi (isInternal_of_decode hdecode)

/-- Settles O9: the record placed first runs at once, and what is left is the state it was placed in. -/
theorem fetchWordRunsItsInstruction : Obligations.FetchWordRunsItsInstruction := by
  intro s nbits w i h
  have hdecode : decode (tableRecord nbits w) = .ok i := by
    unfold decodeTableWord at h
    split at h
    · rename_i j hj
      cases h
      exact hj
    · cases h
  exact step_of_offerFirst hdecode

/-! ### The sample operand (R63, R69) -/

/-- DATA that is the sign extension of a value of SAMPLE_W bits carries that value (R63). -/
theorem sampleOperand_signExtend {p : Params} (hp : p.sampleW ≤ 32) (b : BitVec p.sampleW) :
    sampleOperand p (b.signExtend 32) = some b.toInt := by
  have hlow : (b.signExtend 32).setWidth p.sampleW = b := by
    refine BitVec.eq_of_getLsbD_eq fun i hi => ?_
    have hi32 : i < 32 := by omega
    rw [BitVec.getLsbD_setWidth, BitVec.getLsbD_signExtend]
    simp [hi, hi32]
  have hext : ((b.signExtend 32).setWidth p.sampleW).signExtend 32 = b.signExtend 32 := by rw [hlow]
  rw [sampleOperand, if_pos hext, BitVec.toInt_signExtend_of_le hp]

/-- A sample in range is the value of a word of SAMPLE_W bits (R69). -/
theorem toInt_ofInt_of_inRange {w : Nat} {x : Sample} (hw : 0 < w) (hx : sampleInRange w x = true) :
    (BitVec.ofInt w x).toInt = x := by
  rw [sampleInRange, Bool.and_eq_true, decide_eq_true_eq, decide_eq_true_eq] at hx
  obtain ⟨hlow, hhigh⟩ := hx
  exact BitVec.toInt_ofInt_eq_self hw hlow hhigh

/-- Settles O6: a sample in range is sign-extended in DATA, and DATA that is sign-extended carries one in range. -/
theorem sampleOperandIsSignedInRange : Obligations.SampleOperandIsSignedInRange := by
  intro p hp
  refine ⟨fun x hx => ⟨decode_sample _, ?_⟩, fun d x h => sampleOperand_inRange hp h⟩
  obtain ⟨hlow, hhigh⟩ : 2 ≤ p.sampleW ∧ p.sampleW ≤ 32 := by
    simp only [Params.legal, Bool.and_eq_true, decide_eq_true_eq] at hp
    omega
  have hval := toInt_ofInt_of_inRange (by omega) hx
  have hdata : BitVec.ofInt 32 x = (BitVec.ofInt p.sampleW x).signExtend 32 := by
    rw [BitVec.signExtend, hval]
  rw [hdata, sampleOperand_signExtend hhigh, hval]

end Sys2Proof.Machine
end

section
/-!
PROOFS. A frame and its packet (R70, R71): the CRC of a message followed by its own CRC is 0 (R84), so that a frame's
bytes parse to its payload, and the packet's beats are the payload's.
-/
namespace Sys2Proof.Machine

/-! ### The residue of the CRC (R84) -/

/-- The register's first `k` bits, most significant first. -/
def topBits (c : BitVec 16) (k : Nat) : List Bool := (List.range k).map fun j => c.getLsbD (15 - j)

/-- A message bit equal to the register's top bit is shifted out with it (R79). -/
theorem crcBit_top (c : BitVec 16) : crcBit c (c.getLsbD 15) = c <<< 1 := by
  simp [crcBit]

/-- Fed with its own bits, the register shifts them out one by one (R79). -/
theorem foldl_crcBit_topBits (c : BitVec 16) {k : Nat} (hk : k ≤ 16) : (topBits c k).foldl crcBit c = c <<< k := by
  induction k with
  | zero => simp [topBits]
  | succ k ih =>
    have htop : c.getLsbD (15 - k) = (c <<< k).getLsbD 15 := by
      rw [BitVec.getLsbD_shiftLeft]
      simp [show ¬ 15 < k by omega]
    have hsnoc : topBits c (k + 1) = topBits c k ++ [c.getLsbD (15 - k)] := by simp [topBits, List.range_succ]
    rw [hsnoc, List.foldl_append, ih (by omega), htop, List.foldl_cons, List.foldl_nil, crcBit_top,
      BitVec.shiftLeft_add]

/-- The bits of a register's two bytes, high byte first, are its own (R48, R84). -/
theorem bitsMsb_crcBytes (c : BitVec 16) : bitsMsb (crcBytes c) = topBits c 16 := by
  simp [crcBytes, byteBits, topBits, List.range_succ]

/-- The CRC of bytes is the CRC of their bits (R80). -/
theorem foldl_crcByte_eq (c : BitVec 16) (bs : List Byte) : bs.foldl crcByte c = (bitsMsb bs).foldl crcBit c := by
  induction bs generalizing c with
  | nil => rfl
  | cons b bs ih => rw [List.foldl_cons, ih, bitsMsb_cons, List.foldl_append, crcByte]

/-- The CRC's two bytes, high byte first, bring the register that gave them to 0 (R84). -/
theorem foldl_crcByte_crcBytes (c : BitVec 16) : (crcBytes c).foldl crcByte c = 0 := by
  rw [foldl_crcByte_eq, bitsMsb_crcBytes, foldl_crcBit_topBits c (Nat.le_refl 16)]
  exact BitVec.shiftLeft_eq_zero (Nat.le_refl 16)

/-- The residue of a message followed by its own CRC (R84). -/
theorem crc16_append_crcBytes (msg : List Byte) : crc16 (msg ++ crcBytes (crc16 msg)) = 0 := by
  rw [crc16_append, foldl_crcByte_crcBytes]

/-! ### The parser on a frame (R71, R100) -/

/-- A payload that fits PACKET_LENGTH is as long as its length byte says (R71). -/
theorem toNat_lengthByte {payload : List Byte} (h : payload.length ≤ 255) :
    (BitVec.ofNat 8 payload.length).toNat = payload.length := by
  rw [BitVec.toNat_ofNat]
  exact Nat.mod_eq_of_lt (by omega)

/-- The bytes a frame needs are the frame's own, whatever follows (R100). -/
theorem take_frameNeed_frameData (crcOn : Bool) (payload extra : List Byte) :
    (frameData crcOn payload ++ extra).take (frameNeed crcOn payload.length) = frameData crcOn payload :=
  List.take_left' (frameData_length crcOn payload)

/-- With a CRC a frame's bytes have residue 0 (R84). -/
theorem crc16_frameData (payload : List Byte) : crc16 (frameData true payload) = 0 :=
  crc16_append_crcBytes (frameMessage payload)

/-- A frame begins with its length byte, and its payload follows (R71). -/
theorem frameData_eq_cons (crcOn : Bool) (payload : List Byte) :
    ∃ crc, frameData crcOn payload = BitVec.ofNat 8 payload.length :: (payload ++ crc) := ⟨_, rfl⟩

/-- Where none of its three checks fails the parser yields the bytes after the length byte (R100). -/
theorem parseFrame_eq_packet {pktlen : Nat} {crcOn : Bool} {b : Byte} {rest : List Byte} (hlen : b.toNat ≤ pktlen)
    (hneed : frameNeed crcOn b.toNat ≤ (b :: rest).length)
    (hcrc : crcOn = true → crc16 ((b :: rest).take (frameNeed crcOn b.toNat)) = 0) :
    parseFrame pktlen crcOn (b :: rest) = .packet { address := none, payload := rest.take b.toNat } := by
  have hresidue : ¬ (crcOn && crc16 ((b :: rest).take (frameNeed crcOn b.toNat)) != 0) = true := by simpa using hcrc
  rw [parseFrame, if_neg (by omega), if_neg (by omega), if_neg hresidue]

/-- Settles O44: none of the parser's three checks fails, and what it takes is the payload. -/
theorem frameParsesToItsPayload : Obligations.FrameParsesToItsPayload := by
  intro pktlen crcOn payload extra hlen hmax
  obtain ⟨crc, hcons⟩ := frameData_eq_cons crcOn payload
  have hbyte := toNat_lengthByte (payload := payload) (by omega)
  have hneed := frameData_length crcOn payload
  have htake := take_frameNeed_frameData crcOn payload extra
  rw [hcons, List.cons_append] at htake ⊢
  rw [hcons] at hneed
  rw [parseFrame_eq_packet, hbyte, List.append_assoc, List.take_left]
  · omega
  · rw [hbyte, ← hneed]; simp
  · rintro rfl
    rw [hbyte, htake, ← hcons, crc16_frameData]

/-! ### The beats of a packet (R70) -/

/-- The payload's beats: each byte in order, `eop` on the last and only there (R70). -/
theorem getElem?_payloadBeats (bs : List Byte) (i : Nat) (h : i < bs.length) :
    (payloadBeats bs)[i]? = some { data := bs[i], sop := false, eop := decide (i + 1 = bs.length) } := by
  induction bs using payloadBeats.induct generalizing i with
  | case1 => cases h
  | case2 b =>
    obtain rfl : i = 0 := by simpa using h
    rfl
  | case3 b bs hne ih =>
    cases i with
    | zero => simpa [payloadBeats] using hne
    | succ i => simpa [payloadBeats] using ih i (by simpa using h)

/-- Settles O46: the length beat, then the payload's. -/
theorem packetBeatsLayout : Obligations.PacketBeatsLayout := by
  intro payload
  refine ⟨packetBeats_length _, ?first, fun i h => getElem?_payloadBeats payload i h⟩
  case first => cases payload <;> rfl

end Sys2Proof.Machine
end

section
/-!
PROOFS. The ideal samples of a frame decode to its packet (95_test_vectors.md S8): the threshold of an ideal preamble
lies between the two levels (R103, R104), so that from the cursor on the window carries the frame's bits, and the four
internal steps read them back.
-/
namespace Sys2Proof.Machine

/-! ### Ideal samples (R75) -/

theorem idealSamples_append (high low : Sample) (stride : Nat) (xs ys : List Bool) :
    idealSamples high low stride (xs ++ ys) = idealSamples high low stride xs ++ idealSamples high low stride ys :=
  List.flatMap_append

theorem idealSamples_cons (high low : Sample) (stride : Nat) (b : Bool) (bits : List Bool) :
    idealSamples high low stride (b :: bits) =
      List.replicate stride (bitLevel high low b) ++ idealSamples high low stride bits := rfl

/-- Every sample of bit `j` is at that bit's level (R75). -/
theorem getElem?_idealSamples (high low : Sample) {stride i : Nat} (hi : i < stride) (bits : List Bool) (j : Nat) :
    (idealSamples high low stride bits)[i + j * stride]? = bits[j]?.map (bitLevel high low) := by
  induction bits generalizing j with
  | nil => simp [idealSamples]
  | cons b bits ih =>
    rw [idealSamples_cons]
    cases j with
    | zero => simp [List.getElem?_append_left, hi]
    | succ j =>
      have hoff : i + (j + 1) * stride = stride + (i + j * stride) := by rw [Nat.succ_mul]; omega
      rw [hoff, List.getElem?_append_right (by simp), List.length_replicate, Nat.add_sub_cancel_left, ih,
        List.getElem?_cons_succ]

/-- The preamble is half ones and half zeros (R93), so its samples' sum is that of as many of each level. -/
theorem sum_idealSamples_preamble (high low : Sample) (stride npre : Nat) :
    (idealSamples high low stride (bitsMsb (preamble npre))).sum = 4 * (npre * stride : Nat) * (high + low) := by
  induction npre with
  | zero => simp [preamble, repeatList, idealSamples]
  | succ k ih =>
    have hstep : preamble (k + 1) = 0xAA :: preamble k := rfl
    have hbits : byteBits 0xAA = [true, false, true, false, true, false, true, false] := by decide
    rw [hstep, bitsMsb_cons, idealSamples_append, List.sum_append, ih, hbits]
    simp [idealSamples, bitLevel]
    ring

/-! ### What the window holds -/

/-- The window holds a sequence exactly if it holds its samples one by one. -/
theorem holdsFrom_iff {s : State} {xs : List Sample} :
    holdsFrom s xs ↔ ∀ k x, xs[k]? = some x → Memory.read s.smp (s.pos + k) = some x := by
  constructor
  · intro h k x hx
    obtain ⟨hk, rfl⟩ := List.getElem?_eq_some_iff.mp hx
    exact h k hk
  · exact fun h k hk => h k _ (List.getElem?_eq_getElem hk)

theorem holdsFrom_left {s : State} {xs ys : List Sample} (h : holdsFrom s (xs ++ ys)) : holdsFrom s xs :=
  holdsFrom_iff.mpr fun k x hx => holdsFrom_iff.mp h k x <| by
    rwa [List.getElem?_append_left (List.getElem?_eq_some_iff.mp hx).1]

/-- Held samples have been received (R41). -/
theorem State.Inv.length_le_of_holdsFrom {s : State} (h : s.Inv) {xs : List Sample} (hpos : 0 < xs.length)
    (hxs : holdsFrom s xs) : s.pos + xs.length ≤ s.rcv := by
  have hlast := (h.read_isSome_iff (s.pos + (xs.length - 1))).mp (by rw [hxs _ (by omega)]; rfl)
  omega

/-- The threshold sum over held samples is their sum (R103). -/
theorem thresholdSum_of_holdsFrom {s : State} {xs : List Sample} (h : holdsFrom s xs) :
    thresholdSum s.smp s.pos xs.length = xs.sum := by
  have hsamples : (windowIndices s.pos xs.length).map (Memory.sampleAt s.smp) = xs := by
    refine List.ext_getElem (by simp [windowIndices]) fun k hk hk' => ?_
    have := Memory.sampleAt_of_read (h k hk')
    simpa [windowIndices] using this
  rw [thresholdSum, hsamples]

/-- The floor mean of as many samples of one level as of the other is at least the low one and below the high one. -/
theorem floorDiv_levels {high low : Sample} (hlt : low < high) {n : Nat} (hn : 0 < n) :
    low ≤ floorDiv (4 * (n : Int) * (high + low)) ((8 * n : Nat) : Int) ∧
      floorDiv (4 * (n : Int) * (high + low)) ((8 * n : Nat) : Int) < high := by
  have hpos : (0 : Int) < ((8 * n : Nat) : Int) := by omega
  have hgap : 0 < (n : Int) * (high - low) := mul_pos (by omega) (sub_pos.mpr hlt)
  rw [floorDiv, Int.fdiv_eq_ediv_of_nonneg _ hpos.le, Int.le_ediv_iff_mul_le hpos, Int.ediv_lt_iff_lt_mul hpos]
  push_cast
  constructor <;> nlinarith

/-- From `p` on, `stride` samples a bit, the window carries these bits at threshold `t` (R104). -/
def CarriesBits (w : Memory) (p stride : Nat) (t : Int) (bits : List Bool) : Prop :=
  ∀ (j : Nat) (hj : j < bits.length) (i : Nat), i < stride → sampleBit w t (p + i + j * stride) = bits[j]

/-- Ideal samples carry their bits at any threshold between the levels (R104). -/
theorem carriesBits_of_holdsFrom {s : State} {high low : Sample} {stride : Nat} {bits : List Bool} {t : Int}
    (h : holdsFrom s (idealSamples high low stride bits)) (hlow : low ≤ t) (hhigh : t < high) :
    CarriesBits s.smp s.pos stride t bits := by
  intro j hj i hi
  have hread : Memory.read s.smp (s.pos + (i + j * stride)) = some (bitLevel high low bits[j]) :=
    holdsFrom_iff.mp h _ _ (by rw [getElem?_idealSamples high low hi, List.getElem?_eq_getElem hj]; rfl)
  rw [sampleBit, Nat.add_assoc, Memory.sampleAt_of_read hread]
  cases bits[j] with
  | false => simpa [bitLevel] using hlow
  | true => simpa [bitLevel] using hhigh

theorem CarriesBits.left {w : Memory} {p stride : Nat} {t : Int} {xs ys : List Bool}
    (h : CarriesBits w p stride t (xs ++ ys)) : CarriesBits w p stride t xs := by
  intro j hj i hi
  rw [h j (by rw [List.length_append]; omega) i hi, List.getElem_append_left hj]

/-- The pattern test holds where every bit agrees (R105). -/
theorem patternMatch_of_forall {w : Memory} {stride b : Nat} {t : Int} {ps : List Bool}
    (h : ∀ (j : Nat) (hj : j < ps.length), sampleBit w t (b + j * stride) = ps[j]) :
    patternMatch w stride t b ps = true := by
  induction ps generalizing b with
  | nil => rfl
  | cons p ps ih =>
    have hhead : sampleBit w t b = p := by
      have := h 0 (Nat.succ_pos _)
      rwa [Nat.zero_mul, Nat.add_zero] at this
    have htail : patternMatch w stride t (b + stride) ps = true := by
      refine ih fun j hj => ?_
      have := h (j + 1) (by simpa using hj)
      rwa [Nat.succ_mul, Nat.add_comm (j * stride), ← Nat.add_assoc, List.getElem_cons_succ] at this
    rw [patternMatch, hhead, htail, beq_self_eq_true, Bool.and_self]

/-- A pattern that the window carries matches at every offset below the stride (R105, R109). -/
theorem CarriesBits.patternMatch {w : Memory} {p stride : Nat} {t : Int} {ps : List Bool}
    (h : CarriesBits w p stride t ps) {i : Nat} (hi : i < stride) : patternMatch w stride t (p + i) ps = true :=
  patternMatch_of_forall fun j hj => h j hj i hi

/-- The sampled bits are the ones carried (R111). -/
theorem CarriesBits.map_strideIndices {w : Memory} {p stride : Nat} {t : Int} {bits : List Bool}
    (h : CarriesBits w p stride t bits) {i : Nat} (hi : i < stride) :
    (strideIndices (p + i) stride bits.length).map (sampleBit w t) = bits := by
  refine List.ext_getElem (by simp [strideIndices]) fun j hj hj' => ?_
  simpa [strideIndices] using h j hj' i hi

/-! ### The chosen run of a sweep that matches everywhere (R110) -/

theorem runsFrom_replicate_true {i len n : Nat} (hlen : len ≤ i) (hn : 0 < len + n) :
    runsFrom i len (List.replicate n true) = [(i - len, len + n)] := by
  induction n generalizing i len with
  | zero => rw [List.replicate_zero, runsFrom, if_neg (by omega)]; rfl
  | succ n ih =>
    rw [List.replicate_succ, runsFrom, ih (by omega) (by omega), Nat.add_sub_add_right]
    congr 2; omega

theorem chosenRun_replicate_true {n : Nat} (hn : 0 < n) : chosenRun (List.replicate n true) = some (0, n - 1) := by
  rw [chosenRun, runsFrom_replicate_true (Nat.le_refl 0) (by omega)]
  simp [longestRun]

/-! ### EXTRACT on a frame (R111, R112) -/

theorem strideIndices_succ (b stride n : Nat) :
    strideIndices b stride (n + 1) = b :: strideIndices (b + stride) stride n := by
  simp only [strideIndices, List.range_succ_eq_map, List.map_cons, List.map_map, Nat.zero_mul, Nat.add_zero]
  congr 1
  refine List.map_congr_left fun j _ => ?_
  rw [Function.comp_apply, Nat.succ_mul]; omega

/-- Positions below the limit are sampled one stride apart (R111). -/
theorem extractIndices_eq_append {p stride limit n fuel : Nat} (h : ∀ j < n, p + j * stride < limit) :
    extractIndices p stride limit (n + fuel) =
      strideIndices p stride n ++ extractIndices (p + n * stride) stride limit fuel := by
  induction n generalizing p with
  | zero => simp [strideIndices]
  | succ n ih =>
    have hp : p < limit := by simpa using h 0 (by omega)
    have htail : ∀ j < n, p + stride + j * stride < limit := fun j hj => by
      have := h (j + 1) (by omega)
      rw [Nat.succ_mul] at this; omega
    rw [Nat.succ_add, extractIndices, if_pos hp, ih htail, strideIndices_succ, List.cons_append, Nat.succ_mul,
      Nat.add_assoc p, Nat.add_comm stride]

/-- Packing gives back the bytes in front, whatever bits follow (R111). -/
theorem packBytes_bitsMsb_append (bs : List Byte) (e : List Bool) :
    packBytes (bitsMsb bs ++ e) = bs ++ packBytes e := by
  induction bs with
  | nil => rfl
  | cons b bs ih => rw [bitsMsb_cons, List.append_assoc, packBytes_byteBits_append, ih, List.cons_append]

/-- Whitening twice from the same state gives the bytes back, whatever follows them (R78). -/
theorem whitenFrom_whitenFrom_append (v : BitVec 9) (xs ys : List Byte) :
    ∃ zs, whitenFrom v (whitenFrom v xs ++ ys) = xs ++ zs := by
  induction xs generalizing v with
  | nil => exact ⟨_, rfl⟩
  | cons x xs ih =>
    obtain ⟨zs, hzs⟩ := ih (lfsrNext v)
    refine ⟨zs, ?_⟩
    rw [whitenFrom, List.cons_append, whitenFrom, hzs, BitVec.xor_assoc, BitVec.xor_self, BitVec.xor_zero,
      List.cons_append]

/-- De-whitening a whitened sequence gives it back, whatever follows it (R78, R112). -/
theorem dewhiten_dewhiten_append (xs ys : List Byte) : ∃ zs, dewhiten (dewhiten xs ++ ys) = xs ++ zs :=
  whitenFrom_whitenFrom_append lfsrSeed xs ys

/-- EXTRACT samples every bit carried, and then perhaps more (R111). -/
theorem candidateBits_of_carriesBits {s : State} {bits : List Bool} (hmid : s.mid < s.desc.stride)
    (hmaxsize : s.desc.maxsize = s.desc.mfb * s.desc.stride) (hrcv : s.pos + bits.length * s.desc.stride ≤ s.rcv)
    (hfits : bits.length ≤ s.desc.mfb) (hbits : CarriesBits s.smp s.pos s.desc.stride s.thHold bits) :
    ∃ more, (candidateIndices s).map (sampleBit s.smp s.thHold) = bits ++ more := by
  have hlimit : ∀ j < bits.length, s.pos + s.mid + j * s.desc.stride < s.lookAheadEnd := by
    intro j hj
    have hnext := Nat.mul_le_mul_right s.desc.stride hj
    have hahead := Nat.mul_le_mul_right s.desc.stride hfits
    rw [Nat.succ_mul] at hnext
    rw [State.lookAheadEnd, hmaxsize]
    omega
  have hindices := extractIndices_eq_append (fuel := s.desc.mfb - bits.length) hlimit
  rw [Nat.add_sub_cancel' hfits] at hindices
  rw [candidateIndices, hindices, List.map_append, hbits.map_strideIndices hmid]
  exact ⟨_, rfl⟩

/-- De-whitening, where it is set, gives back a frame's data from its body as sent (R71, R112). -/
theorem dewhiten_frameBody_append (white crcOn : Bool) (payload more : List Byte) :
    ∃ extra, (if white then dewhiten (frameBody white crcOn payload ++ more)
        else frameBody white crcOn payload ++ more) = frameData crcOn payload ++ extra := by
  cases white with
  | false => exact ⟨more, rfl⟩
  | true => exact dewhiten_dewhiten_append (frameData crcOn payload) more

/-- EXTRACT on a frame's bits gives the frame's data, and after it whatever the samples that follow give (R71, R111). -/
theorem candidateData_of_carriesBits {s : State} {payload : List Byte}
    (hdesc : s.desc = buildDescriptor s.cfg0 s.cfg1 s.cfg2) (hmid : s.mid < s.desc.stride)
    (hrcv : s.pos + (bitsMsb (frameBytes s.cfg0 s.cfg1 payload)).length * s.desc.stride ≤ s.rcv)
    (hfits : (bitsMsb (frameBytes s.cfg0 s.cfg1 payload)).length ≤ s.desc.mfb)
    (hbits : CarriesBits s.smp s.pos s.desc.stride s.thHold (bitsMsb (frameBytes s.cfg0 s.cfg1 payload))) :
    ∃ extra, candidateData s = frameData s.desc.crcEn payload ++ extra := by
  have hmaxsize : s.desc.maxsize = s.desc.mfb * s.desc.stride := by rw [hdesc]; rfl
  obtain ⟨more, hmore⟩ := candidateBits_of_carriesBits hmid hmaxsize hrcv hfits hbits
  have hbody : (candidateBytes s).drop (s.desc.n / 8) =
      frameBody s.desc.white s.desc.crcEn payload ++ packBytes more := by
    have hn : s.desc.n / 8 = (patternBytes s.cfg0 s.cfg1).length := by
      rw [hdesc, patternBytes_length]
      exact Nat.mul_div_cancel_left _ (by decide)
    rw [candidateBytes, hmore, packBytes_bitsMsb_append, frameBytes, List.append_assoc, hn, List.drop_left, hdesc]
    rfl
  rw [candidateData, hbody]
  exact dewhiten_frameBody_append _ _ _ _

/-! ### What the internal steps read and do -/

/-- Every sample received and not yet discarded is held (R41). -/
def State.WindowHeld (s : State) : Prop := ∀ k, s.pos ≤ k → k < s.rcv → (Memory.read s.smp k).isSome

theorem State.Inv.windowHeld {s : State} (h : s.Inv) : s.WindowHeld :=
  fun k hlow hhigh => (h.read_isSome_iff k).mpr ⟨hlow, hhigh⟩

/-- The pattern's samples at an offset below the stride lie in the pattern window (R105, R107). -/
theorem strideIndices_bound {p i stride n k : Nat} (hi : i < stride) (h : k ∈ strideIndices (p + i) stride n) :
    p ≤ k ∧ k < p + n * stride := by
  obtain ⟨j, hj, rfl⟩ := mem_strideIndices.mp h
  have := Nat.mul_le_mul_right stride hj
  rw [Nat.succ_mul] at this
  omega

/-- Every sample SCAN reads is held (R107). -/
theorem State.WindowHeld.scanReads {s : State} (h : s.WindowHeld) (hstride : 0 < s.desc.stride)
    (hsize : s.desc.thsize ≤ s.desc.n * s.desc.stride) (hrcv : s.pos + s.desc.n * s.desc.stride ≤ s.rcv) :
    firstAbsent s.smp (scanReads s) = none := by
  refine (firstAbsent_eq_none_iff _ _).mpr fun k hk => ?_
  rcases List.mem_append.mp hk with hk | hk
  · obtain ⟨hlow, hhigh⟩ : s.pos ≤ k ∧ k < s.pos + s.desc.thsize := List.mem_range'_1.mp hk
    exact h k hlow (by omega)
  · obtain ⟨hlow, hhigh⟩ := strideIndices_bound (p := s.pos) (i := 0) hstride hk
    exact h k hlow (by omega)

/-- Every sample the sweep reads is held (R109). -/
theorem State.WindowHeld.phaseReads {s : State} (h : s.WindowHeld)
    (hrcv : s.pos + s.desc.n * s.desc.stride ≤ s.rcv) : firstAbsent s.smp (phaseReads s) = none := by
  refine (firstAbsent_eq_none_iff _ _).mpr fun k hk => ?_
  obtain ⟨i, hi, hk⟩ := List.mem_flatMap.mp hk
  obtain ⟨hlow, hhigh⟩ := strideIndices_bound (List.mem_range.mp hi) hk
  exact h k hlow (by omega)

/-- Every sample EXTRACT reads is held (R111). -/
theorem State.WindowHeld.candidateIndices {s : State} (h : s.WindowHeld) :
    firstAbsent s.smp (candidateIndices s) = none := by
  refine (firstAbsent_eq_none_iff _ _).mpr fun k hk => ?_
  obtain ⟨hlow, hhigh⟩ := mem_extractIndices hk
  have hend : s.lookAheadEnd ≤ s.rcv := Nat.min_le_left _ _
  exact h k (by omega) (by omega)

/-- The state with the turn just served taken (log entry 1). -/
def State.takeTurn (s : State) : State := { s with turns := s.turns.tail }

/-- A block turn runs the internal step that is enabled (R107 to R113). -/
theorem step_of_block_turn {s : State} {i : Instr} (hturn : s.turns.head? = some .block)
    (hi : s.blockInstr = some i) : step s = exec i s.takeTurn := by
  obtain ⟨ts, hts⟩ := List.head?_eq_some_iff.mp hturn
  have hstep := (blockTurnRunsEnabledStep s ts hts).1 i hi
  rwa [State.takeTurn, hts, List.tail_cons]

/-- SCAN with the samples it reads held and the pattern in them (R107). -/
theorem execScan_of_match {s : State} (henabled : s.scanEnabled = true) (hsize : s.desc.thsize ≠ 0)
    (hreads : firstAbsent s.smp (scanReads s) = none)
    (hit : patternMatch s.smp s.desc.stride s.withThreshold.th s.pos s.desc.pattern = true) :
    execScan s = .next { s.withThreshold with thHold := s.withThreshold.th, st := .phase } := by
  rw [execScan, if_pos henabled, if_neg hsize, hreads, State.scanTest, if_pos hit]

/-- PHASE with the samples it reads held and a run in the sweep (R109). -/
theorem execPhase_of_run {s : State} {a b : Nat} (henabled : s.phaseEnabled = true)
    (hreads : firstAbsent s.smp (phaseReads s) = none) (hrun : chosenRun (phaseSweep s) = some (a, b)) :
    execPhase s = .next { s with mid := (a + b) / 2, runlen := b - a + 1, st := .extract } := by
  rw [execPhase, if_pos henabled, hreads]
  simp only [hrun]

/-- EXTRACT with the samples it reads held (R111). -/
theorem execExtract_of_held {s : State} (henabled : s.extractEnabled = true)
    (hreads : firstAbsent s.smp (candidateIndices s) = none) :
    execExtract s = .next { s with dBytes := candidateData s, st := .parse } := by
  rw [execExtract, if_pos henabled, hreads]

/-- PARSE of a packet for which there is room (R113). -/
theorem execParse_of_packet {s : State} {p : Packet} (henabled : s.parseEnabled = true)
    (hparsed : s.parsed = .packet p) : execParse s = .next (s.emitPacket p) := by
  rw [execParse, if_pos henabled, hparsed]

/-! ### A frame in the window -/

/-- A frame's bits are the pattern and the bits of its body (R71, R95). -/
theorem bitsMsb_frameBytes {s : State} (hdesc : s.desc = buildDescriptor s.cfg0 s.cfg1 s.cfg2) (payload : List Byte) :
    bitsMsb (frameBytes s.cfg0 s.cfg1 payload) =
      s.desc.pattern ++ bitsMsb (frameBody s.desc.white s.desc.crcEn payload) := by
  rw [frameBytes, bitsMsb_append, hdesc]
  rfl

/-- The pattern is part of the frame (R71). -/
theorem pattern_le_frame {s : State} (hdesc : s.desc = buildDescriptor s.cfg0 s.cfg1 s.cfg2)
    (hsizes : SessionSizes s) (payload : List Byte) :
    s.desc.n ≤ (bitsMsb (frameBytes s.cfg0 s.cfg1 payload)).length := by
  rw [bitsMsb_frameBytes hdesc, List.length_append, hsizes.pattern]
  exact Nat.le_add_right _ _

/-- A frame is no longer than the longest one of its configuration (R71, R96). -/
theorem frame_fits {s : State} (hdesc : s.desc = buildDescriptor s.cfg0 s.cfg1 s.cfg2)
    (hsizes : SessionSizes s) {payload : List Byte} (hlen : payload.length ≤ 255) :
    (bitsMsb (frameBytes s.cfg0 s.cfg1 payload)).length ≤ s.desc.mfb := by
  have hbody : (frameBody s.desc.white s.desc.crcEn payload).length = frameNeed s.desc.crcEn payload.length := by
    rw [frameBody]
    split <;> simp [frameData_length]
  have hneed : frameNeed s.desc.crcEn payload.length ≤ 258 := by
    rw [frameNeed]
    split <;> omega
  rw [bitsMsb_frameBytes hdesc, List.length_append, bitsMsb_length, hbody, hsizes.pattern, hsizes.mfb]
  omega

/-- PACKET_LENGTH is one byte (R24). -/
theorem pktlen_le {s : State} (hdesc : s.desc = buildDescriptor s.cfg0 s.cfg1 s.cfg2) : s.desc.pktlen ≤ 255 := by
  rw [hdesc]
  exact Nat.le_of_lt_succ (s.cfg1.extractLsb' 16 8).isLt

/-- The threshold on an ideal frame lies between the two levels (R103). -/
theorem SessionOpen.threshold_bounds {s : State} (h : SessionOpen s) {high low : Sample} {payload : List Byte}
    (hlt : low < high)
    (hframe : holdsFrom s (idealSamples high low s.desc.stride (bitsMsb (frameBytes s.cfg0 s.cfg1 payload)))) :
    low ≤ s.withThreshold.th ∧ s.withThreshold.th < high := by
  have hframe : holdsFrom s (idealSamples high low s.desc.stride (bitsMsb (preamble s.desc.npre))) := by
    rw [frameBytes, patternBytes, List.append_assoc, bitsMsb_append, idealSamples_append] at hframe
    rw [h.desc] at hframe ⊢
    exact holdsFrom_left hframe
  have hsize : (idealSamples high low s.desc.stride (bitsMsb (preamble s.desc.npre))).length = s.desc.thsize := by
    rw [idealSamples_length, bitsMsb_length, preamble, repeatList_length, List.length_singleton, Nat.mul_one, h.desc]
    rfl
  have hpositive : 0 < s.desc.npre * s.desc.stride := by
    have hnpre := preambleBytes_bounds (numPreamble s.cfg0)
    refine Nat.mul_pos ?_ h.sizes.stride
    rw [h.desc]
    show 0 < preambleBytes (numPreamble s.cfg0)
    omega
  have hthsize : s.desc.thsize = 8 * (s.desc.npre * s.desc.stride) := by
    rw [h.desc]; exact Nat.mul_assoc _ _ _
  have hsum := thresholdSum_of_holdsFrom hframe
  rw [hsize, sum_idealSamples_preamble] at hsum
  rw [State.withThreshold_th, hsum, hthsize]
  exact floorDiv_levels hlt hpositive

/-- Every sample of an ideal frame that the window holds has been received (R41). -/
theorem State.Inv.frame_received {s : State} (h : s.Inv) (hopen : SessionOpen s) {high low : Sample}
    {payload : List Byte}
    (hframe : holdsFrom s (idealSamples high low s.desc.stride (bitsMsb (frameBytes s.cfg0 s.cfg1 payload)))) :
    s.pos + (bitsMsb (frameBytes s.cfg0 s.cfg1 payload)).length * s.desc.stride ≤ s.rcv := by
  have hlong : 0 < (bitsMsb (frameBytes s.cfg0 s.cfg1 payload)).length :=
    calc 0 < 32 := by decide
      _ ≤ s.desc.n := hopen.sizes.patternLow
      _ ≤ _ := pattern_le_frame hopen.desc hopen.sizes payload
  have hreceived := h.length_le_of_holdsFrom (by
    rw [idealSamples_length]; exact Nat.mul_pos hlong hopen.sizes.stride) hframe
  rwa [idealSamples_length] at hreceived

/-- A sweep over a pattern carried at every offset matches everywhere (R109). -/
theorem phaseSweep_of_carriesBits {s : State}
    (h : CarriesBits s.smp s.pos s.desc.stride s.thHold s.desc.pattern) :
    phaseSweep s = List.replicate s.desc.stride true := by
  refine List.eq_replicate_iff.mpr ⟨phaseSweep_length s, fun b hb => ?_⟩
  obtain ⟨i, hi, rfl⟩ := List.mem_map.mp hb
  exact h.patternMatch (List.mem_range.mp hi)

/-- What the four turns need of a frame in the window, at threshold `t`: the window carries its bits, all of them have
been received, and the parser and the FIFO have room for its payload. -/
structure FrameInWindow (payload : List Byte) (t : Int) (s : State) : Prop where
  desc : s.desc = buildDescriptor s.cfg0 s.cfg1 s.cfg2
  sizes : SessionSizes s
  window : s.WindowHeld
  received : s.pos + (bitsMsb (frameBytes s.cfg0 s.cfg1 payload)).length * s.desc.stride ≤ s.rcv
  lookAhead : s.lookAheadHeld = true
  bits : CarriesBits s.smp s.pos s.desc.stride t (bitsMsb (frameBytes s.cfg0 s.cfg1 payload))
  declared : payload.length ≤ s.desc.pktlen
  room : 1 + payload.length ≤ s.room

/-- The ideal samples of a frame put it in the window, at the threshold SCAN computes (R75, R103). -/
theorem State.Inv.frameInWindow {s : State} (h : s.Inv) (hopen : SessionOpen s) {high low : Sample}
    {payload : List Byte} (hlt : low < high)
    (hframe : holdsFrom s (idealSamples high low s.desc.stride (bitsMsb (frameBytes s.cfg0 s.cfg1 payload))))
    (hahead : s.lookAheadHeld = true) (hlen : payload.length ≤ s.desc.pktlen)
    (hroom : 1 + payload.length ≤ s.room) :
    FrameInWindow payload s.withThreshold.th s where
  desc := hopen.desc
  sizes := hopen.sizes
  window := h.windowHeld
  received := h.frame_received hopen hframe
  lookAhead := hahead
  bits :=
    have ⟨hlow, hhigh⟩ := hopen.threshold_bounds hlt hframe
    carriesBits_of_holdsFrom hframe hlow hhigh
  declared := hlen
  room := hroom

/-- The pattern comes first (R71). -/
theorem FrameInWindow.patternBits {s : State} {payload : List Byte} {t : Int} (h : FrameInWindow payload t s) :
    CarriesBits s.smp s.pos s.desc.stride t s.desc.pattern :=
  (bitsMsb_frameBytes h.desc payload ▸ h.bits).left

/-- The pattern window has been received (R107). -/
theorem FrameInWindow.patternReceived {s : State} {payload : List Byte} {t : Int} (h : FrameInWindow payload t s) :
    s.pos + s.desc.n * s.desc.stride ≤ s.rcv :=
  le_trans (Nat.add_le_add_left (Nat.mul_le_mul_right _ (pattern_le_frame h.desc h.sizes payload)) _) h.received

/-! ### The four turns -/

/-- After SCAN has found the pattern (R107). -/
def State.afterScan (s : State) : State :=
  { s.takeTurn.withThreshold with thHold := s.withThreshold.th, st := .phase }

/-- After PHASE has found the pattern at every offset (R109). -/
def State.afterPhase (s : State) : State :=
  { s.takeTurn with mid := (s.desc.stride - 1) / 2, runlen := s.desc.stride, st := .extract }

/-- After EXTRACT (R111). -/
def State.afterExtract (s : State) : State := { s.takeTurn with dBytes := candidateData s, st := .parse }

theorem FrameInWindow.afterScan {s : State} {payload : List Byte} (h : FrameInWindow payload s.withThreshold.th s) :
    FrameInWindow payload s.afterScan.thHold s.afterScan :=
  { h with sizes := { h.sizes with } }

theorem FrameInWindow.afterPhase {s : State} {payload : List Byte} (h : FrameInWindow payload s.thHold s) :
    FrameInWindow payload s.afterPhase.thHold s.afterPhase :=
  { h with sizes := { h.sizes with } }

theorem FrameInWindow.afterExtract {s : State} {payload : List Byte} (h : FrameInWindow payload s.thHold s) :
    FrameInWindow payload s.afterExtract.thHold s.afterExtract :=
  { h with sizes := { h.sizes with } }

/-- The block's turn in SEARCH finds the frame (R107). -/
theorem FrameInWindow.step_scan {s : State} {payload : List Byte} (h : FrameInWindow payload s.withThreshold.th s)
    (hturn : s.turns.head? = some .block) (hst : s.st = .search) : step s = .next s.afterScan := by
  have hheld : s.patternHeld = true := State.patternHeld_iff.mpr h.patternReceived
  have henabled : s.scanEnabled = true := State.scanEnabled_iff.mpr ⟨hst, hheld⟩
  have hinstr : s.blockInstr = some .scan := by rw [State.blockInstr, if_pos henabled]
  have hsize : s.desc.thsize ≠ 0 := by have := h.sizes.thsize; omega
  have hreads := h.window.scanReads h.sizes.stride h.sizes.windowInPattern h.patternReceived
  have hit := h.patternBits.patternMatch (i := 0) h.sizes.stride
  exact (step_of_block_turn hturn hinstr).trans (execScan_of_match (s := s.takeTurn) henabled hsize hreads hit)

/-- The block's turn in PHASE sweeps every offset and takes the middle (R109, R110). -/
theorem FrameInWindow.step_phase {s : State} {payload : List Byte} (h : FrameInWindow payload s.thHold s)
    (hturn : s.turns.head? = some .block) (hst : s.st = .phase) : step s = .next s.afterPhase := by
  have henabled : s.phaseEnabled = true := by simp [State.phaseEnabled, hst, h.lookAhead]
  have hinstr : s.blockInstr = some .phase := by
    simp [State.blockInstr, State.scanEnabled, State.finishEnabled, hst, henabled]
  have hrun : chosenRun (phaseSweep s) = some (0, s.desc.stride - 1) := by
    rw [phaseSweep_of_carriesBits h.patternBits]
    exact chosenRun_replicate_true h.sizes.stride
  have hlength : s.desc.stride - 1 - 0 + 1 = s.desc.stride := Nat.sub_add_cancel h.sizes.stride
  have hreads := h.window.phaseReads h.patternReceived
  have hexec := execPhase_of_run (s := s.takeTurn) henabled hreads hrun
  rw [Nat.zero_add, hlength] at hexec
  exact (step_of_block_turn hturn hinstr).trans hexec

/-- The block's turn in EXTRACT (R111). -/
theorem FrameInWindow.step_extract {s : State} {payload : List Byte} (h : FrameInWindow payload s.thHold s)
    (hturn : s.turns.head? = some .block) (hst : s.st = .extract) : step s = .next s.afterExtract := by
  have henabled : s.extractEnabled = true := by simp [State.extractEnabled, hst]
  have hinstr : s.blockInstr = some .extract := by
    simp [State.blockInstr, State.scanEnabled, State.finishEnabled, State.phaseEnabled, hst, henabled]
  have hreads := h.window.candidateIndices
  exact (step_of_block_turn hturn hinstr).trans (execExtract_of_held (s := s.takeTurn) henabled hreads)

/-- What EXTRACT leaves parses to the frame's payload (R100, R111). -/
theorem FrameInWindow.parsed_afterExtract {s : State} {payload : List Byte} (h : FrameInWindow payload s.thHold s)
    (hmid : s.mid < s.desc.stride) : s.afterExtract.parsed = .packet { address := none, payload := payload } := by
  have hpktlen := pktlen_le h.desc
  have hfits := frame_fits h.desc h.sizes (h.declared.trans hpktlen)
  obtain ⟨extra, hdata⟩ := candidateData_of_carriesBits h.desc hmid h.received hfits h.bits
  show parseFrame s.desc.pktlen s.desc.crcEn (candidateData s) = _
  rw [hdata]
  exact frameParsesToItsPayload _ _ payload extra h.declared hpktlen

/-- The block's turn in PARSE emits the packet (R113). -/
theorem FrameInWindow.step_parse {s : State} {payload : List Byte} (h : FrameInWindow payload s.thHold s)
    (hparsed : s.parsed = .packet { address := none, payload := payload })
    (hturn : s.turns.head? = some .block) (hst : s.st = .parse) :
    step s = .next (s.takeTurn.emitPacket { address := none, payload := payload }) := by
  have henabled : s.parseEnabled = true := by simpa [State.parseEnabled, hst, hparsed] using h.room
  have hinstr : s.blockInstr = some .parse := by
    simp [State.blockInstr, State.scanEnabled, State.finishEnabled, State.phaseEnabled, State.extractEnabled, hst,
      henabled]
  exact (step_of_block_turn hturn hinstr).trans (execParse_of_packet (s := s.takeTurn) henabled hparsed)

/-- Settles O56: the four turns are SCAN, PHASE, EXTRACT and PARSE, and none changes what the window carries. -/
theorem idealFrameDecodesToItsPacket : Obligations.IdealFrameDecodesToItsPacket := by
  intro s payload high low ts hinv hst hlt hlen hframe hahead hroom hturns
  have hopen : SessionOpen s := hinv.session (by rw [hst]; decide)
  have hsearch : FrameInWindow payload s.withThreshold.th s := hinv.frameInWindow hopen hlt hframe hahead hlen hroom
  have hphase := hsearch.afterScan
  have hextract := hphase.afterPhase
  have hparse := hextract.afterExtract
  have hmid : s.afterScan.afterPhase.mid < s.desc.stride := by
    have := hsearch.sizes.stride
    show (s.desc.stride - 1) / 2 < s.desc.stride
    omega
  have hscanned : step s = .next s.afterScan := hsearch.step_scan (by rw [hturns]; rfl) hst
  have hswept : step s.afterScan = .next s.afterScan.afterPhase :=
    hphase.step_phase (by show s.turns.tail.head? = _; rw [hturns]; rfl) rfl
  have hextracted : step s.afterScan.afterPhase = .next s.afterScan.afterPhase.afterExtract :=
    hextract.step_extract (by show s.turns.tail.tail.head? = _; rw [hturns]; rfl) rfl
  have hparsed := hparse.step_parse (hextract.parsed_afterExtract hmid)
    (by show s.turns.tail.tail.tail.head? = _; rw [hturns]; rfl) rfl
  have hrun : Host.Core.run Sys2Proof.core 4 s =
      .next (s.afterScan.afterPhase.afterExtract.takeTurn.emitPacket { address := none, payload := payload }) := by
    rw [core_run_succ 3 hscanned, core_run_succ 2 hswept, core_run_succ 1 hextracted, core_run_succ 0 hparsed,
      core_run_zero]
  refine ⟨_, hrun, rfl, ?_⟩
  simp [State.afterExtract, State.afterPhase, State.afterScan, State.takeTurn]

end Sys2Proof.Machine
end

section
/-!
PROOFS. The whitening sequence (R76 to R78, R83): what de-whitening XORs each byte with, and the period of the LFSR. The
seed's period divides 511 = 7 * 73 and neither 7 nor 73, so it is 511; its 511 states are distinct and not 0, so they
are all the nonzero ones.
-/
namespace Sys2Proof.Machine

/-! ### De-whitening (R77, R78, R83) -/

/-- The byte a state emits is its low byte (R77). -/
theorem whiteByte_eq_extractLsb' (v : BitVec 9) : whiteByte v = v.extractLsb' 0 8 :=
  BitVec.setWidth_eq_extractLsb' (by decide)

/-- From `v_n` on, byte `k` is XORed with `W[n + k]` (R78). -/
theorem getElem?_whitenFrom (n : Nat) (bs : List Byte) (k : Nat) :
    (whitenFrom (lfsrState n) bs)[k]? = bs[k]?.map (fun b => b ^^^ whitening (n + k)) := by
  induction bs generalizing n k with
  | nil => rfl
  | cons b bs ih =>
    cases k with
    | zero => rfl
    | succ k =>
      rw [whitenFrom, List.getElem?_cons_succ, List.getElem?_cons_succ, ← lfsrState, ih, Nat.succ_add_eq_add_succ]

theorem getElem?_dewhiten (bs : List Byte) (k : Nat) :
    (dewhiten bs)[k]? = bs[k]?.map (fun b => b ^^^ whitening k) := by
  have h := getElem?_whitenFrom 0 bs k
  rwa [Nat.zero_add] at h

/-- Settles O16: the states of the sequence are unique, and de-whitening is read off byte by byte. -/
theorem dewhitenXorsTheSequence : Obligations.DewhitenXorsTheSequence := by
  refine ⟨?bytes, ?first, ?states, fun x => ⟨dewhiten_length x, getElem?_dewhiten x⟩⟩
  case bytes =>
    intro v h0 hs k
    rw [lfsrState_unique h0 hs, whitening, whiteByte_eq_extractLsb']
  case first => decide
  case states => decide

/-- XORing twice with the sequence from the same state gives the bytes back (R83). -/
theorem whitenFrom_whitenFrom (v : BitVec 9) (bs : List Byte) : whitenFrom v (whitenFrom v bs) = bs := by
  induction bs generalizing v with
  | nil => rfl
  | cons b bs ih => rw [whitenFrom, whitenFrom, ih, BitVec.xor_assoc, BitVec.xor_self, BitVec.xor_zero]

/-- Settles O17: both sequences start from the seed. -/
theorem dewhitenInvolution : Obligations.DewhitenInvolution := whitenFrom_whitenFrom lfsrSeed

/-! ### The LFSR's period (R76) -/

/-- The rule's formula on integers: 14 bits hold every intermediate shift, and the mask keeps 9 (R76). -/
theorem toNat_lfsrNext (v : BitVec 9) : (lfsrNext v).toNat =
    ((v.toNat &&& 0x1E0) ^^^ ((v.toNat &&& 0x1E0) >>> 4) ^^^ ((v.toNat &&& 0x1E0) >>> 8) ^^^ (v.toNat <<< 1)
      ^^^ (v.toNat <<< 5)) &&& 0x1FF := by
  have hwide : v.toNat % 2 ^ 14 = v.toNat := Nat.mod_eq_of_lt (by omega)
  have hone : v.toNat <<< 1 % 2 ^ 14 = v.toNat <<< 1 := Nat.mod_eq_of_lt (by rw [Nat.shiftLeft_eq]; omega)
  have hfive : v.toNat <<< 5 % 2 ^ 14 = v.toNat <<< 5 := Nat.mod_eq_of_lt (by rw [Nat.shiftLeft_eq]; omega)
  rw [show 0x1FF = 2 ^ 9 - 1 from rfl, Nat.and_two_pow_sub_one_eq_mod]
  simp only [lfsrNext, BitVec.toNat_setWidth, BitVec.toNat_xor, BitVec.toNat_and, BitVec.toNat_ushiftRight,
    BitVec.toNat_shiftLeft, hwide, hone, hfive]
  rfl

/-- `v_k` is the LFSR's `k`-th iterate of the seed (R77). -/
theorem lfsrState_eq_iterate (k : Nat) : lfsrState k = lfsrNext^[k] lfsrSeed := by
  induction k with
  | zero => rfl
  | succ k ih => rw [lfsrState, ih, Function.iterate_succ_apply']

theorem isPeriodicPt_lfsrNext_iff (k : Nat) : Function.IsPeriodicPt lfsrNext k lfsrSeed ↔ lfsrState k = lfsrSeed := by
  rw [lfsrState_eq_iterate]; rfl

theorem lfsrState_511 : lfsrState 511 = lfsrSeed := by decide +kernel

/-- The seed's period is 511: it divides 7 * 73, but neither 7 nor 73 (R76). -/
theorem minimalPeriod_lfsrNext : Function.minimalPeriod lfsrNext lfsrSeed = 511 := by
  have hdvd : ∀ k, Function.minimalPeriod lfsrNext lfsrSeed ∣ k ↔ lfsrState k = lfsrSeed := fun k => by
    rw [← Function.isPeriodicPt_iff_minimalPeriod_dvd, isPeriodicPt_lfsrNext_iff]
  have h511 := (hdvd 511).mpr lfsrState_511
  have h7 : ¬ Function.minimalPeriod lfsrNext lfsrSeed ∣ 7 := by rw [hdvd]; decide
  have h73 : ¬ Function.minimalPeriod lfsrNext lfsrSeed ∣ 73 := by rw [hdvd]; decide +kernel
  generalize Function.minimalPeriod lfsrNext lfsrSeed = p at h511 h7 h73
  have hdiv : p ∈ Nat.divisors 511 := Nat.mem_divisors.mpr ⟨h511, by decide⟩
  rw [show Nat.divisors 511 = {1, 7, 73, 511} by decide +kernel] at hdiv
  simp only [Finset.mem_insert, Finset.mem_singleton] at hdiv
  rcases hdiv with rfl | rfl | rfl | rfl
  · exact absurd (one_dvd 7) h7
  · exact absurd dvd_rfl h7
  · exact absurd dvd_rfl h73
  · rfl

/-- Within one period no state comes twice (R76). -/
theorem lfsrState_injOn : Set.InjOn lfsrState (Set.Iio 511) := by
  have h := Function.iterate_injOn_Iio_minimalPeriod (f := lfsrNext) (x := lfsrSeed)
  rw [minimalPeriod_lfsrNext] at h
  simpa only [← lfsrState_eq_iterate] using h

/-- From 0 the LFSR never leaves 0, so a state that comes back to the seed is not 0 (R76). -/
theorem lfsrState_ne_zero {k : Nat} (hk : k < 511) : lfsrState k ≠ 0 := by
  intro h0
  have hback : lfsrState 511 = lfsrNext^[511 - k] (lfsrState k) := by
    rw [lfsrState_eq_iterate, lfsrState_eq_iterate, ← Function.iterate_add_apply, Nat.sub_add_cancel hk.le]
  rw [h0, Function.iterate_fixed (by decide), lfsrState_511] at hback
  exact absurd hback (by decide)

/-- The 511 states of a period are all the nonzero ones (R76). -/
theorem exists_lfsrState_eq {v : BitVec 9} (hv : v ≠ 0) : ∃ k < 511, lfsrState k = v := by
  have himage : (Finset.range 511).image lfsrState = Finset.univ.erase 0 := by
    refine Finset.eq_of_subset_of_card_le ?_ ?_
    · intro w hw
      obtain ⟨k, hk, rfl⟩ := Finset.mem_image.mp hw
      exact Finset.mem_erase.mpr ⟨lfsrState_ne_zero (Finset.mem_range.mp hk), Finset.mem_univ _⟩
    · have hinj : Set.InjOn lfsrState (Finset.range 511) := by simpa only [Finset.coe_range] using lfsrState_injOn
      rw [Finset.card_image_of_injOn hinj, Finset.card_erase_of_mem (Finset.mem_univ 0), Finset.card_univ,
        ← FinEnum.card_eq_fintypeCard, FinEnum.card_bitVec, Finset.card_range]
      decide
  have hmem : v ∈ (Finset.range 511).image lfsrState := by rw [himage]; simpa using hv
  simpa using hmem

/-- Settles O15: the period is the seed's minimal one, and counting its states gives the rest. -/
theorem lfsrFormulaAndPeriod : Obligations.LfsrFormulaAndPeriod := by
  refine ⟨toNat_lfsrNext, by decide, by decide, by decide, by decide, by decide, rfl, lfsrState_511, ?returns,
    ?visits⟩
  case returns =>
    intro k hk hpos hseed
    exact hpos.ne' (lfsrState_injOn hk (show 0 < 511 by decide) hseed)
  case visits =>
    intro v hv
    obtain ⟨k, hk, rfl⟩ := exists_lfsrState_eq hv
    exact ⟨k, hk, rfl, fun j hj h => lfsrState_injOn hj hk h⟩

end Sys2Proof.Machine
end

section
/-!
PROOFS. The CRC (R79 to R81, R84) and what it detects (60_exceptions.md). The bit step is linear, and with a 0 bit it
sends no register but 0 to 0; so two registers that differ stay different under the same bytes, and two bytes that
differ bring one register to two.
-/
namespace Sys2Proof.Machine

/-! ### The bit step (R79) -/

theorem crcBit_of_top_eq {c : BitVec 16} {m : Bool} (h : c.getLsbD 15 = m) : crcBit c m = c <<< 1 := by
  rw [← h, crcBit_top]

theorem crcBit_of_top_ne {c : BitVec 16} {m : Bool} (h : c.getLsbD 15 ≠ m) : crcBit c m = (c <<< 1) ^^^ 0x8005 :=
  if_pos (by simpa using h)

/-- The rule's formula on integers (R79). -/
theorem toNat_crcBit (c : BitVec 16) (m : Bool) : (crcBit c m).toNat =
    if c.getLsbD 15 ≠ m then ((c.toNat <<< 1) ^^^ 0x8005) &&& 0xFFFF else (c.toNat <<< 1) &&& 0xFFFF := by
  have hmask : ∀ n, n &&& 0xFFFF = n % 2 ^ 16 := fun n => Nat.and_two_pow_sub_one_eq_mod n 16
  split
  next h => rw [crcBit_of_top_ne h, BitVec.toNat_xor, BitVec.toNat_shiftLeft, hmask, Nat.xor_mod_two_pow]; rfl
  next h => rw [crcBit_of_top_eq (not_not.mp h), BitVec.toNat_shiftLeft, hmask]

/-- The bit step is a shift, and the polynomial where the two bits differ (R79). -/
theorem crcBit_eq_xor (c : BitVec 16) (m : Bool) :
    crcBit c m = (c <<< 1) ^^^ (if c.getLsbD 15 ^^ m then 0x8005 else 0) := by
  unfold crcBit
  cases c.getLsbD 15 <;> cases m <;> simp

/-- The bit step is linear in the register and the bit together (R79). -/
theorem crcBit_xor (c d : BitVec 16) (m n : Bool) : crcBit (c ^^^ d) (m ^^ n) = crcBit c m ^^^ crcBit d n := by
  have hpoly : ∀ a b : Bool, (if a ^^ b then (0x8005 : BitVec 16) else 0) =
      (if a then 0x8005 else 0) ^^^ (if b then 0x8005 else 0) := by decide
  have htop : (c.getLsbD 15 ^^ d.getLsbD 15 ^^ (m ^^ n)) = (c.getLsbD 15 ^^ m ^^ (d.getLsbD 15 ^^ n)) := by
    rw [Bool.xor_assoc, Bool.xor_assoc, Bool.xor_left_comm (d.getLsbD 15)]
  rw [crcBit_eq_xor, crcBit_eq_xor c, crcBit_eq_xor d, BitVec.getLsbD_xor, BitVec.shiftLeft_xor_distrib, htop, hpoly]
  ac_rfl

/-- With a 0 bit only the register 0 becomes 0: the polynomial's lowest bit is 1, and a shift's is 0 (R79). -/
theorem eq_zero_of_crcBit_eq_zero {c : BitVec 16} (h : crcBit c false = 0) : c = 0 := by
  cases htop : c.getLsbD 15 with
  | true =>
    rw [crcBit_of_top_ne (by simp [htop])] at h
    have hlow := congrArg (BitVec.getLsbD · 0) h
    simp at hlow
  | false =>
    rw [crcBit_of_top_eq htop] at h
    ext i hi
    obtain rfl | hlt : i = 15 ∨ i < 15 := by omega
    · simpa using htop
    · have hbit := congrArg (BitVec.getLsbD · (i + 1)) h
      simpa [show i + 1 < 16 by omega] using hbit

/-- The bit step keeps two registers apart (R79). -/
theorem crcBit_injective (m : Bool) : Function.Injective (crcBit · m) := by
  intro c d h
  have hzero : crcBit (c ^^^ d) false = 0 := by
    have hlinear := crcBit_xor c d m m
    rw [Bool.xor_self, show crcBit c m = crcBit d m from h, BitVec.xor_self] at hlinear
    exact hlinear
  exact BitVec.xor_eq_zero_iff.mp (eq_zero_of_crcBit_eq_zero hzero)

/-! ### The byte step and the sequence (R80, R81) -/

/-- Where each step keeps two accumulators apart, so does the fold. -/
theorem foldl_injective {α β : Type} {f : α → β → α} (hf : ∀ b, Function.Injective (f · b)) (bs : List β) :
    Function.Injective (bs.foldl f) := by
  induction bs with
  | nil => exact fun _ _ h => h
  | cons b bs ih => exact fun _ _ h => hf b (ih h)

/-- The byte step keeps two registers apart (R80). -/
theorem crcByte_injective (b : Byte) : Function.Injective (crcByte · b) :=
  foldl_injective crcBit_injective (byteBits b)

/-- The byte step is linear in the register and the byte together (R80). -/
theorem crcByte_xor (c d : BitVec 16) (x y : Byte) : crcByte (c ^^^ d) (x ^^^ y) = crcByte c x ^^^ crcByte d y := by
  simp only [crcByte, byteBits, List.foldl_cons, List.foldl_nil, BitVec.getLsbD_xor, crcBit_xor]

/-- A byte fed to the register that holds it in its high bits shifts out and leaves 0 (R80). -/
theorem crcByte_shifted (x : Byte) : crcByte (x.setWidth 16 <<< 8) x = 0 := by
  have hbits : byteBits x = topBits (x.setWidth 16 <<< 8) 8 := by
    simp [byteBits, topBits, List.range_succ]
  rw [crcByte, hbits, foldl_crcBit_topBits _ (by decide), ← BitVec.shiftLeft_add]
  exact BitVec.shiftLeft_eq_zero (by decide)

/-- From the register 0 only the byte 0 leads back to 0 (R80). -/
theorem eq_zero_of_crcByte_zero {x : Byte} (h : crcByte 0 x = 0) : x = 0 := by
  have hreg : x.setWidth 16 <<< 8 = 0 := crcByte_injective x ((crcByte_shifted x).trans h.symm)
  refine BitVec.eq_of_getLsbD_eq fun i hi => ?_
  have hbit := congrArg (BitVec.getLsbD · (i + 8)) hreg
  simpa [show i + 8 < 16 by omega, show i < 16 by omega] using hbit

/-- Two bytes that differ bring one register to two (R80). -/
theorem crcByte_right_injective (c : BitVec 16) : Function.Injective (crcByte c) := by
  intro x y h
  have hzero : crcByte 0 (x ^^^ y) = 0 := by
    have hlinear := crcByte_xor c c x y
    rw [BitVec.xor_self, h, BitVec.xor_self] at hlinear
    exact hlinear
  exact BitVec.xor_eq_zero_iff.mp (eq_zero_of_crcByte_zero hzero)

/-- The two bytes of a register as the rule writes them: `c >> 8` and `c & 0xFF` (R84). -/
theorem crcBytes_eq_shift_mask (c : BitVec 16) : crcBytes c = [(c >>> 8).setWidth 8, (c &&& 0xFF).setWidth 8] := by
  have hhigh : c.extractLsb' 8 8 = (c >>> 8).setWidth 8 := by ext i hi; simp
  have hlow : c.extractLsb' 0 8 = (c &&& 0xFF).setWidth 8 := by
    rw [BitVec.setWidth_and, show (0xFF : BitVec 16).setWidth 8 = BitVec.allOnes 8 from rfl, BitVec.and_allOnes,
      BitVec.setWidth_eq_extractLsb' (by decide)]
  rw [crcBytes, hhigh, hlow]

/-- Settles O18: the formulas of the steps, and the residue of a message with its own CRC. -/
theorem crcResidueIsZero : Obligations.CrcResidueIsZero := by
  refine ⟨toNat_crcBit, by decide, by decide, by decide, fun _ _ => rfl, rfl, ?append, ?residue, ?message,
    ?received⟩
  case append => exact fun bs b => crc16_append bs [b]
  case residue => exact fun m => crcBytes_eq_shift_mask (crc16 m) ▸ crc16_append_crcBytes m
  case message => decide +kernel
  case received => decide +kernel

/-- Settles O19: the changed byte brings the register to another value, and the same bytes after it keep it another. -/
theorem crcDetectsOneChangedByte : Obligations.CrcDetectsOneChangedByte := by
  have hdetect : ∀ (pre post : List Byte) (b b' : Byte), b ≠ b' →
      crc16 (pre ++ b :: post) ≠ crc16 (pre ++ b' :: post) := by
    intro pre post b b' hne h
    rw [crc16_append, crc16_append] at h
    exact hne (crcByte_right_injective (crc16 pre) (foldl_injective crcByte_injective post h))
  refine ⟨hdetect, ?flipped⟩
  case flipped =>
    intro pre post b k hk hvalid hflipped
    have hbit : (1#8 <<< k).getLsbD k = true := by simp [hk]
    refine hdetect pre post b (b ^^^ (1#8 <<< k)) ?_ (hvalid.trans hflipped.symm)
    intro hsame
    have := congrArg (BitVec.getLsbD · k) hsame
    simp [hbit] at this

end Sys2Proof.Machine
end

section
/-!
PROOFS. The codec commands (R85 to R90): each is the update its rule gives.
-/
namespace Sys2Proof.Machine

/-- CRC_TEST shows `bool(crc = 0)` as a byte (R87). -/
theorem execCrcTest_eq (s : State) :
    execCrcTest s = .next { s with codecOut := BitVec.ofNat 8 (decide (s.crcReg = 0)).toNat } := by
  unfold execCrcTest
  split
  next h => rw [decide_eq_true h]; rfl
  next h => rw [decide_eq_false h]; rfl

/-- WHT_XOR XORs with the register's low byte, then steps it (R90). -/
theorem execWhtXor_eq (x : Byte) (s : State) :
    execWhtXor x s = .next { s with codecOut := x ^^^ s.whtReg.extractLsb' 0 8, whtReg := lfsrNext s.whtReg } := by
  rw [execWhtXor, whiteByte_eq_extractLsb']

/-- Settles O20: the four other commands are their updates as they stand. -/
theorem codecCommandsUpdateTestRegisters : Obligations.CodecCommandsUpdateTestRegisters := by
  intro s
  exact ⟨rfl, fun _ => rfl, execCrcTest_eq s, rfl, rfl, fun x => execWhtXor_eq x s⟩

end Sys2Proof.Machine
end

section
/-!
PROOFS. The codec test registers and the frame path (R91): `Result.withoutCodec` erases the test registers and the last
read response from an outcome, and erasing them before an instruction or a step makes no difference to what is left
after it.
-/
namespace Sys2Proof.Machine

/-! ### Outcomes without the codec test registers -/

/-- An outcome whose next state is taken without the codec test registers and the last read response. -/
def Result.withoutCodec : Result → Result
  | .next s => .next s.withoutCodec
  | .fault f => .fault f
  | .refused r => .refused r

/-- `sameButCodec` is equality of what is left. -/
theorem sameButCodec_iff (a b : Result) : sameButCodec a b ↔ Result.withoutCodec a = Result.withoutCodec b := by
  cases a <;> cases b <;> simp [Result.withoutCodec, sameButCodec]

/-- A function whose outcome does not depend on the test registers agrees on states that differ in them alone. -/
theorem sameButCodec_of_erasable {f : State → Result}
    (hf : ∀ s, Result.withoutCodec (f s.withoutCodec) = Result.withoutCodec (f s)) {s s' : State}
    (h : s.withoutCodec = s'.withoutCodec) : sameButCodec (f s) (f s') :=
  (sameButCodec_iff _ _).mpr <| calc
    Result.withoutCodec (f s) = Result.withoutCodec (f s.withoutCodec) := (hf s).symm
    _ = Result.withoutCodec (f s'.withoutCodec) := by rw [h]
    _ = Result.withoutCodec (f s') := hf s'

/-! ### What does not read the test registers -/

section
variable (s : State)

@[simp] theorem State.withoutCodec_params : s.withoutCodec.params = s.params := rfl
@[simp] theorem State.withoutCodec_st : s.withoutCodec.st = s.st := rfl
@[simp] theorem State.withoutCodec_cfg0 : s.withoutCodec.cfg0 = s.cfg0 := rfl
@[simp] theorem State.withoutCodec_cfg2 : s.withoutCodec.cfg2 = s.cfg2 := rfl
@[simp] theorem State.withoutCodec_smp : s.withoutCodec.smp = s.smp := rfl
@[simp] theorem State.withoutCodec_desc : s.withoutCodec.desc = s.desc := rfl
@[simp] theorem State.withoutCodec_out : s.withoutCodec.out = s.out := rfl
@[simp] theorem State.withoutCodec_inputs : s.withoutCodec.inputs = s.inputs := rfl
@[simp] theorem State.withoutCodec_sampleReady : s.withoutCodec.sampleReady = s.sampleReady := rfl
@[simp] theorem State.withoutCodec_eosReady : s.withoutCodec.eosReady = s.eosReady := rfl
@[simp] theorem State.withoutCodec_scanEnabled : s.withoutCodec.scanEnabled = s.scanEnabled := rfl
@[simp] theorem State.withoutCodec_finishEnabled : s.withoutCodec.finishEnabled = s.finishEnabled := rfl
@[simp] theorem State.withoutCodec_phaseEnabled : s.withoutCodec.phaseEnabled = s.phaseEnabled := rfl
@[simp] theorem State.withoutCodec_extractEnabled : s.withoutCodec.extractEnabled = s.extractEnabled := rfl
@[simp] theorem State.withoutCodec_parseEnabled : s.withoutCodec.parseEnabled = s.parseEnabled := rfl
@[simp] theorem State.withoutCodec_parsed : s.withoutCodec.parsed = s.parsed := rfl
@[simp] theorem scanReads_withoutCodec : scanReads s.withoutCodec = scanReads s := rfl
@[simp] theorem phaseReads_withoutCodec : phaseReads s.withoutCodec = phaseReads s := rfl
@[simp] theorem phaseSweep_withoutCodec : phaseSweep s.withoutCodec = phaseSweep s := rfl
@[simp] theorem candidateIndices_withoutCodec : candidateIndices s.withoutCodec = candidateIndices s := rfl
@[simp] theorem State.blockInstr_withoutCodec : s.withoutCodec.blockInstr = s.blockInstr := rfl
@[simp] theorem nextTurn_withoutCodec : nextTurn s.withoutCodec = nextTurn s := rfl

end

/-! ### The instructions one by one -/

/-- A transaction that stays pending does so with or without the test registers (R118). -/
theorem State.keepPending_withoutCodec (i : Instr) (s : State) :
    s.withoutCodec.keepPending i = (s.keepPending i).withoutCodec := by
  unfold State.keepPending
  split <;> rfl

/-- The configuration lock (R46) reads STATE only. -/
theorem State.writeConfig_withoutCodec {s s' t : State} (h : t.withoutCodec = s'.withoutCodec) :
    (s.withoutCodec.writeConfig t).withoutCodec = (s.writeConfig s').withoutCodec := by
  unfold State.writeConfig
  rw [State.withoutCodec_st]
  split
  · rfl
  · exact h

/-- SCAN's test (R107) reads the window and the descriptor. -/
theorem State.scanTest_withoutCodec (s : State) : s.withoutCodec.scanTest = s.scanTest.withoutCodec := by
  have htest : patternMatch s.withoutCodec.smp s.withoutCodec.desc.stride s.withoutCodec.withThreshold.th
      s.withoutCodec.pos s.withoutCodec.desc.pattern =
      patternMatch s.smp s.desc.stride s.withThreshold.th s.pos s.desc.pattern := rfl
  unfold State.scanTest
  rw [htest]
  split <;> rfl

theorem execStart_withoutCodec (s : State) :
    Result.withoutCodec (execStart s.withoutCodec) = Result.withoutCodec (execStart s) := by
  unfold execStart
  rw [State.withoutCodec_st, State.withoutCodec_params, State.withoutCodec_cfg0, State.withoutCodec_cfg2]
  split
  · rfl
  · split <;> rfl

theorem execSmp_withoutCodec (d : Word) (s : State) :
    Result.withoutCodec (execSmp d s.withoutCodec) = Result.withoutCodec (execSmp d s) := by
  unfold execSmp
  rw [State.withoutCodec_params, State.withoutCodec_sampleReady, State.keepPending_withoutCodec]
  split
  · rfl
  · split <;> rfl

theorem execEos_withoutCodec (s : State) :
    Result.withoutCodec (execEos s.withoutCodec) = Result.withoutCodec (execEos s) := by
  unfold execEos
  rw [State.withoutCodec_eosReady, State.keepPending_withoutCodec]
  split <;> rfl

theorem execSrcerr_withoutCodec (s : State) :
    Result.withoutCodec (execSrcerr s.withoutCodec) = Result.withoutCodec (execSrcerr s) := by
  unfold execSrcerr
  rw [State.withoutCodec_st]
  split <;> rfl

theorem execPop_withoutCodec (s : State) :
    Result.withoutCodec (execPop s.withoutCodec) = Result.withoutCodec (execPop s) := by
  unfold execPop
  rw [State.withoutCodec_out, State.keepPending_withoutCodec]
  split <;> rfl

theorem execScan_withoutCodec (s : State) :
    Result.withoutCodec (execScan s.withoutCodec) = Result.withoutCodec (execScan s) := by
  unfold execScan
  rw [State.withoutCodec_scanEnabled, State.withoutCodec_desc, State.withoutCodec_smp,
    scanReads_withoutCodec, State.scanTest_withoutCodec]
  split
  · split
    · rfl
    · split <;> rfl
  · rfl

theorem execFinish_withoutCodec (s : State) :
    Result.withoutCodec (execFinish s.withoutCodec) = Result.withoutCodec (execFinish s) := by
  unfold execFinish
  rw [State.withoutCodec_finishEnabled]
  split <;> rfl

theorem execPhase_withoutCodec (s : State) :
    Result.withoutCodec (execPhase s.withoutCodec) = Result.withoutCodec (execPhase s) := by
  unfold execPhase
  rw [State.withoutCodec_phaseEnabled, State.withoutCodec_smp, phaseReads_withoutCodec, phaseSweep_withoutCodec]
  split
  · split
    · rfl
    · split <;> rfl
  · rfl

theorem execExtract_withoutCodec (s : State) :
    Result.withoutCodec (execExtract s.withoutCodec) = Result.withoutCodec (execExtract s) := by
  unfold execExtract
  rw [State.withoutCodec_extractEnabled, State.withoutCodec_smp, candidateIndices_withoutCodec]
  split
  · split <;> rfl
  · rfl

theorem execParse_withoutCodec (s : State) :
    Result.withoutCodec (execParse s.withoutCodec) = Result.withoutCodec (execParse s) := by
  unfold execParse
  rw [State.withoutCodec_parseEnabled, State.withoutCodec_parsed]
  split
  · split <;> rfl
  · rfl

/-- Of the instructions but the register write, those that test no condition are updates of both states alike; the
others read no test register. -/
theorem exec_withoutCodec_of_ne_wr {i : Instr} (hi : ∀ a w, i ≠ .wr a w) (s : State) :
    Result.withoutCodec (exec i s.withoutCodec) = Result.withoutCodec (exec i s) := by
  cases i with
  | wr a w => exact absurd rfl (hi a w)
  | smp d => exact execSmp_withoutCodec d s
  | eos => exact execEos_withoutCodec s
  | srcerr => exact execSrcerr_withoutCodec s
  | pop => exact execPop_withoutCodec s
  | start => exact execStart_withoutCodec s
  | scan => exact execScan_withoutCodec s
  | finish => exact execFinish_withoutCodec s
  | phase => exact execPhase_withoutCodec s
  | extract => exact execExtract_withoutCodec s
  | parse => exact execParse_withoutCodec s
  | reset | rd | nop | abort | clrerr | clrcnt | reserved5 | reserved6 | reserved7 | crcInit | crcByte | whtInit
  | whtStep | whtXor | crcTest | reservedE | reservedF | reservedKind => rfl

/-- A register write is its command at CTRL, a locked write at CFG0 to CFG2, and one update at every other offset
(R119, R121). -/
theorem execWr_withoutCodec (a : BitVec 8) (w : Word) (s : State) :
    Result.withoutCodec (execWr a w s.withoutCodec) = Result.withoutCodec (execWr a w s) := by
  cases hreg : regAt a with
  | none => simp only [execWr, hreg]; rfl
  | some r =>
    cases r with
    | ctrl =>
      simp only [execWr, hreg, execCommand_eq_exec]
      exact exec_withoutCodec_of_ne_wr (decodeCommand_ne_wr w) s
    | cfg0 | cfg1 | cfg2 =>
      simp only [execWr, hreg, Result.withoutCodec]
      exact congrArg Host.Outcome.next (State.writeConfig_withoutCodec rfl)
    | _ => simp only [execWr, hreg]; rfl

/-- No instruction's effect on the frame path depends on the test registers (R91). -/
theorem exec_withoutCodec (i : Instr) (s : State) :
    Result.withoutCodec (exec i s.withoutCodec) = Result.withoutCodec (exec i s) := by
  by_cases hi : ∃ a w, i = .wr a w
  · obtain ⟨a, w, rfl⟩ := hi
    exact execWr_withoutCodec a w s
  · push Not at hi
    exact exec_withoutCodec_of_ne_wr hi s

/-! ### One step -/

/-- What a move fetches, its state taken without the codec test registers. -/
def Fetched.withoutCodec : Fetched → Fetched
  | .run i s => .run i s.withoutCodec
  | .wait s => .wait s.withoutCodec
  | .reject r => .reject r

/-- What a turn fetches does not depend on the test registers (R55). -/
theorem fetchTurn_withoutCodec (t : Turn) (s : State) :
    fetchTurn t s.withoutCodec = (fetchTurn t s).withoutCodec := by
  cases t with
  | block =>
    simp only [fetchTurn, State.blockInstr_withoutCodec]
    split <;> rfl
  | agent a =>
    simp only [fetchTurn, State.withoutCodec_inputs]
    split
    · rfl
    · split <;> rfl

theorem fetch_withoutCodec (s : State) : fetch s.withoutCodec = (fetch s).withoutCodec := by
  unfold fetch
  rw [nextTurn_withoutCodec]
  exact fetchTurn_withoutCodec (nextTurn s).1 { s with turns := (nextTurn s).2 }

/-- No step's effect on the frame path depends on the test registers (R91). -/
theorem step_withoutCodec (s : State) :
    Result.withoutCodec (step s.withoutCodec) = Result.withoutCodec (step s) := by
  unfold step
  rw [fetch_withoutCodec]
  cases fetch s with
  | run i s' => exact exec_withoutCodec i s'
  | wait s' => rfl
  | reject r => rfl

/-! ### The internal steps -/

/-- The internal steps leave the test registers alone (R32, R91). -/
theorem exec_codec_of_isInternal {i : Instr} {s t : State} (hi : i.isInternal = true) (h : exec i s = .next t) :
    t.crcReg = s.crcReg ∧ t.whtReg = s.whtReg ∧ t.codecOut = s.codecOut := by
  cases i with
  | scan =>
    rcases execScan_next h with ⟨_, rfl⟩ | ⟨_, _, _, rfl⟩
    · exact ⟨rfl, rfl, rfl⟩
    · rcases s.scanTest_cases with ⟨_, e⟩ | ⟨_, e⟩ <;> rw [e] <;> exact ⟨rfl, rfl, rfl⟩
  | finish => rcases execFinish_next h with ⟨_, rfl⟩ | ⟨_, rfl⟩ <;> exact ⟨rfl, rfl, rfl⟩
  | phase => rcases execPhase_next h with ⟨_, rfl⟩ | ⟨_, _, _, _, _, rfl⟩ <;> exact ⟨rfl, rfl, rfl⟩
  | extract => rcases execExtract_next h with ⟨_, rfl⟩ | ⟨_, _, rfl⟩ <;> exact ⟨rfl, rfl, rfl⟩
  | parse =>
    rcases execParse_next h with ⟨_, rfl⟩ | ⟨_, _, _, _, rfl⟩ | ⟨_, _, _, rfl⟩ <;> exact ⟨rfl, rfl, rfl⟩
  | _ => cases hi

/-- Settles O21: two states that differ in the test registers and the last read response alone are the same state once
these are erased, and erasing them first makes no difference to what an instruction or a step leaves. -/
theorem framePathAndCodecAreSeparate : Obligations.FramePathAndCodecAreSeparate :=
  ⟨fun i _ _ h => sameButCodec_of_erasable (exec_withoutCodec i) h,
    fun _ _ h => sameButCodec_of_erasable step_withoutCodec h,
    fun _ _ _ hi h => exec_codec_of_isInternal hi h⟩

end Sys2Proof.Machine
end

section
/-!
PROOFS. The descriptor and START (R92 to R98): the lookups of R66 and R67, the order of the configuration checks, the
bits of the pattern, the sizes of a frame, and what START latches.
-/
namespace Sys2Proof.Machine

/-! ### The lookups (R66, R67) -/

/-- The table of R66 has one value at NUM_PREAMBLE. -/
theorem eq_preambleBytes_of_lookup {cfg0 : Word} {npre : Nat}
    (h : ([2, 3, 4, 6, 8, 12, 16, 24] : List Nat)[numPreamble cfg0]? = some npre) :
    npre = preambleBytes (numPreamble cfg0) :=
  Option.some.inj (h.symm.trans (preambleBytes_lookup (numPreamble_lt cfg0)))

/-- The table of R67 has one value at SYNC_MODE mod 4. -/
theorem eq_syncRepeats_of_lookup {cfg0 : Word} {rep : Nat}
    (h : ([0, 1, 1, 2] : List Nat)[syncMode cfg0 % 4]? = some rep) : rep = syncRepeats (syncMode cfg0) :=
  Option.some.inj (h.symm.trans (syncRepeats_lookup (syncMode cfg0)))

/-- `Nsync = 2 * rep` as a table (R67, R94). -/
theorem nsync_lookup (mode : Nat) : ([0, 2, 2, 4] : List Nat)[mode % 4]? = some (2 * syncRepeats mode) := by
  have hdouble : ([0, 2, 2, 4] : List Nat) = ([0, 1, 1, 2] : List Nat).map (2 * ·) := rfl
  rw [hdouble, List.getElem?_map, syncRepeats_lookup, Option.map_some]

/-! ### The first failing check (R92) -/

/-- Searching a list of checks one at a time, with `k` the number of the first one. -/
theorem elim_findIdx?_cons (k : Nat) (c : Bool) (cs : List Bool) :
    ((c :: cs).findIdx? id).elim 0 (· + k) = if c then k else (cs.findIdx? id).elim 0 (· + (k + 1)) := by
  cases c with
  | true => simp [List.findIdx?_cons]
  | false =>
    cases h : cs.findIdx? id <;> simp [List.findIdx?_cons, h, Nat.add_assoc, Nat.add_comm 1]

/-- The checks of R92 on the decoded fields, in its order; `true` where one fails. -/
def configChecks (p : Params) (cfg0 cfg2 : Word) : List Bool :=
  [decide (adrChk cfg0 ≠ 0), decide (lengthConfig cfg0 ≠ 1), cc2400En cfg0, manchesterEn cfg0, fecEn cfg0,
    decide (syncRepeats (syncMode cfg0) = 0), decide (strideField cfg2 = 0), decide (p.maxStride < strideField cfg2),
    decide (p.bufCap < maxFrameBits cfg0 * strideField cfg2)]

/-- The configuration error is the number of the first check that fails, 0 where none does. -/
theorem configError_eq_findIdx? (p : Params) (cfg0 cfg2 : Word) :
    configError p cfg0 cfg2 = BitVec.ofNat 4 (((configChecks p cfg0 cfg2).findIdx? id).elim 0 (· + 1)) := by
  simp only [configChecks, elim_findIdx?_cons, List.findIdx?_nil, Option.elim_none, apply_ite (BitVec.ofNat 4),
    decide_eq_true_eq]
  rfl

/-- A field differs from a number exactly if its bits do. -/
theorem decide_toNat_ne {w : Nat} (x : BitVec w) {k : Nat} (hk : k < 2 ^ w) :
    decide (x.toNat ≠ k) = decide (x ≠ BitVec.ofNat w k) := by
  rw [decide_eq_decide, ne_eq, ne_eq, ← BitVec.toNat_inj, BitVec.toNat_ofNat, Nat.mod_eq_of_lt hk]

/-- Settles O22: the statement's checks are the model's, with the fields as bits and the sizes by the lookups. -/
theorem configErrorIsFirstFailingCheck : Obligations.ConfigErrorIsFirstFailingCheck := by
  intro p cfg0 cfg2 npre rep stride hnpre hrep hstride
  refine ⟨?_, configError_le_nine p cfg0 cfg2⟩
  obtain rfl := eq_preambleBytes_of_lookup hnpre
  obtain rfl := eq_syncRepeats_of_lookup hrep
  rw [configError_eq_findIdx?, configChecks, adrChk, lengthConfig, decide_toNat_ne _ (by decide),
    decide_toNat_ne _ (by decide), hstride]
  rfl

/-! ### The bits of the pattern (R95) -/

/-- Bit `j` of the expansion is bit `7 - j % 8` of byte `j / 8` (R15). -/
theorem getElem?_bitsMsb (bs : List Byte) (j : Nat) :
    (bitsMsb bs)[j]? = bs[j / 8]?.map (·.getLsbD (7 - j % 8)) := by
  induction bs generalizing j with
  | nil => rfl
  | cons b bs ih =>
    rw [bitsMsb_cons]
    rcases Nat.lt_or_ge j 8 with hj | hj
    · have hbyte : ∀ j < 8, (byteBits b)[j]? = some (b.getLsbD (7 - j % 8)) := by
        intro j hj
        interval_cases j <;> rfl
      rw [List.getElem?_append_left hj, hbyte j hj, Nat.div_eq_of_lt hj]
      rfl
    · obtain ⟨i, rfl⟩ := Nat.exists_eq_add_of_le' hj
      rw [List.getElem?_append_right hj, byteBits_length, Nat.add_sub_cancel, ih, Nat.add_div_right i (by decide),
        Nat.add_mod_right, List.getElem?_cons_succ]

/-- A repeated list is periodic (R15). -/
theorem getElem?_repeatList (x : List Byte) {k j : Nat} (hj : j < k * x.length) :
    (repeatList x k)[j]? = x[j % x.length]? := by
  induction k generalizing j with
  | zero => rw [Nat.zero_mul] at hj; exact absurd hj (Nat.not_lt_zero j)
  | succ k ih =>
    rw [repeatList]
    rcases Nat.lt_or_ge j x.length with hfirst | hlater
    · rw [List.getElem?_append_left hfirst, Nat.mod_eq_of_lt hfirst]
    · rw [Nat.succ_mul] at hj
      rw [List.getElem?_append_right hlater, ih (by omega), ← Nat.mod_eq_sub_mod hlater]

@[simp] theorem preamble_length (npre : Nat) : (preamble npre).length = npre := by
  rw [preamble, repeatList_length, List.length_singleton, Nat.mul_one]

/-- The bits of 0xAA, bit 7 first, alternate 1 and 0 (R93). -/
theorem getElem?_bitsMsb_preamble {npre j : Nat} (hj : j < 8 * npre) :
    (bitsMsb (preamble npre))[j]? = some (decide (j % 2 = 0)) := by
  have hbyte : (preamble npre)[j / 8]? = some 0xAA := by
    rw [preamble, getElem?_repeatList [0xAA] (by rw [List.length_singleton]; omega), List.length_singleton, Nat.mod_one]
    rfl
  have hbits : ∀ r < 8, (0xAA : Byte).getLsbD (7 - r) = decide (r % 2 = 0) := by decide
  rw [getElem?_bitsMsb, hbyte, Option.map_some, hbits _ (Nat.mod_lt j (by decide)), Nat.mod_mod_of_dvd j (by decide)]

/-- The bytes of the sync word are SYNC1 and SYNC0 in turn (R94), each with bit 7 first. -/
theorem getElem?_bitsMsb_syncWord (cfg1 : Word) {rep j : Nat} (hj : j < 8 * (2 * rep)) :
    (bitsMsb (syncWord cfg1 rep))[j]? =
      some ((if j / 8 % 2 = 0 then sync1 cfg1 else sync0 cfg1).getLsbD (7 - j % 8)) := by
  have hbyte : (syncWord cfg1 rep)[j / 8]? = some (if j / 8 % 2 = 0 then sync1 cfg1 else sync0 cfg1) := by
    rw [syncWord, getElem?_repeatList [sync1 cfg1, sync0 cfg1] (show j / 8 < rep * 2 by omega)]
    show [sync1 cfg1, sync0 cfg1][j / 8 % 2]? = _
    rcases Nat.mod_two_eq_zero_or_one (j / 8) with h | h <;> rw [h] <;> rfl
  rw [getElem?_bitsMsb, hbyte, Option.map_some]

/-- Settles O23: the pattern's bits are those of the preamble, then those of the sync word. -/
theorem patternBitsMsbFirst : Obligations.PatternBitsMsbFirst := by
  rintro cfg0 cfg1 cfg2 d rfl
  have hpattern : (buildDescriptor cfg0 cfg1 cfg2).pattern =
      bitsMsb (preamble (buildDescriptor cfg0 cfg1 cfg2).npre) ++
        bitsMsb (syncWord cfg1 (syncRepeats (syncMode cfg0))) := bitsMsb_append _ _
  have hpreamble : (bitsMsb (preamble (buildDescriptor cfg0 cfg1 cfg2).npre)).length =
      8 * (buildDescriptor cfg0 cfg1 cfg2).npre := by rw [bitsMsb_length, preamble_length]
  refine ⟨(patternBits_eq_length cfg0 cfg1).symm, rfl, fun j hj => ?pre, fun j hj => ?sync⟩
  case pre => rw [hpattern, List.getElem?_append_left (by rwa [hpreamble]), getElem?_bitsMsb_preamble hj]
  case sync =>
    rw [hpattern, List.getElem?_append_right (by rw [hpreamble]; exact Nat.le_add_right _ j), hpreamble,
      Nat.add_sub_cancel_left]
    exact getElem?_bitsMsb_syncWord cfg1 hj

/-! ### The sizes of a frame (R96, R97) -/

/-- The table of R96: NUM_PREAMBLE, Npre, then n, MFB and base_size without CRC for rep 1 and for rep 2. -/
def frameSizeTable : List (Nat × Nat × Nat × Nat × Nat × Nat × Nat × Nat) :=
  [(0, 2, 32, 2104, 5, 48, 2120, 7), (1, 3, 40, 2112, 6, 56, 2128, 8), (2, 4, 48, 2120, 7, 64, 2136, 9),
    (3, 6, 64, 2136, 9, 80, 2152, 11), (4, 8, 80, 2152, 11, 96, 2168, 13), (5, 12, 112, 2184, 15, 128, 2200, 17),
    (6, 16, 144, 2216, 19, 160, 2232, 21), (7, 24, 208, 2280, 27, 224, 2296, 29)]

/-- The table of R96 is its formulas with `Nsync = 2` for rep 1 and `Nsync = 4` for rep 2. -/
theorem frameSizeTable_eq_map : frameSizeTable = (List.range 8).map fun index =>
    (index, preambleBytes index,
      8 * (preambleBytes index + 2), 8 * (preambleBytes index + 2) + 2072, preambleBytes index + 2 + 1,
      8 * (preambleBytes index + 4), 8 * (preambleBytes index + 4) + 2072, preambleBytes index + 4 + 1) := rfl

/-- SYNC_MODE mod 4 of 1 or 2 sends the sync word once (R67). -/
theorem syncRepeats_eq_one {mode : Nat} (h : mode % 4 = 1 ∨ mode % 4 = 2) : syncRepeats mode = 1 := by
  rcases h with h | h <;> simp only [syncRepeats, h]

/-- SYNC_MODE mod 4 of 3 sends it twice (R67). -/
theorem syncRepeats_eq_two {mode : Nat} (h : mode % 4 = 3) : syncRepeats mode = 2 := by
  simp only [syncRepeats, h]

/-- The sizes of a frame at a given number of sync words (R95, R96). -/
theorem frameSizes_of_syncRepeats {cfg0 : Word} {rep : Nat} (h : syncRepeats (syncMode cfg0) = rep) (cfg1 cfg2 : Word) :
    (buildDescriptor cfg0 cfg1 cfg2).n = 8 * (preambleBytes (numPreamble cfg0) + 2 * rep) ∧
    (buildDescriptor cfg0 cfg1 cfg2).mfb = 8 * (preambleBytes (numPreamble cfg0) + 2 * rep) + 2072 ∧
    (buildDescriptor cfg0 cfg1 cfg2).baseSize =
      preambleBytes (numPreamble cfg0) + 2 * rep + 1 + (if cfg0.getLsbD 17 then 2 else 0) := by
  subst h
  exact ⟨rfl, rfl, rfl⟩

/-- Settles O24: the formulas are the descriptor's own; a row of the table is the formulas at its NUM_PREAMBLE. -/
theorem descriptorSizes : Obligations.DescriptorSizes := by
  rintro cfg0 cfg1 cfg2 d rfl
  refine ⟨rfl, rfl, rfl, preambleBytes_lookup (numPreamble_lt cfg0), nsync_lookup (syncMode cfg0), rfl, rfl, ?table⟩
  case table =>
    intro row hrow hindex
    change row ∈ frameSizeTable at hrow
    rw [frameSizeTable_eq_map] at hrow
    obtain ⟨index, -, rfl⟩ := List.mem_map.mp hrow
    obtain rfl : numPreamble cfg0 = index := hindex
    exact ⟨rfl, fun honce => frameSizes_of_syncRepeats (syncRepeats_eq_one honce) cfg1 cfg2,
      fun htwice => frameSizes_of_syncRepeats (syncRepeats_eq_two htwice) cfg1 cfg2⟩

/-- With a sync word, the pattern is longer than the preamble and has 32 to 224 bits (R96, R97). -/
theorem patternBits_bounds {cfg0 : Word} (h : 1 ≤ syncRepeats (syncMode cfg0)) :
    32 ≤ patternBits cfg0 ∧ patternBits cfg0 ≤ 224 ∧ 8 * preambleBytes (numPreamble cfg0) < patternBits cfg0 := by
  have hnpre := preambleBytes_bounds (numPreamble cfg0)
  have hrep := syncRepeats_le (syncMode cfg0)
  unfold patternBits
  omega

/-- Settles O25: each range is one in bits, times the stride; the last is strict because an accepted stride is not 0. -/
theorem sampleCountSizes : Obligations.SampleCountSizes := by
  rintro p cfg0 cfg1 cfg2 d rfl
  refine ⟨rfl, rfl, rfl, fun hcode => ?ranges⟩
  case ranges =>
    have haccepted := accepted_of_configError_eq_zero hcode
    obtain ⟨hnpreLow, hnpreHigh⟩ := preambleBytes_bounds (numPreamble cfg0)
    obtain ⟨hnLow, hnHigh, hlonger⟩ := patternBits_bounds haccepted.repeats
    have hmfb : maxFrameBits cfg0 = patternBits cfg0 + 2072 := rfl
    have hscale : ∀ {a b : Nat}, a ≤ b → a * strideField cfg2 ≤ b * strideField cfg2 := Nat.mul_le_mul_right _
    exact ⟨hscale (by omega), hscale (by omega), hscale hnLow, hscale hnHigh, hscale (by omega), hscale (by omega),
      Nat.mul_lt_mul_of_pos_right hlonger haccepted.strideLow⟩

/-! ### START (R98) -/

/-- Settles O26: START's two checks in order; each of its three outcomes is the record update the rule gives. -/
theorem startEffect : Obligations.StartEffect := by
  rintro s npre rep n mfb base stride hnpre hrep rfl rfl rfl rfl
  obtain rfl := eq_preambleBytes_of_lookup hnpre
  obtain rfl := eq_syncRepeats_of_lookup hrep
  show execStart s = _
  rw [execStart]
  split
  case isTrue => rfl
  case isFalse =>
    split
    case isTrue => rfl
    case isFalse => rfl

end Sys2Proof.Machine
end

section
/-!
PROOFS. The parser (R100, R101) and what reaches it: each of its outcomes, a frame that one changed byte has spoilt, and
the bytes of a candidate whose look-ahead is held in full (R102, R111).
-/
namespace Sys2Proof.Machine

/-! ### The parser's drops (R100, R101) -/

/-- LEN is checked first (R101). -/
theorem parseFrame_eq_drop_len {pktlen : Nat} {crcOn : Bool} {b : Byte} {rest : List Byte} (hlen : pktlen < b.toNat) :
    parseFrame pktlen crcOn (b :: rest) = .drop .len := by
  rw [parseFrame, if_pos hlen]

/-- SHORT is checked where LEN passes (R101). -/
theorem parseFrame_eq_drop_short {pktlen : Nat} {crcOn : Bool} {b : Byte} {rest : List Byte} (hlen : b.toNat ≤ pktlen)
    (hneed : (b :: rest).length < frameNeed crcOn b.toNat) :
    parseFrame pktlen crcOn (b :: rest) = .drop .short := by
  rw [parseFrame, if_neg (Nat.not_lt.mpr hlen), if_pos hneed]

/-- The CRC is checked where LEN and SHORT pass (R101). -/
theorem parseFrame_eq_drop_crc {pktlen : Nat} {b : Byte} {rest : List Byte} (hlen : b.toNat ≤ pktlen)
    (hneed : frameNeed true b.toNat ≤ (b :: rest).length)
    (hcrc : crc16 ((b :: rest).take (frameNeed true b.toNat)) ≠ 0) :
    parseFrame pktlen true (b :: rest) = .drop .crc := by
  have hresidue : (true && crc16 ((b :: rest).take (frameNeed true b.toNat)) != 0) = true := by simpa using hcrc
  rw [parseFrame, if_neg (Nat.not_lt.mpr hlen), if_neg (Nat.not_lt.mpr hneed), if_pos hresidue]

/-- Settles O43: a case for each check, in the order the parser makes them, and one where none fails. -/
theorem parserOutcomes : Obligations.ParserOutcomes := by
  refine fun pktlen crcOn => ⟨rfl, ?nonempty⟩
  rintro b rest need (rfl : need = frameNeed crcOn b.toNat)
  refine ⟨parseFrame_eq_drop_len, parseFrame_eq_drop_short, ?crc, parseFrame_eq_packet⟩
  case crc =>
    rintro hlen hneed rfl hcrc
    exact parseFrame_eq_drop_crc hlen hneed hcrc

/-! ### A changed payload byte (R84, R100) -/

/-- A message passes with the two CRC bytes behind it exactly if they are its own CRC (R84). -/
theorem crc16_append_crcBytes_eq_zero_iff (msg : List Byte) (c : BitVec 16) :
    crc16 (msg ++ crcBytes c) = 0 ↔ crc16 msg = c := by
  rw [crc16_append, ← foldl_crcByte_crcBytes c]
  exact (foldl_injective crcByte_injective (crcBytes c)).eq_iff

/-- With a CRC, a frame of a declared length whose CRC bytes are not its message's own is dropped (R100). -/
theorem parseFrame_frameMessage_of_crc_ne {pktlen : Nat} {payload : List Byte} {c : BitVec 16}
    (hlen : payload.length ≤ pktlen) (hmax : pktlen ≤ 255) (hcrc : crc16 (frameMessage payload) ≠ c)
    (extra : List Byte) : parseFrame pktlen true (frameMessage payload ++ crcBytes c ++ extra) = .drop .crc := by
  have hbyte := toNat_lengthByte (hlen.trans hmax)
  have hlength : (frameMessage payload ++ crcBytes c).length = frameNeed true payload.length := by
    simp [frameNeed]
  have htake := List.take_left' (l₂ := extra) hlength
  refine parseFrame_eq_drop_crc ?len ?need ?residue
  case len => rwa [hbyte]
  case need =>
    rw [hbyte, ← hlength]
    show _ ≤ (frameMessage payload ++ crcBytes c ++ extra).length
    rw [List.length_append (bs := extra)]
    exact Nat.le_add_right _ _
  case residue =>
    rw [hbyte]
    exact fun h => hcrc ((crc16_append_crcBytes_eq_zero_iff _ _).mp (htake ▸ h))

/-- Settles O45: the changed message has as many bytes, so the same length byte, and another CRC. -/
theorem corruptedFrameIsDropped : Obligations.CorruptedFrameIsDropped := by
  intro pktlen pre post extra b b' hne hlen hmax
  have hsame : (pre ++ b' :: post).length = (pre ++ b :: post).length := by simp
  have hcrc : crc16 (frameMessage (pre ++ b' :: post)) ≠ crc16 (frameMessage (pre ++ b :: post)) := by
    rw [frameMessage, frameMessage, hsame]
    exact crcDetectsOneChangedByte.1 (_ :: pre) post b' b hne.symm
  exact parseFrame_frameMessage_of_crc_ne (hsame ▸ hlen) hmax hcrc extra

/-! ### The bytes of a candidate with full look-ahead (R102, R111) -/

/-- With full look-ahead EXTRACT samples one position for every bit of the longest frame (R111). -/
theorem candidateIndices_of_fullLookAhead {s : State} (hmid : s.mid < s.desc.stride)
    (hmaxsize : s.desc.maxsize = s.desc.mfb * s.desc.stride) (hahead : s.pos + s.desc.maxsize ≤ s.rcv) :
    candidateIndices s = strideIndices (s.pos + s.mid) s.desc.stride s.desc.mfb := by
  have hend : s.lookAheadEnd = s.pos + s.desc.maxsize := Nat.min_eq_right hahead
  have hlimit : ∀ j < s.desc.mfb, s.pos + s.mid + j * s.desc.stride < s.lookAheadEnd := by
    intro j hj
    have hnext := Nat.mul_le_mul_right s.desc.stride hj
    rw [Nat.succ_mul] at hnext
    omega
  simpa [candidateIndices, extractIndices] using extractIndices_eq_append (fuel := 0) hlimit

/-- Full look-ahead leaves 2072 bits, so 259 bytes, after the pattern (R96, R111). -/
theorem candidateData_length_of_fullLookAhead {s : State} (hsizes : SessionSizes s) (hmid : s.mid < s.desc.stride)
    (hahead : s.pos + s.desc.maxsize ≤ s.rcv) : (candidateData s).length = 259 := by
  have hbits : (candidateIndices s).length = s.desc.n + 2072 := by
    rw [candidateIndices_of_fullLookAhead hmid hsizes.maxsize hahead, ← hsizes.mfb]
    simp [strideIndices]
  rw [candidateData_length, candidateBytes_length, hbits]
  omega

/-- Settles O42: in a session's EXTRACT every sample read is held, and what is left in `D` is the candidate's data. -/
theorem fullLookAheadGives259Bytes : Obligations.FullLookAheadGives259Bytes := by
  intro s hinv hst hahead
  have hopen : SessionOpen s := hinv.session (by rw [hst]; decide)
  have henabled : s.extractEnabled = true := by rw [State.extractEnabled, hst]; rfl
  exact ⟨_, execExtract_of_held henabled hinv.windowHeld.candidateIndices,
    candidateData_length_of_fullLookAhead hopen.sizes hopen.mid hahead⟩

end Sys2Proof.Machine
end

section
/-!
PROOFS. Which internal step is enabled (R107 to R113): one equation for each state of the state machine, each step's
guard as an equivalence, and what a step does outside its guard.
-/
namespace Sys2Proof.Machine

/-! ### The enabled step, state by state -/

/-- In SEARCH a full pattern window enables SCAN, and the end of the stream without one FINISH (R107, R108). -/
theorem State.blockInstr_search {s : State} (hst : s.st = .search) :
    s.blockInstr = if s.patternHeld then some .scan else if s.eos then some .finish else none := by
  cases hheld : s.patternHeld <;> simp [State.blockInstr, State.scanEnabled, State.finishEnabled, State.phaseEnabled,
    State.extractEnabled, State.parseEnabled, hst, hheld]

/-- In PHASE the look-ahead, or the end of the stream, enables PHASE (R109). -/
theorem State.blockInstr_phase {s : State} (hst : s.st = .phase) :
    s.blockInstr = if s.lookAheadHeld then some .phase else none := by
  simp [State.blockInstr, State.scanEnabled, State.finishEnabled, State.phaseEnabled, State.extractEnabled,
    State.parseEnabled, hst]

/-- EXTRACT waits for nothing (R111). -/
theorem State.blockInstr_extract {s : State} (hst : s.st = .extract) : s.blockInstr = some .extract := by
  simp [State.blockInstr, State.scanEnabled, State.finishEnabled, State.phaseEnabled, State.extractEnabled, hst]

/-- PARSE waits for FIFO room only (R113). -/
theorem State.blockInstr_parse {s : State} (hst : s.st = .parse) :
    s.blockInstr = if s.parseEnabled then some .parse else none := by
  simp [State.blockInstr, State.scanEnabled, State.finishEnabled, State.phaseEnabled, State.extractEnabled, hst]

/-- In IDLE, DONE and SRCERR no internal step is enabled (43_synchronizer.md). -/
theorem State.blockInstr_of_not_running {s : State} (hrun : s.st.running = false) : s.blockInstr = none := by
  cases hst : s.st with
  | idle | done | srcErr =>
    simp [State.blockInstr, State.scanEnabled, State.finishEnabled, State.phaseEnabled, State.extractEnabled,
      State.parseEnabled, hst]
  | search | phase | extract | parse => rw [hst] at hrun; cases hrun

/-- An enabled internal step is one of a running state. -/
theorem State.running_of_blockInstr {s : State} {i : Instr} (h : s.blockInstr = some i) : s.st.running = true := by
  by_contra hrun
  rw [State.blockInstr_of_not_running (by simpa using hrun)] at h
  cases h

/-! ### Each step's guard -/

theorem State.finishEnabled_iff {s : State} :
    s.finishEnabled = true ↔ s.st = .search ∧ s.eos = true ∧ s.patternHeld = false := by
  simp [State.finishEnabled, and_assoc]

theorem State.phaseEnabled_iff {s : State} : s.phaseEnabled = true ↔ s.st = .phase ∧ s.lookAheadHeld = true := by
  simp [State.phaseEnabled]

theorem State.extractEnabled_iff {s : State} : s.extractEnabled = true ↔ s.st = .extract := by
  simp [State.extractEnabled]

/-- A drop never holds; a packet needs FIFO room for its `1 + L` beats (R113). -/
theorem State.parseEnabled_iff {s : State} :
    s.parseEnabled = true ↔ s.st = .parse ∧ ∀ p, s.parsed = .packet p → 1 + p.payload.length ≤ s.room := by
  unfold State.parseEnabled
  cases s.parsed <;> simp

/-- The guard of an internal step; nothing else is enabled by the block's state. -/
def State.enables (s : State) : Instr → Bool
  | .scan => s.scanEnabled
  | .finish => s.finishEnabled
  | .phase => s.phaseEnabled
  | .extract => s.extractEnabled
  | .parse => s.parseEnabled
  | _ => false

/-- The block's turn runs a step exactly if the step's guard holds: no two guards hold at once, since each asks for a
state of its own, and SCAN's and FINISH's for opposite windows (R107 to R113). -/
theorem State.blockInstr_eq_some_iff {s : State} {i : Instr} : s.blockInstr = some i ↔ s.enables i = true := by
  constructor
  · intro h
    unfold State.blockInstr at h
    repeat' split at h
    all_goals cases h
    all_goals assumption
  · intro h
    cases i with
    | scan =>
      obtain ⟨hst, hheld⟩ := State.scanEnabled_iff.mp h
      rw [State.blockInstr_search hst, if_pos hheld]
    | finish =>
      obtain ⟨hst, heos, hmissing⟩ := State.finishEnabled_iff.mp h
      rw [State.blockInstr_search hst, hmissing, heos]
      rfl
    | phase =>
      obtain ⟨hst, hahead⟩ := State.phaseEnabled_iff.mp h
      rw [State.blockInstr_phase hst, if_pos hahead]
    | extract => exact State.blockInstr_extract (State.extractEnabled_iff.mp h)
    | parse =>
      have henabled : s.parseEnabled = true := h
      rw [State.blockInstr_parse (State.parseEnabled_iff.mp henabled).1, if_pos henabled]
    | _ => cases h

/-! ### A step that is not enabled (log entry 15) -/

/-- Outside its guard an internal step answers the same state (R16, R138). -/
theorem exec_of_not_enables {s : State} {i : Instr} (hi : i.isInternal = true) (h : s.enables i = false) :
    exec i s = .next s := by
  cases i with
  | scan => exact if_neg (Bool.eq_false_iff.mp h)
  | finish => exact if_neg (Bool.eq_false_iff.mp h)
  | phase => exact if_neg (Bool.eq_false_iff.mp h)
  | extract => exact if_neg (Bool.eq_false_iff.mp h)
  | parse => exact if_neg (Bool.eq_false_iff.mp h)
  | _ => cases hi

/-- Settles O11: the equations of SEARCH and PARSE, and what a step does outside its guard. -/
theorem internalStepGuards : Obligations.InternalStepGuards := by
  refine fun s => ⟨fun i h => ⟨isInternal_of_blockInstr h, State.running_of_blockInstr h⟩, ?search, ?drop, ?disabled⟩
  case search =>
    intro hst heos
    rw [State.blockInstr_search hst]
    cases s.patternHeld with
    | true => exact .inl rfl
    | false => rw [heos]; exact .inr rfl
  case drop =>
    intro c hst hdrop
    have henabled : s.parseEnabled = true := State.parseEnabled_iff.mpr ⟨hst, by simp [hdrop]⟩
    rw [State.blockInstr_parse hst, if_pos henabled]
  case disabled =>
    intro i hi hne
    rw [ne_eq, State.blockInstr_eq_some_iff] at hne
    exact exec_of_not_enables hi (Bool.eq_false_iff.mpr hne)

/-- Settles O37: FINISH's guard, and its one update. -/
theorem finishEffect : Obligations.FinishEffect := by
  intro s
  have hguard : s.finishEnabled = true ↔
      s.st = .search ∧ s.eos = true ∧ s.rcv < s.pos + s.desc.n * s.desc.stride := by
    rw [State.finishEnabled_iff, ← Bool.not_eq_true, State.patternHeld_iff, Nat.not_le]
  exact ⟨State.blockInstr_eq_some_iff.trans hguard, fun hst heos hmissing => if_pos (hguard.mpr ⟨hst, heos, hmissing⟩)⟩

end Sys2Proof.Machine
end

section
/-!
PROOFS. The functions the synchronizer's steps share: the threshold (R103), the pattern test (R105) and the chosen run
(R110).
-/
namespace Sys2Proof.Machine

/-! ### The threshold (R103) -/

/-- The threshold sum as a sum over offsets. -/
theorem thresholdSum_eq_sum_range (w : Memory) (p t : Nat) :
    thresholdSum w p t = (Finset.range t).sum (fun i => Memory.sampleAt w (p + i)) := by
  rw [thresholdSum, windowIndices, List.range'_eq_map_range, List.map_map]
  rfl

/-- The floor division is at least `q` exactly if `q` times the divisor fits (R14). -/
theorem le_floorDiv_iff {a b : Int} (hb : 0 < b) (q : Int) : q ≤ floorDiv a b ↔ q * b ≤ a := by
  rw [floorDiv, Int.fdiv_eq_ediv_of_nonneg _ hb.le, Int.le_ediv_iff_mul_le hb]

/-- Settles O34: the floor mean is the greatest integer that fits, being one that does. -/
theorem thresholdIsFloorMean : Obligations.ThresholdIsFloorMean := by
  intro s hsize
  have hfits := le_floorDiv_iff (a := s.withThreshold.thsum) (b := s.desc.thsize) (by exact_mod_cast hsize)
  exact ⟨thresholdSum_eq_sum_range _ _ _, (hfits _).mp le_rfl, fun q => (hfits q).mpr, by decide, by decide⟩

/-! ### The pattern test (R105) -/

/-- Settles O35, by induction on the pattern: its first bit is the sample at `b`, the others those from `b + S` on. -/
theorem patternTestComparesEveryBit : Obligations.PatternTestComparesEveryBit := by
  intro w stride b t ps
  refine ⟨?mp, patternMatch_of_forall⟩
  case mp =>
    intro h j hj
    induction ps generalizing b j with
    | nil => cases hj
    | cons p ps ih =>
      rw [patternMatch, Bool.and_eq_true, beq_iff_eq] at h
      obtain ⟨hhead, htail⟩ := h
      cases j with
      | zero => rw [Nat.zero_mul, Nat.add_zero]; exact hhead
      | succ j =>
        rw [Nat.succ_mul, Nat.add_comm (j * stride), ← Nat.add_assoc, List.getElem_cons_succ]
        exact ih (b + stride) htail j (Nat.lt_of_succ_lt_succ hj)

/-! ### The chosen run (R110) -/

/-- The list gives the offsets from `i` on at which `f` holds. -/
def ListsFrom (f : Nat → Prop) (i : Nat) (m : List Bool) : Prop := ∀ k, f (i + k) ↔ m[k]? = some true

theorem ListsFrom.head {f : Nat → Prop} {i : Nat} {b : Bool} {m : List Bool} (h : ListsFrom f i (b :: m)) :
    f i ↔ b = true := by
  simpa using h 0

theorem ListsFrom.tail {f : Nat → Prop} {i : Nat} {b : Bool} {m : List Bool} (h : ListsFrom f i (b :: m)) :
    ListsFrom f (i + 1) m := by
  intro k
  rw [Nat.succ_add_eq_add_succ, h (k + 1), List.getElem?_cons_succ]

/-- Every offset of a listed run is true; the `len` offsets before `i` are the run still open there. -/
theorem runsFrom_sound {f : Nat → Prop} {m : List Bool} {i len : Nat} (hf : ListsFrom f i m) (hlen : len ≤ i)
    (hopen : ∀ k, i - len ≤ k → k < i → f k) {r : Nat × Nat} (hr : r ∈ runsFrom i len m) {k : Nat} (hlow : r.1 ≤ k)
    (hhigh : k < r.1 + r.2) : f k := by
  induction m generalizing i len with
  | nil =>
    rw [runsFrom] at hr
    split at hr
    · cases hr
    · obtain rfl := List.mem_singleton.mp hr
      exact hopen k hlow (by dsimp only at hhigh; omega)
  | cons b m ih =>
    cases b with
    | true =>
      rw [runsFrom] at hr
      refine ih hf.tail (by omega) (fun j hj hji => ?_) hr
      rcases Nat.lt_succ_iff_lt_or_eq.mp hji with hji | rfl
      · exact hopen j (by omega) hji
      · exact hf.head.mpr rfl
    | false =>
      have hlater : r ∈ runsFrom (i + 1) 0 m → f k := ih hf.tail (Nat.zero_le _) (fun j hj hji => by omega)
      rw [runsFrom] at hr
      split at hr
      · exact hlater hr
      · rcases List.mem_cons.mp hr with rfl | hr
        · exact hopen k hlow (by dsimp only at hhigh; omega)
        · exact hlater hr

/-- Every interval of true offsets that does not begin before the open run lies in a listed run: runs are maximal. -/
theorem runsFrom_complete {f : Nat → Prop} {m : List Bool} {i len : Nat} (hf : ListsFrom f i m) (hlen : len ≤ i)
    {a b : Nat} (hab : a ≤ b) (hbegin : i - len ≤ a) (htrue : ∀ k, a ≤ k → k ≤ b → f k) :
    ∃ r ∈ runsFrom i len m, r.1 ≤ a ∧ b < r.1 + r.2 := by
  induction m generalizing i len with
  | nil =>
    have hend : b < i := by
      by_contra hle
      have := hf (b - i)
      rw [Nat.add_sub_cancel' (Nat.not_lt.mp hle)] at this
      simpa using this.mp (htrue b hab le_rfl)
    rw [runsFrom, if_neg (by omega)]
    exact ⟨_, List.mem_singleton_self _, hbegin, by dsimp only; omega⟩
  | cons c m ih =>
    cases c with
    | true => rw [runsFrom]; exact ih hf.tail (by omega) (by omega)
    | false =>
      have hfalse : ¬ f i := fun hi => by simpa using hf.head.mp hi
      rw [runsFrom]
      rcases Nat.lt_or_ge b i with hend | hlate
      · rw [if_neg (by omega)]
        exact ⟨_, List.mem_cons_self, hbegin, by dsimp only; omega⟩
      · have hafter : i < a := by
          by_contra hle
          exact hfalse (htrue i (Nat.not_lt.mp hle) hlate)
        obtain ⟨r, hr, hin⟩ := ih (len := 0) hf.tail (Nat.zero_le _) (by omega)
        split
        · exact ⟨r, hr, hin⟩
        · exact ⟨r, List.mem_cons_of_mem _ hr, hin⟩

/-- No listed run begins before the open one. -/
theorem runsFrom_begin_le {m : List Bool} {i len : Nat} {r : Nat × Nat} (hr : r ∈ runsFrom i len m) : i - len ≤ r.1 := by
  induction m generalizing i len with
  | nil =>
    rw [runsFrom] at hr
    split at hr
    · cases hr
    · rw [List.mem_singleton.mp hr]
  | cons b m ih =>
    cases b with
    | true => rw [runsFrom] at hr; have := ih hr; omega
    | false =>
      rw [runsFrom] at hr
      split at hr
      · have := ih hr; omega
      · rcases List.mem_cons.mp hr with rfl | hr
        · exact le_rfl
        · have := ih hr; omega

/-- The runs are listed lowest start first (R110). -/
theorem runsFrom_sorted (m : List Bool) (i len : Nat) : (runsFrom i len m).Pairwise (fun r q => r.1 ≤ q.1) := by
  induction m generalizing i len with
  | nil => rw [runsFrom]; split <;> simp
  | cons b m ih =>
    cases b with
    | true => exact ih _ _
    | false =>
      rw [runsFrom]
      split
      · exact ih _ _
      · refine List.pairwise_cons.mpr ⟨fun q hq => ?_, ih _ _⟩
        have := runsFrom_begin_le hq
        dsimp only
        omega

theorem longestRun_eq_none_iff {rs : List (Nat × Nat)} : longestRun rs = none ↔ rs = [] := by
  cases rs with
  | nil => simp [longestRun]
  | cons r rs =>
    rw [longestRun]
    split
    · simp
    · split <;> simp

/-- Of runs listed lowest start first, the one taken is a longest, and among those the lowest (R110). -/
theorem longestRun_best {rs : List (Nat × Nat)} (hsorted : rs.Pairwise (fun r q => r.1 ≤ q.1)) {q : Nat × Nat}
    (h : longestRun rs = some q) {r : Nat × Nat} (hr : r ∈ rs) : r.2 ≤ q.2 ∧ (r.2 = q.2 → q.1 ≤ r.1) := by
  induction rs generalizing q r with
  | nil => cases hr
  | cons r₀ rs ih =>
    obtain ⟨hfirst, hsorted⟩ := List.pairwise_cons.mp hsorted
    rw [longestRun] at h
    split at h
    next hnone =>
      cases h
      rw [longestRun_eq_none_iff.mp hnone, List.mem_singleton] at hr
      subst hr
      exact ⟨le_rfl, fun _ => le_rfl⟩
    next q' hq' =>
      have hrest : r ∈ rs → r.2 ≤ q'.2 ∧ (r.2 = q'.2 → q'.1 ≤ r.1) := ih hsorted hq'
      split at h
      next hlonger =>
        cases h
        rcases List.mem_cons.mp hr with rfl | hr
        · exact ⟨hlonger.le, fun e => absurd e hlonger.ne⟩
        · exact hrest hr
      next hshorter =>
        cases h
        rcases List.mem_cons.mp hr with rfl | hr
        · exact ⟨le_rfl, fun _ => le_rfl⟩
        · exact ⟨(hrest hr).1.trans (Nat.not_lt.mp hshorter), fun _ => hfirst r hr⟩

/-- The chosen run `[a, b]` is the longest listed run (R110). -/
theorem exists_longestRun_of_chosenRun {m : List Bool} {a b : Nat} (h : chosenRun m = some (a, b)) :
    ∃ len, longestRun (runsFrom 0 0 m) = some (a, len) ∧ 0 < len ∧ b = a + len - 1 := by
  unfold chosenRun at h
  split at h
  · cases h
  · rename_i a' len hlongest
    cases h
    obtain ⟨hpos, -⟩ := runsFrom_bound (Nat.le_refl 0) (longestRun_mem hlongest)
    exact ⟨len, hlongest, hpos, rfl⟩

theorem listsFrom_getElem? (m : List Bool) : ListsFrom (fun k => m[k]? = some true) 0 m := by
  intro k
  rw [Nat.zero_add]

/-- Every interval of true offsets lies in a maximal run (R110). -/
theorem exists_run_of_interval {m : List Bool} {a b : Nat} (hab : a ≤ b)
    (htrue : ∀ k, a ≤ k → k ≤ b → m[k]? = some true) : ∃ r ∈ runsFrom 0 0 m, r.1 ≤ a ∧ b < r.1 + r.2 :=
  runsFrom_complete (listsFrom_getElem? m) le_rfl hab (Nat.zero_le a) htrue

/-- Every offset of a maximal run is true (R110). -/
theorem getElem?_of_mem_runs {m : List Bool} {r : Nat × Nat} (hr : r ∈ runsFrom 0 0 m) {k : Nat} (hlow : r.1 ≤ k)
    (hhigh : k < r.1 + r.2) : m[k]? = some true :=
  runsFrom_sound (f := fun k => m[k]? = some true) (listsFrom_getElem? m) le_rfl
    (fun k _ hk => absurd hk (Nat.not_lt_zero k)) hr hlow hhigh

/-- There is no run exactly if no offset is true (R110). -/
theorem chosenRun_eq_none_iff (m : List Bool) : chosenRun m = none ↔ ∀ i : Nat, m[i]? ≠ some true := by
  have hruns : chosenRun m = none ↔ runsFrom 0 0 m = [] := by
    rw [← longestRun_eq_none_iff, chosenRun]
    split <;> simp_all
  rw [hruns]
  constructor
  · intro hnil i hi
    obtain ⟨r, hr, -⟩ := exists_run_of_interval (m := m) (le_refl i) fun k hlow hhigh => le_antisymm hhigh hlow ▸ hi
    rw [hnil] at hr
    cases hr
  · intro hnone
    refine List.eq_nil_iff_forall_not_mem.mpr fun r hr => ?_
    obtain ⟨hpos, -⟩ := runsFrom_bound (Nat.le_refl 0) hr
    exact hnone r.1 (getElem?_of_mem_runs hr le_rfl (by omega))

/-- Settles O39: an interval of true offsets lies in a maximal run, and the chosen one is the best of these. -/
theorem chosenRunIsLongestThenLowest : Obligations.ChosenRunIsLongestThenLowest := by
  refine fun m => ⟨fun a b h => ?chosen, chosenRun_eq_none_iff m, by decide⟩
  case chosen =>
    obtain ⟨hab, hb⟩ := chosenRun_bound h
    obtain ⟨len, hlongest, hpos, rfl⟩ := exists_longestRun_of_chosenRun h
    refine ⟨hab, hb, fun i hlow hhigh => ?_, fun a' b' hab' htrue => ?_⟩
    · exact getElem?_of_mem_runs (longestRun_mem hlongest) hlow (by dsimp only; omega)
    · obtain ⟨r, hr, hbegin, hend⟩ := exists_run_of_interval hab' htrue
      obtain ⟨hlength, hlowest⟩ := longestRun_best (runsFrom_sorted m 0 0) hlongest hr
      dsimp only at hlength hlowest
      exact ⟨by omega, fun e => (hlowest (by omega)).trans hbegin⟩

end Sys2Proof.Machine
end

section
/-!
PROOFS. What each internal step does under its guard (R107 to R113): the samples it reads are held, and its outcome is
the record update of its rule.
-/
namespace Sys2Proof.Machine

/-! ### SCAN (R107) -/

/-- SCAN with the samples it reads held and another pattern in them (R107). -/
theorem execScan_of_mismatch {s : State} (henabled : s.scanEnabled = true) (hsize : s.desc.thsize ≠ 0)
    (hreads : firstAbsent s.smp (scanReads s) = none)
    (hmiss : patternMatch s.smp s.desc.stride s.withThreshold.th s.pos s.desc.pattern = false) :
    execScan s = .next (s.withThreshold.moveTo (s.pos + 1)) := by
  rw [execScan, if_pos henabled, if_neg hsize, hreads, State.scanTest, if_neg (Bool.eq_false_iff.mp hmiss)]

/-- Settles O36: the threshold window lies in the pattern window, which is held; then the pattern's two answers. -/
theorem scanEffect : Obligations.ScanEffect := by
  intro s
  have hguard : s.scanEnabled = true ↔ s.st = .search ∧ s.pos + s.desc.n * s.desc.stride ≤ s.rcv := by
    rw [State.scanEnabled_iff, State.patternHeld_iff]
  refine ⟨State.blockInstr_eq_some_iff.trans hguard, ?effect⟩
  rintro hst hrcv hsize hwindow hheld _ _ rfl rfl
  have henabled : s.scanEnabled = true := hguard.mpr ⟨hst, hrcv⟩
  have hstride : 0 < s.desc.stride := Nat.pos_of_mul_pos_left (hsize.trans_le hwindow)
  have hreads := State.WindowHeld.scanReads hheld hstride hwindow hrcv
  refine ⟨execScan_of_match henabled hsize.ne' hreads, fun hmiss => ?mismatch⟩
  exact ⟨_, execScan_of_mismatch henabled hsize.ne' hreads hmiss, rfl, fun k => Memory.read_discard s.smp (s.pos + 1) k⟩

/-! ### PHASE (R109) -/

/-- A sweep that matches at offset 0 has a run (R109, R110). -/
theorem exists_chosenRun_of_match {s : State} (hstride : 0 < s.desc.stride)
    (hit : patternMatch s.smp s.desc.stride s.thHold s.pos s.desc.pattern = true) :
    ∃ a b, chosenRun (phaseSweep s) = some (a, b) := by
  have hfirst : (phaseSweep s)[0]? = some true := by
    rw [phaseSweep, List.getElem?_map, List.getElem?_range hstride]
    exact congrArg some hit
  cases hrun : chosenRun (phaseSweep s) with
  | none => exact absurd hfirst ((chosenRun_eq_none_iff _).mp hrun 0)
  | some run => exact ⟨run.1, run.2, rfl⟩

/-- Settles O38: the sweep reads inside the pattern window, and offset 0 gives it a run. -/
theorem phaseEffect : Obligations.PhaseEffect := by
  intro s
  have hguard : s.phaseEnabled = true ↔ s.st = .phase ∧ (s.pos + s.desc.maxsize ≤ s.rcv ∨ s.eos = true) := by
    rw [State.phaseEnabled_iff, State.lookAheadHeld_iff]
  refine ⟨State.blockInstr_eq_some_iff.trans hguard, fun hst hahead hstride hrcv hheld hit => ?effect⟩
  obtain ⟨a, b, hrun⟩ := exists_chosenRun_of_match hstride hit
  exact ⟨a, b, hrun,
    execPhase_of_run (hguard.mpr ⟨hst, hahead⟩) (State.WindowHeld.phaseReads hheld hrcv) hrun⟩

/-! ### EXTRACT (R111, R112) -/

/-- Position `j` is sampled while `j < fuel` and it lies below the limit: later positions lie no lower (R111). -/
theorem lt_length_extractIndices {p stride limit fuel j : Nat} :
    j < (extractIndices p stride limit fuel).length ↔ j < fuel ∧ p + j * stride < limit := by
  induction fuel generalizing p j with
  | zero => simp [extractIndices]
  | succ fuel ih =>
    rw [extractIndices]
    split
    next hp =>
      cases j with
      | zero => simp [hp]
      | succ j => rw [List.length_cons, Nat.succ_lt_succ_iff, ih, Nat.succ_lt_succ_iff, Nat.succ_mul]; omega
    next hp => simp only [List.length_nil]; omega

/-- Position `j` is `p + j*S` (R111). -/
theorem getElem_extractIndices {p stride limit fuel j : Nat} (h : j < (extractIndices p stride limit fuel).length) :
    (extractIndices p stride limit fuel)[j] = p + j * stride := by
  induction fuel generalizing p j with
  | zero => cases h
  | succ fuel ih =>
    have hp : p < limit := by have := (lt_length_extractIndices.mp h).2; omega
    simp only [extractIndices, if_pos hp]
    cases j with
    | zero => simp
    | succ j => rw [List.getElem_cons_succ, ih, Nat.succ_mul]; omega

/-- Settles O40: the bits are the samples at the candidate's positions, all of them held. -/
theorem extractEffect : Obligations.ExtractEffect := by
  refine fun s => ⟨State.blockInstr_eq_some_iff.trans State.extractEnabled_iff, fun hst hheld => ?effect⟩
  refine ⟨(candidateIndices s).map (sampleBit s.smp s.thHold), fun j => ?count, fun j hj => ?bit,
    execExtract_of_held (State.extractEnabled_iff.mpr hst) (State.WindowHeld.candidateIndices hheld)⟩
  case count => rw [List.length_map]; exact lt_length_extractIndices
  case bit =>
    rw [List.length_map] at hj
    rw [List.getElem_map, sampleBit, ← getElem_extractIndices hj]
    rfl

/-! ### PARSE (R113) -/

/-- A packet with FIFO room enables PARSE (R113). -/
theorem State.parseEnabled_of_packet {s : State} {p : Packet} (hst : s.st = .parse) (hparsed : s.parsed = .packet p)
    (hroom : 1 + p.payload.length ≤ s.room) : s.parseEnabled = true :=
  State.parseEnabled_iff.mpr ⟨hst, fun q hq => by
    obtain rfl : p = q := Parsed.packet.inj (hparsed.symm.trans hq)
    exact hroom⟩

/-- PARSE of a frame that is dropped (R113). -/
theorem execParse_of_drop {s : State} {c : DropCause} (hst : s.st = .parse) (hparsed : s.parsed = .drop c) :
    execParse s = .next (s.dropFrame c) := by
  rw [execParse, if_pos (State.parseEnabled_iff.mpr ⟨hst, by simp [hparsed]⟩), hparsed]

/-- LAST_DROP as a number: CAUSE in bits 1 and 0, LEN from bit 8 on (R31). -/
theorem lastDrop_eq_ofNat (c : DropCause) (b : Byte) :
    c.code ||| (b.setWidth 32 <<< 8) =
      BitVec.ofNat 32 ((if c = .len then 1 else if c = .short then 2 else 3) + 256 * b.toNat) := by
  have hb := b.isLt
  have hcode : c.code.toNat = if c = .len then 1 else if c = .short then 2 else 3 := by cases c <;> rfl
  have hlow : c.code.toNat < 2 ^ 8 := by cases c <;> decide
  have hshift : (b.setWidth 32 <<< 8).toNat = 2 ^ 8 * b.toNat := by
    rw [BitVec.toNat_shiftLeft, BitVec.toNat_setWidth, Nat.mod_eq_of_lt (a := b.toNat) (by omega), Nat.shiftLeft_eq,
      Nat.mul_comm]
    exact Nat.mod_eq_of_lt (by omega)
  refine BitVec.eq_of_toNat_eq ?_
  rw [← hcode, BitVec.toNat_or, hshift, Nat.lor_comm, ← Nat.two_pow_add_eq_or_of_lt hlow, BitVec.toNat_ofNat,
    Nat.mod_eq_of_lt (by omega), Nat.add_comm]

/-- LAST_DROP's LEN is the first data byte, 0 where there is none (R31). -/
theorem firstByte_eq_getElem? (d : List Byte) : firstByte d = d[0]?.getD 0 := by
  cases d <;> rfl

/-- Settles O47: the guard, then the parser's two outcomes. -/
theorem parseEffect : Obligations.ParseEffect := by
  refine fun s => ⟨State.blockInstr_eq_some_iff.trans State.parseEnabled_iff, fun hst => ⟨?packet, ?drop⟩⟩
  case packet =>
    intro p hparsed hroom
    exact ⟨_, execParse_of_packet (State.parseEnabled_of_packet hst hparsed hroom) hparsed, rfl,
      fun k => Memory.read_discard s.smp _ k⟩
  case drop =>
    intro c hparsed
    refine ⟨_, execParse_of_drop hst hparsed, ?_, fun k => Memory.read_discard s.smp _ k⟩
    rw [← firstByte_eq_getElem?, ← lastDrop_eq_ofNat]
    rfl

end Sys2Proof.Machine
end

section
/-!
PROOFS. A step of the block (R107 to R113): `BlockStep` lists what an enabled internal step answers, each outcome with
everything it rests on, and `blockStep_iff` ties the list to `blockInstr` and `exec`. A stream transaction that comes
first keeps what each outcome rests on, and so commutes with it (R116).
-/
namespace Sys2Proof.Machine

/-! ### The outcomes of an enabled internal step -/

/-- The outcomes of an enabled internal step, each with its guard, the samples it reads and the test it made. -/
inductive BlockStep (s : State) : Instr → State → Prop
  /-- SCAN finds the pattern (R107). -/
  | scanMatch (enabled : s.scanEnabled = true) (size : s.desc.thsize ≠ 0)
      (held : firstAbsent s.smp (scanReads s) = none)
      (hit : patternMatch s.smp s.desc.stride s.withThreshold.th s.pos s.desc.pattern = true) :
      BlockStep s .scan { s.withThreshold with thHold := s.withThreshold.th, st := .phase }
  /-- SCAN does not find it (R107). -/
  | scanMismatch (enabled : s.scanEnabled = true) (size : s.desc.thsize ≠ 0)
      (held : firstAbsent s.smp (scanReads s) = none)
      (miss : patternMatch s.smp s.desc.stride s.withThreshold.th s.pos s.desc.pattern = false) :
      BlockStep s .scan (s.withThreshold.moveTo (s.pos + 1))
  /-- R108. -/
  | finish (enabled : s.finishEnabled = true) : BlockStep s .finish { s with st := .done }
  /-- R109. -/
  | phase {a b : Nat} (enabled : s.phaseEnabled = true) (held : firstAbsent s.smp (phaseReads s) = none)
      (chosen : chosenRun (phaseSweep s) = some (a, b)) :
      BlockStep s .phase { s with mid := (a + b) / 2, runlen := b - a + 1, st := .extract }
  /-- R111. -/
  | extract (st : s.st = .extract) (held : firstAbsent s.smp (candidateIndices s) = none) :
      BlockStep s .extract { s with dBytes := candidateData s, st := .parse }
  /-- PARSE emits a packet (R113). -/
  | emit {p : Packet} (st : s.st = .parse) (parsed : s.parsed = .packet p) (room : 1 + p.payload.length ≤ s.room) :
      BlockStep s .parse (s.emitPacket p)
  /-- PARSE drops a frame (R113). -/
  | drop {c : DropCause} (st : s.st = .parse) (parsed : s.parsed = .drop c) : BlockStep s .parse (s.dropFrame c)

/-- Each outcome's step is enabled. -/
theorem BlockStep.enables {s t : State} {i : Instr} (h : BlockStep s i t) : s.enables i = true := by
  cases h with
  | scanMatch enabled | scanMismatch enabled | finish enabled | phase enabled => exact enabled
  | extract st => exact State.extractEnabled_iff.mpr st
  | emit st parsed room => exact State.parseEnabled_of_packet st parsed room
  | drop st parsed => exact State.parseEnabled_iff.mpr ⟨st, by simp [parsed]⟩

/-- Each outcome is the one its step answers. -/
theorem BlockStep.exec_eq {s t : State} {i : Instr} (h : BlockStep s i t) : exec i s = .next t := by
  cases h with
  | scanMatch enabled size held hit => exact execScan_of_match enabled size held hit
  | scanMismatch enabled size held miss => exact execScan_of_mismatch enabled size held miss
  | finish enabled => exact if_pos enabled
  | phase enabled held chosen => exact execPhase_of_run enabled held chosen
  | extract st held => exact execExtract_of_held (State.extractEnabled_iff.mpr st) held
  | emit st parsed room => exact execParse_of_packet (State.parseEnabled_of_packet st parsed room) parsed
  | drop st parsed => exact execParse_of_drop st parsed

/-- What an enabled step answers is one of the outcomes. -/
theorem blockStep_of_exec {s t : State} {i : Instr} (henabled : s.enables i = true) (h : exec i s = .next t) :
    BlockStep s i t := by
  cases i with
  | scan =>
    rcases execScan_next h with ⟨hoff, _⟩ | ⟨hon, hsize, hheld, rfl⟩
    · exact absurd henabled (Bool.eq_false_iff.mp hoff)
    · have hreads := (firstAbsent_eq_none_iff _ _).mpr hheld
      rcases s.scanTest_cases with ⟨hit, e⟩ | ⟨hmiss, e⟩ <;> rw [e]
      · exact .scanMatch hon hsize hreads hit
      · exact .scanMismatch hon hsize hreads hmiss
  | finish =>
    rcases execFinish_next h with ⟨hoff, _⟩ | ⟨hon, rfl⟩
    · exact absurd henabled (Bool.eq_false_iff.mp hoff)
    · exact .finish hon
  | phase =>
    rcases execPhase_next h with ⟨hoff, _⟩ | ⟨hon, hheld, a, b, hrun, rfl⟩
    · exact absurd henabled (Bool.eq_false_iff.mp hoff)
    · exact .phase hon ((firstAbsent_eq_none_iff _ _).mpr hheld) hrun
  | extract =>
    rcases execExtract_next h with ⟨hoff, _⟩ | ⟨hon, hheld, rfl⟩
    · exact absurd henabled (Bool.eq_false_iff.mp hoff)
    · exact .extract (State.extractEnabled_iff.mp hon) ((firstAbsent_eq_none_iff _ _).mpr hheld)
  | parse =>
    rcases execParse_next h with ⟨hoff, _⟩ | ⟨hst, p, hp, hroom, rfl⟩ | ⟨hst, c, hc, rfl⟩
    · exact absurd henabled (Bool.eq_false_iff.mp hoff)
    · exact .emit hst hp hroom
    · exact .drop hst hc
  | _ => cases henabled

/-- The outcomes are exactly what the enabled step answers. -/
theorem blockStep_iff {s t : State} {i : Instr} : BlockStep s i t ↔ s.blockInstr = some i ∧ exec i s = .next t := by
  rw [State.blockInstr_eq_some_iff]
  exact ⟨fun h => ⟨h.enables, h.exec_eq⟩, fun ⟨henabled, hexec⟩ => blockStep_of_exec henabled hexec⟩

/-! ### What a step of the block leaves unchanged -/

/-- What no internal step changes, how far the cursor may move, and which end of the FIFO is written (R114). -/
structure BlockFrame (s t : State) : Prop where
  params : t.params = s.params
  rcv : t.rcv = s.rcv
  eos : t.eos = s.eos
  inputs : t.inputs = s.inputs
  turns : t.turns = s.turns
  pos : s.pos ≤ t.pos
  out : s.out <+: t.out

theorem BlockStep.frame {s t : State} {i : Instr} (h : BlockStep s i t) : BlockFrame s t := by
  cases h with
  | scanMatch | finish | phase | extract => exact ⟨rfl, rfl, rfl, rfl, rfl, le_rfl, List.prefix_rfl⟩
  | scanMismatch => exact ⟨rfl, rfl, rfl, rfl, rfl, Nat.le_succ _, List.prefix_rfl⟩
  | emit => exact ⟨rfl, rfl, rfl, rfl, rfl, Nat.le_add_right _ _, List.prefix_append _ _⟩
  | drop => exact ⟨rfl, rfl, rfl, rfl, rfl, Nat.le_add_right _ _, List.prefix_rfl⟩

/-- A step of the block leaves the session running, or ends it in DONE after the end of the stream (R108). -/
theorem BlockStep.running_or_done {s t : State} {i : Instr} (h : BlockStep s i t) :
    t.st.running = true ∨ s.eos = true ∧ t.st = .done := by
  cases h with
  | scanMismatch enabled =>
    rw [State.moveTo_st, State.withThreshold_st, (State.scanEnabled_iff.mp enabled).1]
    exact .inl rfl
  | finish enabled =>
    obtain ⟨-, heos, -⟩ := State.finishEnabled_iff.mp enabled
    exact .inr ⟨heos, rfl⟩
  | scanMatch | phase | extract | emit | drop => exact .inl rfl

theorem BlockStep.running {s t : State} {i : Instr} (h : BlockStep s i t) (heos : s.eos = false) :
    t.st.running = true :=
  h.running_or_done.resolve_right fun hdone => by rw [hdone.1] at heos; cases heos

/-! ### A sample before the step (R127) -/

/-- A new sample leaves every one received before it alone. -/
theorem State.sampleAt_acceptSample (x : Sample) {s : State} {k : Nat} (hk : k < s.rcv) :
    Memory.sampleAt (s.acceptSample x).smp k = Memory.sampleAt s.smp k := by
  rw [State.acceptSample_smp]
  split
  · exact Memory.sampleAt_write_of_ne _ _ (Nat.ne_of_lt hk)
  · rfl

/-- A new sample joins the ones held (R41). -/
theorem State.WindowHeld.acceptSample {s : State} (h : s.WindowHeld) (x : Sample) : (s.acceptSample x).WindowHeld := by
  intro k hlow hhigh
  have hpos : s.pos ≤ s.rcv := Nat.le_of_lt_succ (Nat.lt_of_le_of_lt hlow hhigh)
  rw [State.acceptSample_smp, if_pos hpos]
  rcases Nat.lt_succ_iff_lt_or_eq.mp hhigh with hk | rfl
  · rw [Memory.read_write_of_ne _ _ (Nat.ne_of_lt hk)]
    exact h k hlow hk
  · rw [Memory.read_write_self]
    rfl

theorem State.patternHeld_acceptSample {s : State} (h : s.patternHeld = true) (x : Sample) :
    (s.acceptSample x).patternHeld = true :=
  State.patternHeld_iff.mpr (Nat.le_succ_of_le (State.patternHeld_iff.mp h))

theorem State.lookAheadHeld_acceptSample {s : State} (h : s.lookAheadHeld = true) (x : Sample) :
    (s.acceptSample x).lookAheadHeld = true :=
  State.lookAheadHeld_iff.mpr ((State.lookAheadHeld_iff.mp h).imp_left Nat.le_succ_of_le)

/-- A pattern window holds at least one sample (R97). -/
theorem SessionSizes.pos_lt_rcv {s : State} (h : SessionSizes s) (hheld : s.patternHeld = true) : s.pos < s.rcv := by
  have hthsize := h.thsize
  have hinside := h.windowInPattern
  have hreceived := State.patternHeld_iff.mp hheld
  omega

/-- A pattern test inside the pattern window does not read the new sample (R105, R107). -/
theorem patternMatch_acceptSample {s : State} (hsizes : SessionSizes s) (hheld : s.patternHeld = true) (x : Sample)
    (th : Int) {i : Nat} (hi : i < s.desc.stride) :
    patternMatch (s.acceptSample x).smp s.desc.stride th (s.pos + i) s.desc.pattern =
      patternMatch s.smp s.desc.stride th (s.pos + i) s.desc.pattern := by
  have hwindow := State.patternHeld_iff.mp hheld
  refine patternMatch_congr fun j hj => State.sampleAt_acceptSample x ?_
  rw [hsizes.pattern] at hj
  obtain ⟨-, hinside⟩ := strideIndices_bound (p := s.pos) hi (mem_strideIndices.mpr ⟨j, hj, rfl⟩)
  exact hinside.trans_le hwindow

/-- The threshold does not read the new sample (R103, R107). -/
theorem State.withThreshold_acceptSample {s : State} (hsizes : SessionSizes s) (hheld : s.patternHeld = true)
    (x : Sample) : (s.acceptSample x).withThreshold = s.withThreshold.acceptSample x := by
  have hwindow := State.patternHeld_iff.mp hheld
  have hsum : thresholdSum (s.acceptSample x).smp s.pos s.desc.thsize = thresholdSum s.smp s.pos s.desc.thsize :=
    thresholdSum_congr fun k _ hk => State.sampleAt_acceptSample x (by have := hsizes.windowInPattern; omega)
  simp only [State.withThreshold, State.acceptSample_pos, State.acceptSample_desc, hsum]
  rfl

/-- SCAN's test at `pos` does not read the new sample (R107). -/
theorem scanMatch_acceptSample {s : State} (hsizes : SessionSizes s) (hheld : s.patternHeld = true) (x : Sample) :
    patternMatch (s.acceptSample x).smp s.desc.stride (s.acceptSample x).withThreshold.th s.pos s.desc.pattern =
      patternMatch s.smp s.desc.stride s.withThreshold.th s.pos s.desc.pattern := by
  rw [State.withThreshold_acceptSample hsizes hheld x, State.acceptSample_th]
  exact patternMatch_acceptSample hsizes hheld x _ (i := 0) hsizes.stride

/-- SCAN stays enabled, with every sample it reads held (R107). -/
theorem scanEnabled_acceptSample {s : State} (hsizes : SessionSizes s) (hwindow : s.WindowHeld)
    (henabled : s.scanEnabled = true) (x : Sample) : (s.acceptSample x).scanEnabled = true ∧
      firstAbsent (s.acceptSample x).smp (scanReads (s.acceptSample x)) = none := by
  obtain ⟨hst, hheld⟩ := State.scanEnabled_iff.mp henabled
  have hstill := State.patternHeld_acceptSample hheld x
  exact ⟨State.scanEnabled_iff.mpr ⟨hst, hstill⟩, (hwindow.acceptSample x).scanReads hsizes.stride
    hsizes.windowInPattern (State.patternHeld_iff.mp hstill)⟩

/-- The sweep does not read the new sample (R109). -/
theorem phaseSweep_acceptSample {s : State} (hsizes : SessionSizes s) (hheld : s.patternHeld = true) (x : Sample) :
    phaseSweep (s.acceptSample x) = phaseSweep s :=
  List.map_congr_left fun _ hi => patternMatch_acceptSample hsizes hheld x _ (List.mem_range.mp hi)

/-- Where the look-ahead is held, the candidate's data do not read the new sample (R111). -/
theorem candidateData_acceptSample {s : State} (hahead : s.pos + s.desc.maxsize ≤ s.rcv) (x : Sample) :
    candidateData (s.acceptSample x) = candidateData s := by
  have hindices : candidateIndices (s.acceptSample x) = candidateIndices s := by
    have hend : (s.acceptSample x).lookAheadEnd = s.lookAheadEnd :=
      (Nat.min_eq_right (Nat.le_succ_of_le hahead)).trans (Nat.min_eq_right hahead).symm
    rw [candidateIndices, hend]
    rfl
  have hbytes : candidateBytes (s.acceptSample x) = candidateBytes s := by
    rw [candidateBytes, candidateBytes, hindices]
    congr 1
    refine List.map_congr_left fun k hk => ?_
    have hbelow : k < s.rcv := (mem_extractIndices hk).2.trans_le (Nat.min_le_left _ _)
    rw [sampleBit, sampleBit, State.sampleAt_acceptSample x hbelow]
    rfl
  rw [candidateData, candidateData, hbytes]
  rfl

/-- A move of the cursor that does not pass the samples received commutes with a new one (R41). -/
theorem State.moveTo_acceptSample {s : State} {p : Nat} (hpos : s.pos ≤ p) (hrcv : p ≤ s.rcv) (x : Sample) :
    (s.acceptSample x).moveTo p = (s.moveTo p).acceptSample x := by
  have hsmp : ((s.acceptSample x).moveTo p).smp = ((s.moveTo p).acceptSample x).smp := by
    rw [State.moveTo_smp, State.acceptSample_smp, State.acceptSample_smp, State.moveTo_pos, State.moveTo_rcv,
      if_pos (hpos.trans hrcv), if_pos hrcv, Memory.discard_write _ _ hrcv, State.moveTo_smp]
  exact congrArg (fun w => { (s.acceptSample x).moveTo p with smp := w }) hsmp

/-- A skip that does not pass the samples received commutes with a new one (R113). -/
theorem State.skipFrame_acceptSample {s : State} {skipBits : Nat} (hrcv : s.pos + skipBits * s.desc.stride ≤ s.rcv)
    (x : Sample) : (s.acceptSample x).skipFrame skipBits = (s.skipFrame skipBits).acceptSample x :=
  congrArg (fun t : State => { t with dBytes := [], st := .search })
    (State.moveTo_acceptSample (Nat.le_add_right _ _) hrcv x)

/-- Before the end of the stream a candidate in EXTRACT or PARSE has its whole look-ahead (R109). -/
theorem State.Inv.lookAhead_received {s : State} (h : s.Inv) (hst : s.st = .extract ∨ s.st = .parse)
    (heos : s.eos = false) : s.pos + s.desc.maxsize ≤ s.rcv := by
  have hcandidate := h.candidate (.inr hst)
  have hahead := hcandidate.lookAhead (by rcases hst with e | e <;> rw [e] <;> decide)
  exact (State.lookAheadHeld_iff.mp hahead).resolve_right (by simp [heos])

/-- A sample that is accepted before an internal step comes to the same as one accepted after it (R116). -/
theorem BlockStep.acceptSample {s t : State} {i : Instr} (h : BlockStep s i t) (hinv : s.Inv)
    (hready : s.sampleReady = true) (x : Sample) : BlockStep (s.acceptSample x) i (t.acceptSample x) := by
  obtain ⟨hrun, heos, -⟩ := State.sampleReady_iff.mp hready
  have hsizes : SessionSizes s := hinv.sizes (St.ne_idle_of_running hrun)
  have hwindow : (s.acceptSample x).WindowHeld := hinv.windowHeld.acceptSample x
  cases h with
  | scanMatch enabled size held hit =>
    have hheld := (State.scanEnabled_iff.mp enabled).2
    obtain ⟨hstill, hreads⟩ := scanEnabled_acceptSample hsizes hinv.windowHeld enabled x
    have hstep := BlockStep.scanMatch hstill size hreads ((scanMatch_acceptSample hsizes hheld x).trans hit)
    rwa [State.withThreshold_acceptSample hsizes hheld x] at hstep
  | scanMismatch enabled size held miss =>
    have hheld := (State.scanEnabled_iff.mp enabled).2
    obtain ⟨hstill, hreads⟩ := scanEnabled_acceptSample hsizes hinv.windowHeld enabled x
    have hstep := BlockStep.scanMismatch hstill size hreads ((scanMatch_acceptSample hsizes hheld x).trans miss)
    have hmoves := State.moveTo_acceptSample (s := s.withThreshold) (Nat.le_succ s.pos) (hsizes.pos_lt_rcv hheld) x
    rw [State.withThreshold_acceptSample hsizes hheld x] at hstep
    exact hmoves ▸ hstep
  | finish enabled =>
    obtain ⟨-, hended, -⟩ := State.finishEnabled_iff.mp enabled
    rw [hended] at heos
    cases heos
  | phase enabled held chosen =>
    obtain ⟨hst, hahead⟩ := State.phaseEnabled_iff.mp enabled
    have hheld : s.patternHeld = true := (hinv.candidate (.inl hst)).window
    have hreceived := State.patternHeld_iff.mp (State.patternHeld_acceptSample hheld x)
    exact .phase (s := s.acceptSample x)
      (State.phaseEnabled_iff.mpr ⟨hst, State.lookAheadHeld_acceptSample hahead x⟩) (hwindow.phaseReads hreceived)
      ((phaseSweep_acceptSample hsizes hheld x).symm ▸ chosen)
  | extract hst held =>
    have hstep := BlockStep.extract (s := s.acceptSample x) hst hwindow.candidateIndices
    rwa [candidateData_acceptSample (hinv.lookAhead_received (.inl hst) heos)] at hstep
  | @emit p hst parsed room =>
    have hskip := skip_le_maxsize hsizes (parseFrame_payload_length_le parsed)
    have hreceived := hinv.lookAhead_received (.inr hst) heos
    have hcommutes : (s.acceptSample x).emitPacket p = (s.emitPacket p).acceptSample x :=
      State.skipFrame_acceptSample (s := s.emit (packetBeats p)) (le_trans (Nat.add_le_add_left hskip _) hreceived) x
    exact hcommutes ▸ .emit (s := s.acceptSample x) hst parsed room
  | @drop c hst parsed =>
    have hskip := skip_le_maxsize hsizes (Nat.zero_le 255)
    have hreceived := hinv.lookAhead_received (.inr hst) heos
    have hcommutes : (s.acceptSample x).dropFrame c = (s.dropFrame c).acceptSample x :=
      State.skipFrame_acceptSample (s := s.recordDrop c) (le_trans (Nat.add_le_add_left hskip _) hreceived) x
    exact hcommutes ▸ .drop (s := s.acceptSample x) hst parsed

/-! ### The end of the stream before the step (R128) -/

/-- The end of the stream that is accepted before an internal step comes to the same as one accepted after it: of what
a step rests on it can only supply the look-ahead (R116). -/
theorem BlockStep.withEos {s t : State} {i : Instr} (h : BlockStep s i t) :
    BlockStep { s with eos := true } i { t with eos := true } := by
  cases h with
  | scanMatch enabled size held hit => exact .scanMatch (s := { s with eos := true }) enabled size held hit
  | scanMismatch enabled size held miss => exact .scanMismatch (s := { s with eos := true }) enabled size held miss
  | finish enabled =>
    obtain ⟨hst, -, hmissing⟩ := State.finishEnabled_iff.mp enabled
    exact .finish (s := { s with eos := true }) (State.finishEnabled_iff.mpr ⟨hst, rfl, hmissing⟩)
  | phase enabled held chosen =>
    obtain ⟨hst, -⟩ := State.phaseEnabled_iff.mp enabled
    exact .phase (s := { s with eos := true })
      (State.phaseEnabled_iff.mpr ⟨hst, State.lookAheadHeld_iff.mpr (.inr rfl)⟩) held chosen
  | extract hst held => exact .extract (s := { s with eos := true }) hst held
  | emit hst parsed room => exact .emit (s := { s with eos := true }) hst parsed room
  | drop hst parsed => exact .drop (s := { s with eos := true }) hst parsed

/-! ### A pop before the step (R130) -/

/-- The sink takes the head beat `b` (R130). -/
def State.takeBeat (b : Beat) (s : State) : State := { s with out := s.out.tail, popped := s.popped ++ [b] }

theorem State.takeBeat_of_cons {s : State} {b : Beat} {rest : List Beat} (hout : s.out = b :: rest) :
    s.takeBeat b = { s with out := rest, popped := s.popped ++ [b] } := by
  rw [State.takeBeat, hout, List.tail_cons]

/-- A pop makes room (R43). -/
theorem State.room_le_takeBeat (b : Beat) (s : State) : s.room ≤ (s.takeBeat b).room := by
  have hlength : (s.takeBeat b).out.length = s.out.length - 1 := List.length_tail
  have hparams : (s.takeBeat b).params = s.params := rfl
  rw [State.room, State.room, hlength, hparams]
  omega

/-- A packet goes in behind the beat that is popped (R113, R130). -/
theorem State.emitPacket_takeBeat {s : State} (hout : s.out ≠ []) (b : Beat) (p : Packet) :
    (s.takeBeat b).emitPacket p = (s.emitPacket p).takeBeat b := by
  have hbeats : s.out.tail ++ packetBeats p = (s.out ++ packetBeats p).tail :=
    (List.tail_append_of_ne_nil hout).symm
  exact congrArg (fun beats => { (s.takeBeat b).emitPacket p with out := beats }) hbeats

/-- A beat that is popped before an internal step comes to the same as one popped after it: a step reads of the FIFO
its room only, and writes behind what it holds (R116). -/
theorem BlockStep.takeBeat {s t : State} {i : Instr} (h : BlockStep s i t) (hout : s.out ≠ []) (b : Beat) :
    BlockStep (s.takeBeat b) i (t.takeBeat b) := by
  cases h with
  | scanMatch enabled size held hit => exact .scanMatch (s := s.takeBeat b) enabled size held hit
  | scanMismatch enabled size held miss => exact .scanMismatch (s := s.takeBeat b) enabled size held miss
  | finish enabled => exact .finish (s := s.takeBeat b) enabled
  | phase enabled held chosen => exact .phase (s := s.takeBeat b) enabled held chosen
  | extract hst held => exact .extract (s := s.takeBeat b) hst held
  | @emit p hst parsed room =>
    exact State.emitPacket_takeBeat hout b p ▸
      .emit (s := s.takeBeat b) hst parsed (room.trans (s.room_le_takeBeat b))
  | drop hst parsed => exact .drop (s := s.takeBeat b) hst parsed

/-! ### Determinism (R116) -/

/-- The source's handshakes still hold after an internal step: it ends no stream, leaves the running states only after
the end of one, and never adds to the occupancy (R118). -/
theorem BlockStep.eosReady {s t : State} {i : Instr} (h : BlockStep s i t) (hready : s.eosReady = true) :
    t.eosReady = true := by
  obtain ⟨-, heos⟩ := State.eosReady_iff.mp hready
  exact State.eosReady_iff.mpr ⟨h.running heos, h.frame.eos.trans heos⟩

theorem BlockStep.sampleReady {s t : State} {i : Instr} (h : BlockStep s i t) (hready : s.sampleReady = true) :
    t.sampleReady = true := by
  obtain ⟨-, heos, hroom⟩ := State.sampleReady_iff.mp hready
  have hocc : t.occ ≤ s.occ := by
    rw [State.occ, State.occ, h.frame.rcv]
    exact Nat.sub_le_sub_left h.frame.pos _
  exact State.sampleReady_iff.mpr
    ⟨h.running heos, h.frame.eos.trans heos, hocc.trans_lt (h.frame.params.symm ▸ hroom)⟩

/-- Settles O54: the step before which a transaction comes is a step of the block, and so is the one after it. -/
theorem internalStepsCommuteWithStreams : Obligations.InternalStepsCommuteWithStreams := by
  intro s t i hinv henabled hexec
  have hstep : BlockStep s i t := blockStep_iff.mpr ⟨henabled, hexec⟩
  refine ⟨fun x hready => ⟨hstep.sampleReady hready, blockStep_iff.mp (hstep.acceptSample hinv hready x)⟩,
    fun hready => ⟨hstep.eosReady hready, blockStep_iff.mp hstep.withEos⟩, fun b rest hout => ?pop⟩
  case pop =>
    obtain ⟨more, hmore⟩ := hstep.frame.out
    have hhead : t.out.head? = some b := by rw [← hmore, hout]; rfl
    have htake := hstep.takeBeat (by rw [hout]; exact List.cons_ne_nil b rest) b
    rw [State.takeBeat_of_cons hout] at htake
    exact ⟨hhead, blockStep_iff.mp htake⟩

end Sys2Proof.Machine
end

section
/-!
PROOFS. Termination (R117): after the end of the stream, with nothing pending, every step is the block's. A SCAN without
a match moves the cursor by one sample; a candidate costs three more steps and moves it past a frame. So four steps for
each sample still held are enough, and FINISH is the last.
-/
namespace Sys2Proof.Machine

/-! ### An enabled step always answers -/

/-- Under the invariant the enabled internal step reads held samples only, and PHASE finds a run (R107 to R113). -/
theorem State.Inv.exists_blockStep {s : State} {i : Instr} (h : s.Inv) (hi : s.blockInstr = some i) :
    ∃ t, BlockStep s i t := by
  have hsizes : SessionSizes s := h.sizes (St.ne_idle_of_running (State.running_of_blockInstr hi))
  have henabled := State.blockInstr_eq_some_iff.mp hi
  cases i with
  | scan =>
    have hreceived := State.patternHeld_iff.mp (State.scanEnabled_iff.mp henabled).2
    have hreads := h.windowHeld.scanReads hsizes.stride hsizes.windowInPattern hreceived
    have hsize : s.desc.thsize ≠ 0 := by have := hsizes.thsize; omega
    cases htest : patternMatch s.smp s.desc.stride s.withThreshold.th s.pos s.desc.pattern with
    | true => exact ⟨_, .scanMatch henabled hsize hreads htest⟩
    | false => exact ⟨_, .scanMismatch henabled hsize hreads htest⟩
  | finish => exact ⟨_, .finish henabled⟩
  | phase =>
    have hst := (State.phaseEnabled_iff.mp henabled).1
    have hcandidate := h.candidate (.inl hst)
    obtain ⟨-, hit⟩ := hcandidate.matched hst
    obtain ⟨a, b, hrun⟩ := exists_chosenRun_of_match hsizes.stride hit
    exact ⟨_, .phase henabled (h.windowHeld.phaseReads (State.patternHeld_iff.mp hcandidate.window)) hrun⟩
  | extract => exact ⟨_, .extract (State.extractEnabled_iff.mp henabled) h.windowHeld.candidateIndices⟩
  | parse =>
    obtain ⟨hst, hroom⟩ := State.parseEnabled_iff.mp henabled
    cases hparsed : s.parsed with
    | packet p => exact ⟨_, .emit hst hparsed (hroom p hparsed)⟩
    | drop c => exact ⟨_, .drop hst hparsed⟩
  | _ => cases henabled

/-! ### The block's default turn (log entry 1) -/

/-- With nothing pending and no turn decided, the step is the enabled internal one. -/
theorem step_of_nothing_pending {s : State} {i : Instr} (hinputs : s.inputs = Inputs.none) (hturns : s.turns = [])
    (hi : s.blockInstr = some i) : step s = exec i s := by
  have hready : ∀ a, agentReady s a = false := by
    intro a
    rw [agentReady, hinputs]
    cases a <;> rfl
  have hsame : ({ s with turns := [] } : State) = s := by rw [← hturns]
  rw [step_of_turns_nil hturns, defaultTurn_of_none_ready hready]
  have hblock := (blockTurnRunsEnabledStep { s with turns := [.block] } [] rfl).1 i hi
  rwa [hsame] at hblock

/-! ### A session that drains -/

/-- After the end of the stream, with nothing pending, no turn decided, and FIFO room for what the held samples can
still carry. -/
structure Draining (s : State) : Prop where
  inv : s.Inv
  eos : s.eos = true
  running : s.st.running = true
  inputs : s.inputs = Inputs.none
  turns : s.turns = []
  room : s.out.length + s.occ ≤ s.params.outFifoCap

/-- A packet's beats are no more than the bytes it was parsed from (R70, R100). -/
theorem parseFrame_beats_le {pktlen : Nat} {crcOn : Bool} {d : List Byte} {p : Packet}
    (h : parseFrame pktlen crcOn d = .packet p) : 1 + p.payload.length ≤ d.length := by
  cases d with
  | nil => cases h
  | cons b rest =>
    rw [parseFrame] at h
    split at h; · cases h
    split at h; · cases h
    split at h; · cases h
    cases h
    rw [List.length_cons, Nat.add_comm]
    exact Nat.succ_le_succ (List.length_take_le' _ _)

/-- A packet's beats are no more than the samples it was taken from (R111). -/
theorem State.Inv.beats_le_occ {s : State} {p : Packet} (h : s.Inv) (hparsed : s.parsed = .packet p) :
    1 + p.payload.length ≤ s.occ :=
  (parseFrame_beats_le hparsed).trans h.dataHeld

/-- A draining session always has an enabled step: no look-ahead and no FIFO room is missing (R108, R109, R113). -/
theorem Draining.exists_enabled {s : State} (h : Draining s) : ∃ i, s.blockInstr = some i := by
  cases hst : s.st with
  | search => rcases (internalStepGuards s).2.1 hst h.eos with e | e <;> exact ⟨_, e⟩
  | phase => exact ⟨_, (State.blockInstr_phase hst).trans (if_pos (State.lookAheadHeld_iff.mpr (.inr h.eos)))⟩
  | extract => exact ⟨_, State.blockInstr_extract hst⟩
  | parse =>
    have henabled : s.parseEnabled = true := by
      refine State.parseEnabled_iff.mpr ⟨hst, fun p hparsed => ?_⟩
      have hbeats := h.inv.beats_le_occ hparsed
      have hroom := h.room
      rw [State.room]
      omega
    exact ⟨_, (State.blockInstr_parse hst).trans (if_pos henabled)⟩
  | idle | done | srcErr =>
    have hrun := h.running
    rw [hst] at hrun
    cases hrun

/-- A draining session's step is a step of the block. -/
theorem Draining.exists_step {s : State} (h : Draining s) : ∃ i t, BlockStep s i t ∧ step s = .next t := by
  obtain ⟨i, hi⟩ := h.exists_enabled
  obtain ⟨t, ht⟩ := h.inv.exists_blockStep hi
  exact ⟨i, t, ht, (step_of_nothing_pending h.inputs h.turns hi).trans ht.exec_eq⟩

/-! ### The steps left -/

/-- A bound on the steps to DONE: in SEARCH four for each sample held, and FINISH; a candidate has used some already. -/
def State.stepsLeft (s : State) : Nat :=
  match s.st with
  | .search => 4 * s.occ + 1
  | .phase => 4 * s.occ
  | .extract => 4 * s.occ - 1
  | .parse => 4 * s.occ - 2
  | .idle | .done | .srcErr => 0

/-- PARSE skips more samples than the payload has bytes (R96, R113). -/
theorem SessionOpen.lt_skip {s : State} (h : SessionOpen s) (len : Nat) :
    len < (s.desc.baseSize + len) * 8 * s.desc.stride := by
  have hbase : 1 ≤ s.desc.baseSize := by
    rw [h.desc]
    simp only [buildDescriptor]
    omega
  have hstride := Nat.le_mul_of_pos_right ((s.desc.baseSize + len) * 8) h.sizes.stride
  omega

/-- A candidate holds at least one sample (R107). -/
theorem State.Inv.occ_pos_of_candidate {s : State} (h : s.Inv) (hst : s.st = .phase ∨ s.st = .extract ∨ s.st = .parse) :
    0 < s.occ := by
  have hne : s.st ≠ .idle := by rcases hst with e | e | e <;> rw [e] <;> decide
  exact Nat.sub_pos_of_lt ((h.sizes hne).pos_lt_rcv (h.candidate hst).window)

/-- A skip from the candidate's start gives back the steps its candidate has used. -/
theorem occ_skipFrame_lt {s : State} {skipBits : Nat} (hocc : 0 < s.occ) (hskip : 0 < skipBits * s.desc.stride) :
    (s.skipFrame skipBits).occ < s.occ := by
  rw [State.occ] at hocc
  rw [State.occ, State.occ, State.skipFrame_rcv, State.skipFrame_pos]
  omega

/-- Each step of a session with the invariant brings DONE nearer. -/
theorem BlockStep.stepsLeft_lt {s t : State} {i : Instr} (h : BlockStep s i t) (hinv : s.Inv) :
    t.stepsLeft < s.stepsLeft := by
  cases h with
  | scanMatch enabled =>
    have hst := (State.scanEnabled_iff.mp enabled).1
    simp only [State.stepsLeft, hst]
    exact Nat.lt_succ_self _
  | scanMismatch enabled =>
    obtain ⟨hst, hheld⟩ := State.scanEnabled_iff.mp enabled
    have hlt := (hinv.sizes (by rw [hst]; decide)).pos_lt_rcv hheld
    simp only [State.stepsLeft, State.moveTo_st, State.withThreshold_st, hst, State.occ, State.moveTo_rcv,
      State.moveTo_pos, State.withThreshold_rcv]
    omega
  | finish enabled =>
    have hst := (State.finishEnabled_iff.mp enabled).1
    simp only [State.stepsLeft, hst]
    exact Nat.succ_pos _
  | phase enabled =>
    have hst := (State.phaseEnabled_iff.mp enabled).1
    have hocc := hinv.occ_pos_of_candidate (.inl hst)
    simp only [State.stepsLeft, hst]
    show 4 * s.occ - 1 < 4 * s.occ
    omega
  | extract hst =>
    have hocc := hinv.occ_pos_of_candidate (.inr (.inl hst))
    simp only [State.stepsLeft, hst]
    show 4 * s.occ - 2 < 4 * s.occ - 1
    omega
  | @emit p hst =>
    have hocc := hinv.occ_pos_of_candidate (.inr (.inr hst))
    have hskip := (hinv.session (by rw [hst]; decide)).lt_skip p.payload.length
    have hless : (s.emitPacket p).occ < s.occ :=
      occ_skipFrame_lt (s := s.emit (packetBeats p)) hocc (Nat.zero_lt_of_lt hskip)
    simp only [State.stepsLeft, State.emitPacket_st, hst]
    omega
  | @drop c hst =>
    have hocc := hinv.occ_pos_of_candidate (.inr (.inr hst))
    have hskip := (hinv.session (by rw [hst]; decide)).lt_skip 0
    have hless : (s.dropFrame c).occ < s.occ := occ_skipFrame_lt (s := s.recordDrop c) hocc hskip
    simp only [State.stepsLeft, State.dropFrame_st, hst]
    omega

/-- What a packet adds to the FIFO it takes from the window, so the room stays enough (R70, R113). -/
theorem State.Inv.emitPacket_room {s : State} {p : Packet} (h : s.Inv) (hst : s.st = .parse)
    (hparsed : s.parsed = .packet p) : (s.emitPacket p).out.length + (s.emitPacket p).occ ≤ s.out.length + s.occ := by
  have hbeats := h.beats_le_occ hparsed
  have hskip := (h.session (by rw [hst]; decide)).lt_skip p.payload.length
  rw [State.emitPacket_out, List.length_append, packetBeats_length, State.occ, State.emitPacket_rcv,
    State.emitPacket_pos]
  rw [State.occ] at hbeats ⊢
  omega

/-- No step of the block adds more to the FIFO than it takes from the window. -/
theorem BlockStep.room {s t : State} {i : Instr} (h : BlockStep s i t) (hinv : s.Inv) :
    t.out.length + t.occ ≤ s.out.length + s.occ := by
  have hocc : t.occ ≤ s.occ := by
    rw [State.occ, State.occ, h.frame.rcv]
    exact Nat.sub_le_sub_left h.frame.pos _
  cases h with
  | emit hst parsed => exact hinv.emitPacket_room hst parsed
  | scanMatch | scanMismatch | finish | phase | extract | drop => exact Nat.add_le_add_left hocc _

/-- A session that drains goes on draining until DONE. -/
theorem Draining.next {s t : State} {i : Instr} (h : Draining s) (hstep : BlockStep s i t) (hnext : step s = .next t) :
    t.st = .done ∨ Draining t := by
  have hframe := hstep.frame
  rcases hstep.running_or_done with hrun | ⟨-, hdone⟩
  · exact .inr
      { inv := stepKeepsInvariant s t h.inv hnext
        eos := hframe.eos.trans h.eos
        running := hrun
        inputs := hframe.inputs.trans h.inputs
        turns := hframe.turns.trans h.turns
        room := (hstep.room h.inv).trans (hframe.params.symm ▸ h.room) }
  · exact .inl hdone

/-- A session that drains reaches DONE, by induction on the steps left. -/
theorem Draining.reaches_done {s : State} (h : Draining s) :
    ∃ (k : Nat) (t : State), k ≤ s.stepsLeft ∧ Host.Core.run Sys2Proof.core k s = .next t ∧ t.st = .done := by
  induction hn : s.stepsLeft using Nat.strong_induction_on generalizing s with
  | _ n ih =>
    subst hn
    obtain ⟨i, t, hstep, hnext⟩ := h.exists_step
    have hless := hstep.stepsLeft_lt h.inv
    rcases h.next hstep hnext with hdone | hdraining
    · exact ⟨1, t, Nat.zero_lt_of_lt hless, core_run_succ 0 hnext, hdone⟩
    · obtain ⟨k, u, hk, hrun, hdone⟩ := ih _ hless hdraining rfl
      exact ⟨k + 1, u, Nat.lt_of_le_of_lt hk hless, (core_run_succ k hnext).trans hrun, hdone⟩

/-- Settles O55: the session drains, and the steps left are within the bound. -/
theorem runAfterEosReachesDone : Obligations.RunAfterEosReachesDone := by
  intro s hinv heos hrun hinputs hturns hroom
  have hdraining : Draining s := ⟨hinv, heos, hrun, hinputs, hturns, hroom⟩
  obtain ⟨k, t, hk, hreach, hdone⟩ := hdraining.reaches_done
  have hbound : s.stepsLeft ≤ 4 * s.occ + 4 := by
    unfold State.stepsLeft
    split <;> omega
  exact ⟨k, t, hk.trans hbound, hreach, hdone⟩

end Sys2Proof.Machine
end

section
/-!
PROOFS. The ports (R118 to R130): the registers by their offsets, what REG_READ shows and REG_WRITE does at each, the
session commands, and the stream transactions with their handshakes.
-/
namespace Sys2Proof.Machine

/-! ### Offsets (R19, R45) -/

/-- A register stands at its offset and nowhere else (R19). -/
theorem eq_regOffset_of_regAt {a : BitVec 8} {r : Reg} (h : regAt a = some r) : a = regOffset r := by
  unfold regAt at h
  split at h
  case h_24 => cases h
  all_goals cases h; exact BitVec.eq_of_toNat_eq ‹_›

/-- The offsets without a register are the misaligned ones and those past PARAM2 (R45). -/
theorem regAt_eq_none_iff (a : BitVec 8) : regAt a = none ↔ a &&& 3 ≠ 0 ∨ 0x5C ≤ a.toNat := by
  revert a
  decide

/-! ### STATUS (R22, R120) -/

/-- A number below bit `k` and a word shifted to bit `k` do not overlap. -/
theorem ofNat_or_shiftLeft {k x : Nat} (hx : x < 2 ^ k) (y : Nat) :
    BitVec.ofNat 32 x ||| (BitVec.ofNat 32 y <<< k) = BitVec.ofNat 32 (x + 2 ^ k * y) := by
  refine BitVec.eq_of_toNat_eq ?_
  rw [BitVec.toNat_or, BitVec.toNat_shiftLeft, BitVec.toNat_ofNat, BitVec.toNat_ofNat, BitVec.toNat_ofNat,
    Nat.shiftLeft_eq, Nat.mod_mul_mod, ← Nat.or_mod_two_pow, Nat.lor_comm, Nat.mul_comm,
    ← Nat.two_pow_add_eq_or_of_lt hx, Nat.add_comm]

/-- STATE has three bits (R20, R22). -/
theorem St.code_lt (st : St) : st.code < 8 := by
  cases st <;> decide

/-- `bool(c)` as a word is the number of `c` (R14). -/
theorem flagWord_eq_ofNat (c : Bool) : flagWord c = BitVec.ofNat 32 c.toNat := by
  cases c <;> rfl

/-- STATUS.OUT_VALID says that the FIFO is not empty (R22). -/
theorem State.outValid_eq_decide (s : State) : s.outValid = decide (0 < s.out.length) := by
  cases h : s.out <;> simp [State.outValid, h]

/-- STATUS as a number: each field times the weight of its lowest bit (R22). -/
theorem State.statusWord_eq_ofNat (s : State) :
    s.statusWord =
      BitVec.ofNat 32 (s.st.code + 8 * s.eos.toNat + 16 * s.srcErr.toNat + 32 * (decide (0 < s.out.length)).toNat
        + 256 * s.cfgErr.toNat + 4096 * s.werr.toNat + 8192 * s.cmdErr.toNat) := by
  have hcode := s.st.code_lt
  have heos := s.eos.toNat_le
  have hsrc := s.srcErr.toNat_le
  have hout := (decide (0 < s.out.length)).toNat_le
  have hcfg := s.cfgErr.isLt
  have hwerr := s.werr.toNat_le
  rw [State.statusWord, State.outValid_eq_decide, ← BitVec.ofNat_toNat]
  simp only [flagWord_eq_ofNat]
  rw [ofNat_or_shiftLeft (by omega), ofNat_or_shiftLeft (by omega), ofNat_or_shiftLeft (by omega),
    ofNat_or_shiftLeft (by omega), ofNat_or_shiftLeft (by omega), ofNat_or_shiftLeft (by omega)]
  rfl

/-! ### Register transactions (R119, R120) -/

/-- Settles O12: an offset without a register reads 0; each register's own value is the one listed, and STATUS's fields
do not overlap. -/
theorem registerReadValue : Obligations.RegisterReadValue := by
  rintro a s v rfl
  show execRd a s = _
  cases hreg : regAt a with
  | none => rw [execRd, State.readAddr, hreg, if_pos ((regAt_eq_none_iff a).mp hreg)]
  | some r =>
    rw [execRd, State.readAddr, hreg]
    obtain rfl := eq_regOffset_of_regAt hreg
    cases r with
    | status => exact congrArg (fun v => Host.Outcome.next { s with rdata := v }) s.statusWord_eq_ofNat
    | _ => rfl

/-- The configuration lock (R46) as REG_WRITE answers it. -/
theorem State.next_writeConfig (s s' : State) : (.next (s.writeConfig s') : Result) =
    if s.st ≠ .idle then .next { s with werr := true } else .next s' :=
  apply_ite Host.Outcome.next _ _ _

/-- Settles O13: a write is ignored where there is no register; CTRL runs its command, CFG0 to CFG2 go through the lock,
the two codec registers take their bits, and every other register is read-only. -/
theorem registerWriteEffect : Obligations.RegisterWriteEffect := by
  intro a w s
  show execWr a w s = _
  cases hreg : regAt a with
  | none => rw [execWr, hreg, if_pos ((regAt_eq_none_iff a).mp hreg), State.raise_ignoredWrite]
  | some r =>
    rw [execWr, hreg]
    obtain rfl := eq_regOffset_of_regAt hreg
    cases r with
    | ctrl => exact execCommand_eq_exec w s
    | cfg0 | cfg1 | cfg2 => exact s.next_writeConfig _
    | crcReg | whtReg => rw [BitVec.setWidth_eq_extractLsb' (by decide)]; rfl
    | _ => rfl

/-! ### Session and report commands (R122 to R126) -/

/-- Settles O27: NOP changes nothing, ABORT closes the session, CLRERR and CLRCNT clear their fields, and each reserved
code raises the command error. -/
theorem sessionCommandEffects : Obligations.SessionCommandEffects := by
  intro s
  have hreserved : (.next (s.raise .command) : Result) = .next { s with cmdErr := true } := by rw [State.raise_command]
  exact ⟨rfl, rfl, rfl, rfl, hreserved, hreserved, hreserved, hreserved, hreserved⟩

/-! ### A transaction that stays pending (R118) -/

/-- It becomes the next one its agent offers, and what the agent has issued since waits behind it (R55). -/
theorem State.keepPending_eq_setQueue {i : Instr} {r : Record} {a : Agent} (hencode : encode i = some r)
    (hagent : recordAgent r = a) (s : State) :
    s.keepPending i = { s with inputs := s.inputs.setQueue a (r :: s.inputs.queue a) } := by
  simp only [State.keepPending, hencode, State.offerFirst, hagent]

/-- A SAMPLE is issued by the source, whatever sample it carries (R7). -/
theorem recordAgent_sample (d : Word) : recordAgent (mkRecord 3 0 d) = .source := by
  rw [recordAgent, recordPort, recordKind_mkRecord]
  rfl

theorem State.keepPending_sampleRecord (d : Word) (s : State) :
    s.keepPending (.smp d) = { s with inputs := { s.inputs with source := mkRecord 3 0 d :: s.inputs.source } } :=
  State.keepPending_eq_setQueue (a := .source) rfl (recordAgent_sample d) s

theorem State.keepPending_eosRecord (s : State) :
    s.keepPending .eos = { s with inputs := { s.inputs with source := mkRecord 4 0 0 :: s.inputs.source } } :=
  State.keepPending_eq_setQueue (a := .source) rfl rfl s

theorem State.keepPending_popRecord (s : State) :
    s.keepPending .pop = { s with inputs := { s.inputs with sink := mkRecord 6 0 0 :: s.inputs.sink } } :=
  State.keepPending_eq_setQueue (a := .sink) rfl rfl s

/-! ### Stream transactions (R127 to R130) -/

/-- A SAMPLE whose handshake holds is accepted (R127). -/
theorem exec_smp_of_ready {s : State} {d : Word} {x : Sample} (hoperand : sampleOperand s.params d = some x)
    (hready : s.sampleReady = true) : exec (.smp d) s = .next (s.acceptSample x) := by
  simp only [exec, execSmp, hoperand, if_pos hready]

/-- A SAMPLE whose handshake does not hold stays pending (R118; log entry 3). -/
theorem exec_smp_of_not_ready {s : State} {d : Word} {x : Sample} (hoperand : sampleOperand s.params d = some x)
    (hready : ¬ s.sampleReady = true) :
    exec (.smp d) s = .next { s with inputs := { s.inputs with source := mkRecord 3 0 d :: s.inputs.source } } := by
  have hpending : execSmp d s = .next (s.keepPending (.smp d)) := by simp only [execSmp, hoperand, if_neg hready]
  exact hpending.trans (congrArg Host.Outcome.next (s.keepPending_sampleRecord d))

/-- Settles O29: `s_ready` is the three conditions; the accepted sample is written at `rcv`, or nowhere. -/
theorem sampleEffect : Obligations.SampleEffect := by
  intro s d x hoperand
  constructor
  · intro hrun heos hroom
    have hready : s.sampleReady = true := State.sampleReady_iff.mpr ⟨hrun, heos, hroom⟩
    refine ⟨s.acceptSample x, exec_smp_of_ready hoperand hready, rfl, ?stored, ?discarded, ?others⟩
    case stored =>
      intro hpos
      rw [State.acceptSample_smp, if_pos hpos, Memory.read_write_self]
    case discarded =>
      intro hpos
      rw [State.acceptSample_smp, if_neg (Nat.not_le.mpr hpos)]
    case others =>
      intro k hk
      rw [State.acceptSample_smp]
      split
      · exact Memory.read_write_of_ne s.smp x hk
      · rfl
  · intro hwait
    refine exec_smp_of_not_ready hoperand fun hready => ?_
    obtain ⟨hrun, heos, hroom⟩ := State.sampleReady_iff.mp hready
    rcases hwait with hstopped | hended | hfull
    · exact absurd hrun (by simp [hstopped])
    · exact absurd hended (by simp [heos])
    · exact absurd hroom (Nat.not_lt.mpr hfull)

/-- Settles O30: `s_ready` for EOS is the two conditions, without the occupancy. -/
theorem eosEffect : Obligations.EosEffect := by
  intro s
  constructor
  · intro hrun heos
    exact if_pos (State.eosReady_iff.mpr ⟨hrun, heos⟩)
  · intro hwait
    have hready : ¬ s.eosReady = true := by
      rw [State.eosReady_iff]
      rintro ⟨hrun, heos⟩
      simp [hrun, heos] at hwait
    exact (if_neg hready).trans (congrArg Host.Outcome.next s.keepPending_eosRecord)

/-- The running states, by name (00_scope.md, glossary). -/
theorem St.running_iff {st : St} :
    st.running = true ↔ st = .search ∨ st = .phase ∨ st = .extract ∨ st = .parse := by
  cases st <;> decide

/-- The states without a running session, by name. -/
theorem St.not_running_iff {st : St} : ¬ st.running = true ↔ st = .idle ∨ st = .done ∨ st = .srcErr := by
  cases st <;> decide

/-- Settles O31: SRC_ERR acts in the running states and in no other. -/
theorem sourceErrorEffect : Obligations.SourceErrorEffect := by
  intro s
  constructor
  · intro hst
    exact (if_pos (St.running_iff.mpr hst)).trans (congrArg Host.Outcome.next s.raise_source)
  · intro hst
    exact if_neg (St.not_running_iff.mpr hst)

/-- Settles O32: the FIFO holds a head beat, or it is empty. -/
theorem popEffect : Obligations.PopEffect := by
  intro s
  constructor
  · intro b rest hout
    simp only [exec, execPop, hout]
  · intro hout
    have hpending : execPop s = .next (s.keepPending .pop) := by simp only [execPop, hout]
    exact hpending.trans (congrArg Host.Outcome.next s.keepPending_popRecord)

end Sys2Proof.Machine
end

section
/-!
PROOFS. No fault (R138, 60_exceptions.md section 1): under the invariant the block's turn answers a next state, and an
agent's turn is refused only for a record that is not well formed (R63). A turn that nothing has decided is the
machine's own choice of one.
-/
namespace Sys2Proof.Machine

/-- A step takes the turn that is next, decided or not (R55; log entry 1). -/
theorem step_of_nextTurn (s : State) : step s = step { s with turns := (nextTurn s).1 :: (nextTurn s).2 } := rfl

/-- The turn of an agent that offers nothing waits (R118). -/
theorem step_of_empty_queue {s : State} {a : Agent} {ts : List Turn} (hturns : s.turns = .agent a :: ts)
    (hqueue : s.inputs.queue a = []) : step s = .next { s with turns := ts } := by
  simp only [step, fetch_of_turns_cons hturns, fetchTurn, hqueue]

/-- Under the invariant the block's turn never faults: the enabled internal step answers, or the block waits. -/
theorem State.Inv.exists_next_of_block_turn {s : State} {ts : List Turn} (h : s.Inv) (hturns : s.turns = .block :: ts) :
    ∃ t, step s = .next t := by
  obtain ⟨hrun, hwait⟩ := blockTurnRunsEnabledStep s ts hturns
  cases hblock : s.blockInstr with
  | none => exact ⟨_, hwait hblock⟩
  | some i =>
    have hinv : ({ s with turns := ts } : State).Inv := h.of_withoutPorts_eq rfl
    obtain ⟨t, hstep⟩ := hinv.exists_blockStep (i := i) hblock
    exact ⟨t, (hrun i hblock).trans hstep.exec_eq⟩

/-- An agent's turn answers, in every state, unless it refuses the record it takes as not well formed (R63). -/
theorem exists_next_or_refused_of_agent_turn {s : State} {a : Agent} {ts : List Turn}
    (hturns : s.turns = .agent a :: ts) :
    (∃ t, step s = .next t) ∨
    ∃ r rest why, s.inputs.queue a = r :: rest ∧ ¬ RecordWellFormed s.params r ∧ step s = .refused why := by
  obtain ⟨-, hrefused, hnext⟩ := recordsRefusedExactlyIfIllFormed
  cases hqueue : s.inputs.queue a with
  | nil => exact .inl ⟨_, step_of_empty_queue hturns hqueue⟩
  | cons r rest =>
    by_cases hwell : RecordWellFormed s.params r
    · exact .inl (hnext s a ts r rest hturns hqueue hwell)
    · obtain ⟨why, hstep⟩ := hrefused s a ts r rest hturns hqueue hwell
      exact .inr ⟨r, rest, why, rfl, hwell, hstep⟩

/-- Settles O50, by whose turn is next; the invariant is needed for the block's. -/
theorem invariantStepNeverFaults : Obligations.InvariantStepNeverFaults := by
  intro s hinv
  rw [step_of_nextTurn s]
  cases (nextTurn s).1 with
  | block =>
    have hdecided : ({ s with turns := .block :: (nextTurn s).2 } : State).Inv := hinv.of_withoutPorts_eq rfl
    exact .inl (hdecided.exists_next_of_block_turn rfl)
  | agent a =>
    refine (exists_next_or_refused_of_agent_turn rfl).imp_right ?_
    rintro ⟨r, rest, why, hqueue, hill, hstep⟩
    exact ⟨a, r, rest, why, rfl, hqueue, hill, hstep⟩

end Sys2Proof.Machine
end

section
/-!
PROOFS. The port errors (R121, R137): what an instruction does to WERR and CMDERR, said once, with its cause.
-/
namespace Sys2Proof.Machine

/-- What makes a command an error: a reserved code, or START outside IDLE (R98, R126, R137). -/
def CommandErrorCause (s : State) (i : Instr) : Prop :=
  i = .reserved5 ∨ i = .reserved6 ∨ i = .reserved7 ∨ i = .reservedE ∨ i = .reservedF ∨ (i = .start ∧ s.st ≠ .idle)

/-- The outcomes of an instruction for WERR and CMDERR. -/
inductive PortErrorEffect (s : State) : Instr → State → Prop
  /-- Neither is touched. -/
  | kept {i : Instr} {t : State} (werr : t.werr = s.werr) (cmdErr : t.cmdErr = s.cmdErr) : PortErrorEffect s i t
  /-- A register write is ignored (R45, R46). -/
  | ignoredWrite {a : BitVec 8} {w : Word} : PortErrorEffect s (.wr a w) { s with werr := true }
  /-- R121. -/
  | command {i : Instr} (cause : CommandErrorCause s i) : PortErrorEffect s i { s with cmdErr := true }
  /-- R124. -/
  | clrerr : PortErrorEffect s .clrerr s.clearErrors
  /-- R153. -/
  | reset : PortErrorEffect s .reset s.resetBlock

/-- No outcome of an internal step touches the port errors (R137). -/
theorem BlockStep.portErrorEffect {s t : State} {i : Instr} (h : BlockStep s i t) : PortErrorEffect s i t := by
  cases h with
  | scanMatch | scanMismatch | finish | phase | extract | emit | drop => exact .kept rfl rfl

/-- An internal step is one of its outcomes, or changes nothing (log entry 15). -/
theorem portErrorEffect_of_isInternal {i : Instr} {s t : State} (hi : i.isInternal = true) (h : exec i s = .next t) :
    PortErrorEffect s i t := by
  cases henabled : s.enables i with
  | true => exact (blockStep_of_exec henabled h).portErrorEffect
  | false =>
    cases (exec_of_not_enables hi henabled).symm.trans h
    exact .kept rfl rfl

/-- A transaction that stays pending leaves both port errors (R118). -/
theorem PortErrorEffect.keepPending (i : Instr) (s : State) : PortErrorEffect s i (s.keepPending i) :=
  .kept (s.keepPending_werr i) (s.keepPending_cmdErr i)

/-- A register write outside CTRL sets WERR, or writes a register and leaves both port errors (R119). -/
theorem portErrorEffect_of_execWr {a : BitVec 8} {w : Word} {s t : State} (ha : regAt a ≠ some .ctrl)
    (h : execWr a w s = .next t) : PortErrorEffect s (.wr a w) t := by
  rcases execWr_next ha h with rfl | ⟨_, _, rfl⟩ | ⟨_, _, rfl⟩ | ⟨_, _, rfl⟩ | ⟨_, rfl⟩ | ⟨_, rfl⟩
  · exact .ignoredWrite
  all_goals exact .kept rfl rfl

/-- Every instruction but a write to CTRL has one of the listed outcomes. -/
theorem portErrorEffect_of_exec {i : Instr} {s t : State} (hi : ∀ a w, i = .wr a w → regAt a ≠ some .ctrl)
    (h : exec i s = .next t) : PortErrorEffect s i t := by
  cases i
  case reset => cases h; exact .reset
  case clrerr => cases h; exact .clrerr
  case wr a w => exact portErrorEffect_of_execWr (hi a w rfl) h
  case start =>
    rcases execStart_next h with ⟨hst, rfl⟩ | ⟨_, _, rfl⟩ | ⟨_, _, rfl⟩
    · exact .command (by simp [CommandErrorCause, hst])
    · exact .kept rfl rfl
    · exact .kept rfl rfl
  case reserved5 | reserved6 | reserved7 | reservedE | reservedF =>
    cases h
    exact .command (by simp [CommandErrorCause])
  case smp d =>
    rcases execSmp_next h with ⟨_, _, _, rfl⟩ | ⟨_, rfl⟩
    · exact .kept rfl rfl
    · exact .keepPending _ s
  case eos =>
    rcases execEos_next h with ⟨_, rfl⟩ | ⟨_, rfl⟩
    · exact .kept rfl rfl
    · exact .keepPending _ s
  case pop =>
    rcases execPop_next h with ⟨_, _, _, rfl⟩ | ⟨_, rfl⟩
    · exact .kept rfl rfl
    · exact .keepPending _ s
  case srcerr => rcases execSrcerr_next h with ⟨_, rfl⟩ | ⟨_, rfl⟩ <;> exact .kept rfl rfl
  case scan | finish | phase | extract | parse => exact portErrorEffect_of_isInternal rfl h
  case reservedKind => cases h
  case rd | nop | abort | clrcnt | crcInit | crcByte | whtInit | whtStep | whtXor | crcTest =>
    cases h
    exact .kept rfl rfl

/-- The two port errors are sticky but for CLRERR and RESET (R121, R124). -/
theorem PortErrorEffect.sticky {i : Instr} {s t : State} (e : PortErrorEffect s i t) (hc : i ≠ .clrerr)
    (hr : i ≠ .reset) : (s.werr = true → t.werr = true) ∧ (s.cmdErr = true → t.cmdErr = true) := by
  cases e with
  | kept werr cmdErr => exact ⟨werr.trans, cmdErr.trans⟩
  | ignoredWrite => exact ⟨fun _ => rfl, id⟩
  | command => exact ⟨id, fun _ => rfl⟩
  | clrerr => exact absurd rfl hc
  | reset => exact absurd rfl hr

/-- WERR rises by an ignored register write only, which does nothing else (R137). -/
theorem PortErrorEffect.werr_rises {i : Instr} {s t : State} (e : PortErrorEffect s i t) (hs : s.werr = false)
    (ht : t.werr = true) : (∃ a w, i = .wr a w) ∧ t = { s with werr := true } := by
  cases e with
  | ignoredWrite => exact ⟨⟨_, _, rfl⟩, rfl⟩
  | kept werr => exact absurd (werr.symm.trans ht) (by simp [hs])
  | command => exact absurd ht (by simp [hs])
  | clrerr | reset => cases ht

/-- CMDERR rises by a command error only, which does nothing else (R137). -/
theorem PortErrorEffect.cmdErr_rises {i : Instr} {s t : State} (e : PortErrorEffect s i t) (hs : s.cmdErr = false)
    (ht : t.cmdErr = true) : CommandErrorCause s i ∧ t = { s with cmdErr := true } := by
  cases e with
  | command cause => exact ⟨cause, rfl⟩
  | kept _ cmdErr => exact absurd (cmdErr.symm.trans ht) (by simp [hs])
  | ignoredWrite => exact absurd ht (by simp [hs])
  | clrerr | reset => cases ht

/-- Settles O59: each clause is read off the outcomes for WERR and CMDERR. -/
theorem portErrorsAreSticky : Obligations.PortErrorsAreSticky := by
  intro i s t hi h
  have e : PortErrorEffect s i t := portErrorEffect_of_exec (regAt_ne_ctrl_of_wellFormed hi) h
  refine ⟨e.sticky, ?cleared, e.werr_rises, e.cmdErr_rises⟩
  rintro (rfl | rfl) <;> cases h <;> exact ⟨rfl, rfl⟩

end Sys2Proof.Machine
end

section
/-!
PROOFS. Reset and the end of a run (70_reset_and_hazards.md section 1, R8, R152 to R155): what no outcome of a step
changes, the values every register has after RESET, and the ports where no session runs and the FIFO is empty.
-/
namespace Sys2Proof.Machine

/-! ### The parameters (R8 to R11) -/

theorem params_eq_of_withoutPorts {s t : State} (h : t.withoutPorts = s.withoutPorts) : t.params = s.params :=
  (congrArg State.params h :)

/-- No outcome of an instruction changes the parameters, RESET's among them (R153). -/
theorem Effect.params_eq {i : Instr} {s t : State} (e : Effect s i t) : t.params = s.params := by
  cases e with
  | quiet same => exact params_eq_of_withoutPorts same
  | reset => exact State.resetBlock_params s
  | startOpens => exact State.openSession_params s
  | abort => exact State.closeSession_params s
  | clrerr => exact State.clearErrors_params s
  | sample => exact State.acceptSample_params _ s
  | config | startRefused | clrcnt | eos | srcerr | pop | scanMatch | scanMismatch | finish | phase | extract | emit
  | drop => rfl

/-- Settles O51: whatever a step does is one of the listed outcomes, after a fetch that changes `inputs` and `turns`
only. -/
theorem stepKeepsParameters : Obligations.StepKeepsParameters := by
  intro s t hstep
  obtain ⟨q, ts, j, e⟩ := effect_of_step hstep
  exact e.params_eq

/-! ### RESET (R152, R153) -/

/-- No session is open after reset. -/
theorem sessionClear_reset : SessionClear State.reset := by
  constructor <;> rfl

/-- STATUS is 0 after RESET: IDLE, and no flag or error code (R22, R153). -/
@[simp] theorem State.resetBlock_statusWord (s : State) : s.resetBlock.statusWord = 0 := by
  have hreset : State.reset.statusWord = 0 := by decide
  exact hreset

/-- PHASE is 0 after RESET (R28, R153). -/
@[simp] theorem State.resetBlock_phaseWord (s : State) : s.resetBlock.phaseWord = 0 := by
  have hreset : State.reset.phaseWord = 0 := by decide
  exact hreset

/-- Every register after RESET: the seeds of the two codec registers, the parameters, and 0 elsewhere (R153). -/
theorem State.resetBlock_readReg (s : State) (r : Reg) :
    s.resetBlock.readReg r =
      if r = .crcReg then 0x0000FFFF else if r = .whtReg then 0x000001FF
      else if r = .param0 ∨ r = .param1 ∨ r = .param2 then s.readReg r else 0 := by
  cases r with
  | status => exact s.resetBlock_statusWord
  | phase => exact s.resetBlock_phaseWord
  | _ => rfl

/-- "RESET right after RESET is a no-op" (70_reset_and_hazards.md section 1). -/
@[simp] theorem State.resetBlock_resetBlock (s : State) : s.resetBlock.resetBlock = s.resetBlock := rfl

/-- RESET is accepted in every state (R152). -/
theorem exec_reset (s : State) : exec .reset s = .next s.resetBlock := rfl

/-! ### The handshakes where no session runs (R118) -/

theorem State.eosReady_of_not_running {s : State} (hrun : s.st.running = false) : s.eosReady = false := by
  simp [State.eosReady, hrun]

theorem State.sampleReady_of_not_running {s : State} (hrun : s.st.running = false) : s.sampleReady = false := by
  simp [State.sampleReady, hrun]

/-- `p_valid` needs a beat in the FIFO (R118, R130). -/
theorem State.popReady_of_out_nil {s : State} (hout : s.out = []) : s.popReady = false := by
  simp [State.popReady, State.outValid, hout]

/-- Settles O28: IDLE is no running state and the FIFO is empty, so both handshakes are down. -/
theorem resetEffect : Obligations.ResetEffect := by
  intro s
  have hrun : s.resetBlock.st.running = false := rfl
  have hout : s.resetBlock.out = [] := rfl
  refine ⟨s.resetBlock, exec_reset s, rfl, rfl, rfl, rfl, rfl, rfl, rfl, rfl, rfl, rfl, rfl, rfl, rfl, hout, rfl,
    s.resetBlock_readReg, rfl, State.sampleReady_of_not_running hrun, State.popReady_of_out_nil hout, ?again⟩
  case again => rw [exec_reset, State.resetBlock_resetBlock]

/-- Settles O49: the state after reset is idle with no session, and the example parameters are legal (R8 to R11). -/
theorem resetHasInvariant : Obligations.ResetHasInvariant := by
  have hlegal : State.reset.params.legal = true := by decide
  exact State.inv_of_idle hlegal rfl sessionClear_reset rfl (Nat.zero_le _) BitVec.zero_and BitVec.zero_and
    BitVec.zero_and

/-! ### The end of a run (R155) -/

/-- A REG_READ changes `reg_rdata` only (R54, R120). -/
theorem exec_rd (a : BitVec 8) (s : State) : exec (.rd a) s = .next { s with rdata := s.readAddr a } := rfl

/-- The last read response is no part of what a register shows (R120). -/
@[simp] theorem State.readReg_withRdata (s : State) (v : Word) (r : Reg) :
    ({ s with rdata := v } : State).readReg r = s.readReg r := by
  cases r <;> rfl

theorem State.runEnded.not_running {s : State} (h : s.runEnded) : s.st.running = false := by
  obtain ⟨hst | hst, -⟩ := h <;> rw [hst] <;> rfl

/-- Settles O60: no session runs and the FIFO is empty, so nothing is enabled; a read changes its response only. -/
theorem runEndIsFinal : Obligations.RunEndIsFinal := by
  intro s hend
  have hrun : s.st.running = false := hend.not_running
  have ⟨_, hout⟩ := hend
  refine ⟨State.blockInstr_of_not_running hrun, State.sampleReady_of_not_running hrun,
    State.eosReady_of_not_running hrun, State.popReady_of_out_nil hout, ?read⟩
  case read => exact fun a => ⟨_, exec_rd a s, hend, rfl, s.readReg_withRdata _⟩

end Sys2Proof.Machine
end
